-- ==== Sys2Proof/Word.lean ====
section
/-! DEFINITION. The word types of the machine (R1, R5 of spec/00_scope.md). -/

namespace Sys2Proof

/-- One byte of storage (R17). -/
abbrev Byte := BitVec 8

/-- A 32-bit value: an instruction word, an effective address, a stored binary32 pattern (R5). -/
abbrev Word := BitVec 32

/-- A 64-bit value: a general register or a binary64 pattern (`XLEN`, `FLEN` of R5). -/
abbrev DWord := BitVec 64

/-- The number of a register, the 5-bit FS, RA and RB fields (R53). All 32 values are valid. -/
abbrev RegNum := BitVec 5

end Sys2Proof
end

