-- ==== Sys2Proof/Config.lean ====
section
/-! DEFINITION. The parameters of the model (R4, R5 of spec/00_scope.md), as plain data a launch gives (R110 (a)),
and the free values: constants with no body, which nothing can evaluate. -/

namespace Sys2Proof

/-- `PROFILE` (R4): the hardware, or the frozen interpreter snapshot. -/
inductive Profile where
  | hw
  | xeniaRs
deriving DecidableEq, Repr

/-- Which function `SFD` is (R5, R71): the instance the profile names, or one of which only the contract of R71 is
known ("a model may keep it uninterpreted and assume only rule R71"). -/
inductive SfdChoice where
  | ofProfile
  | anyOfContract
deriving DecidableEq, Repr

/-- `TININESS` (R5, D4): whether "tiny" is judged before or after rounding. -/
inductive Tininess where
  | before
  | after
deriving DecidableEq, Repr

/-- `NAN_PAYLOAD` (R5, D5). -/
inductive NanPayload where
  | preserve
  | draw
deriving DecidableEq, Repr

/-- `UPDATE_WRITEBACK` (R5, D6): what an update form writes to RA. -/
inductive WriteBack where
  | zext32
  | full64
deriving DecidableEq, Repr

/-- The kind of an access, as `Admit` takes it (R36). -/
inductive AccessKind where
  | store
  | fetch
deriving DecidableEq, Repr

/-- A range of bytes: `base`, `base + 1`, ..., `base + size - 1`. -/
structure Range where
  base : Nat
  size : Nat
deriving DecidableEq, Repr

/-- A range the platform provides, with what it lets an agent do there (R36). -/
structure Region where
  range : Range
  store : Bool
  fetch : Bool
deriving DecidableEq, Repr

/-- `CODE` (R5, R110 (b)): the program, a base address and a list of words. -/
structure Code where
  base : Word
  words : List Word
deriving DecidableEq, Repr

/-- The parameters of R5. The register and field widths of R5 are in the types; `NAGENTS` is the number of agents in the
state; `END` is computed from `code`. -/
structure Config where
  profile : Profile
  sfd : SfdChoice
  tininess : Tininess
  nanPayload : NanPayload
  writeBack : WriteBack
  /-- `Admit` (R36, D10). -/
  regions : List Region
  /-- `CacheInhibited` (R34, D11). -/
  cacheInhibited : List Range
  /-- `RESERVATION_GRANULE` in bytes (R16, D14). -/
  granule : Nat
  /-- `RESERVATIONS_ENABLED` (R39), read under `xeniaRs` only. -/
  reservationsEnabled : Bool
  code : Code
deriving DecidableEq, Repr

/-- What `SFD` returns (R71): a binary32 word and four flag bits. -/
structure SfdResult where
  word : Word
  xx : Bool
  ox : Bool
  ux : Bool
  vxsnan : Bool
deriving DecidableEq, Repr, Inhabited

/-- FREE VALUE. A candidate for the uninterpreted `SFD`: a function of FS's value, RN and NI alone (R71: "It depends on
nothing else"). Used where `SfdChoice.anyOfContract` is set, and only where its result meets the contract (log 7). -/
opaque Config.sfdDraw : DWord → BitVec 2 → Bool → SfdResult

/-- FREE VALUE. The sign and the low 22 fraction bits of a stored NaN under `NAN_PAYLOAD = draw` (D5, log 10). -/
opaque Config.nanDraw : Nat → BitVec 23

/-- FREE VALUE. The FPSCR bits outside the six named fields after a store that raises a flag (R14, log 11). -/
opaque Config.fpscrDraw : Nat → BitVec 25

/-- FREE VALUE. Whether a straddling store also kills agent `a`'s reservation on the second granule (R39, log 18). -/
opaque Config.straddleKill : Nat → Nat → Bool

/-- FREE VALUE. Which agent moves next (R102, log 19). -/
opaque Config.scheduleDraw : Nat → Nat

/-- FREE VALUE. How many of the landings it may come before a new one comes before: the draw, and which access of the store it
is (R37, R38, log 20). -/
opaque Config.landsAt : Nat → Nat → Nat

end Sys2Proof
end

