-- ==== Sys2Proof/Machine/State.lean ====
section
/-! DEFINITION. The state of the machine, as plain data (spec/10_state.md), the reasons a step stops
(R90 of spec/60_exceptions.md), and the launch the model calls reset. -/

namespace Sys2Proof.Machine

/-- A register an instruction in scope can read. GPR and FPR are separate files (R10). -/
inductive RegName where
  | gpr (i : RegNum)
  | fpr (i : RegNum)
deriving DecidableEq, Repr

/-- The faults of R90, each with the information R90 says it carries. Every one is raised with the state unchanged (R95)
and ends the agent's run (R94). All are SAFE: the model stops where the hardware may go on (D18). -/
inductive Fault where
  /-- Raised by every instruction under `hw` when `MSR.FP = 0` (R91). Safe. -/
  | floatingPointUnavailable (pc : Word)
  /-- Raised by every instruction under `hw`: misaligned and a byte cache-inhibited (R34, R92). Safe. -/
  | alignment (pc ea : Word)
  /-- Raised by the update forms under `hw` when RA is 0 (R57). Safe. -/
  | invalidForm (pc word : Word)
  /-- Raised by every instruction: the four bytes are not admitted for a store (R32, R36). Safe. -/
  | dataStorage (pc ea : Word)
  /-- Raised by every instruction: the four bytes run past the top of the space (R32, D9). Safe. -/
  | addressWrap (pc ea : Word)
  /-- Raised by every instruction: the four bytes meet the program text (R40, D15). Safe. -/
  | storeToCode (pc ea : Word)
  /-- Raised by fetch: pc is not a multiple of 4 (R12, R42). Safe. -/
  | instructionAlignment (pc : Word)
  /-- Raised by fetch: the four bytes at pc are not admitted for fetch, or hold no value (R42, R19). Safe. -/
  | instructionStorage (pc : Word)
  /-- Raised by every instruction at `pc = 0xFFFFFFFC` (R12, D7). Safe. -/
  | pcWrap (pc : Word)
  /-- Raised by every instruction: it reads a register the launch marked *unwritten* and no step has written (R19). Safe. -/
  | unwrittenRegister (pc : Word) (reg : RegName)
deriving DecidableEq, Repr

/-- Why there is no next state that is not a fault. -/
inductive Refusal where
  /-- Raised by `exec` for an instruction that has no meaning yet. Safe. -/
  | notModelled (mnemonic : String)
  /-- Raised by `step`: the word at pc is none of the four instructions (R3, R56, R58). Safe. -/
  | notDecoded (pc word : Word)
  /-- Raised by `step`: the agent is at END with nothing recorded, so it has no further step (R115). It says that the run
  is over and nothing else. Safe. -/
  | runCompleted
deriving DecidableEq, Repr

/-- What is recorded of an agent that has stopped: "A `refuse` is treated the same way and is recorded separately from a
fault" (R94). -/
inductive Stop where
  | fault (f : Fault)
  | refusal (r : Refusal)
deriving DecidableEq, Repr

/-- MSR: the one field the spec gives (R13). -/
structure Msr where
  fp : Bool
deriving DecidableEq, Repr

/-- FPSCR (R14): the six named fields, and `other`, the 25 bits outside them. -/
structure Fpscr where
  rn : BitVec 2
  ni : Bool
  xx : Bool
  ox : Bool
  ux : Bool
  vxsnan : Bool
  other : BitVec 25
deriving DecidableEq, Repr

/-- XER (R15): the three bits the spec names, and an opaque pattern for the rest. -/
structure Xer where
  ca : Bool
  ov : Bool
  so : Bool
  rest : Nat
deriving DecidableEq, Repr

/-- The per-agent state (10_state.md section 1). -/
structure Agent where
  /-- R12. -/
  pc : Word
  /-- R10. -/
  gpr : Vector DWord 32
  /-- R11. -/
  fpr : Vector DWord 32
  /-- The registers that carry the launch's mark *unwritten* (R19, R110 (c)); every register holds a value all the same. -/
  unwritten : List RegName
  msr : Msr
  fpscr : Fpscr
  /-- CR, an opaque pattern (R15). -/
  cr : Nat
  xer : Xer
  /-- The vector registers, opaque patterns (R15). -/
  vr : List Nat
  /-- The fault or refusal recorded for the agent, never cleared (R94). -/
  stop : Option Stop
deriving DecidableEq, Repr

/-- Storage (R17): the bytes that hold a value, by address. An address that is not listed has no value (R19: "other bytes
do not exist"). -/
abbrev Memory := List Host.Cell

/-- An entry of `RES` (R16): an agent and a granule. -/
structure Reservation where
  agent : Nat
  granule : Nat
deriving DecidableEq, Repr

/-- One access to storage in a run with several agents: bytes that land all at once, "one single-copy-atomic access" for an
aligned store and one of "four separate byte writes" for another (R37). -/
structure Landing where
  agent : Nat
  cells : List Host.Cell
deriving DecidableEq, Repr

/-- The machine. `cpu` is the agent that moves next and `me` its number; `others` are the remaining agents with theirs
(R102). `mem` and `res` are shared. `landings` (the accesses of the stores so far, the one that lands last first, log 20) and
`draws` are the model's own fields. -/
structure State where
  cfg : Config
  me : Nat
  cpu : Agent
  others : List (Nat × Agent)
  mem : Memory
  res : List Reservation
  landings : List Landing
  draws : Nat
deriving DecidableEq, Repr

/-- The configuration of the launch the model calls reset: the default of R5 where R5 gives one, `CODE` empty at the base of
95_test_vectors.md (log 2), every byte admitted (log 3), a granule of 128 bytes (log 17). -/
def resetConfig : Config where
  profile := .hw
  sfd := .ofProfile
  tininess := .before
  nanPayload := .preserve
  writeBack := .zext32
  regions := [{ range := { base := 0, size := 2 ^ 32 }, store := true, fetch := true }]
  cacheInhibited := []
  granule := 128
  reservationsEnabled := true
  code := { base := 0x00010000, words := [] }

/-- The agent of the launch the model calls reset: `pc = CODE.base` (R19), `MSR.FP = 1` and all else zero (log 1), no
register marked (log 5), the 128 vector registers of the family (R1, log 29), each 0 (log 24), nothing recorded (R110 (f)). -/
def resetAgent : Agent where
  pc := 0x00010000
  gpr := Vector.replicate 32 0
  fpr := Vector.replicate 32 0
  unwritten := []
  msr := { fp := true }
  fpscr := { rn := 0, ni := false, xx := false, ox := false, ux := false, vxsnan := false, other := 0 }
  cr := 0
  xer := { ca := false, ov := false, so := false, rest := 0 }
  vr := List.replicate 128 0
  stop := none

/-- The state right after reset. The spec has no reset (R19): this is a launch (R110), of an empty program, and every value
the spec does not fix is named in log 1 to 5, 17, 19, 24, 25 and 29. -/
def State.reset : State where
  cfg := resetConfig
  me := 0
  cpu := resetAgent
  others := []
  mem := []
  res := []
  landings := []
  draws := 0

end Sys2Proof.Machine
end

