-- ==== Sys2Proof/Machine/Convert.lean ====
section
/-! DEFINITION. The double-to-single conversion `SFD` (R71 to R74 of spec/40_fp_store_single.md): the two instances, the
contract, and the choice between them. -/

namespace Sys2Proof.Machine

/-! ### The formats (40_fp_store_single.md section 2) -/

/-- The sign, bit [63]. -/
def sign64 (x : DWord) : Bool := x.getLsbD 63

/-- The biased exponent, bits [62:52]. -/
def exp64 (x : DWord) : Nat := (x.extractLsb' 52 11).toNat

/-- The fraction, bits [51:0]. -/
def frac64 (x : DWord) : Nat := (x.extractLsb' 0 52).toNat

/-- Exponent 2047 and a fraction: a NaN. -/
def isNan64 (x : DWord) : Bool := exp64 x == 2047 && frac64 x != 0

/-- A NaN whose bit [51] is 0: signalling. -/
def isSnan64 (x : DWord) : Bool := isNan64 x && !x.getLsbD 51

/-- Exponent 2047 and no fraction: an infinity. -/
def isInf64 (x : DWord) : Bool := exp64 x == 2047 && frac64 x == 0

/-- `m` of `|value| = m * 2^q` for a finite value (R72). -/
def significand64 (x : DWord) : Nat := if 1 ≤ exp64 x then 2 ^ 52 + frac64 x else frac64 x

/-- `q` of `|value| = m * 2^q` for a finite value (R72). -/
def scale64 (x : DWord) : Int := if 1 ≤ exp64 x then (exp64 x : Int) - 1075 else -1074

/-- The biased exponent of a binary32 pattern, bits [30:23]. -/
def exp32 (y : Word) : Nat := (y.extractLsb' 23 8).toNat

/-- The fraction of a binary32 pattern, bits [22:0]. -/
def frac32 (y : Word) : Nat := (y.extractLsb' 0 23).toNat

/-- A binary32 NaN pattern. -/
def isNan32 (y : Word) : Bool := exp32 y == 255 && frac32 y != 0

/-- A binary32 denormal pattern. -/
def isDenormal32 (y : Word) : Bool := exp32 y == 0 && frac32 y != 0

/-- The magnitude of a binary32 pattern, all bits but the sign. Magnitudes are ordered as their values are. -/
def mag32 (y : Word) : BitVec 31 := y.extractLsb' 0 31

/-- A binary32 pattern from its sign and its magnitude. -/
def pack32 (s : Bool) (magnitude : BitVec 31) : Word := BitVec.ofBool s ++ magnitude

/-- `Widen(y)` for a pattern that is no NaN: the binary64 pattern of the same value (section 2). -/
def widen (y : Word) : DWord :=
  let s := y.extractLsb' 31 1
  if exp32 y = 255 then s ++ 2047#11 ++ 0#52
  else if exp32 y ≠ 0 then s ++ BitVec.ofNat 11 (exp32 y + 896) ++ y.extractLsb' 0 23 ++ 0#29
  else if frac32 y = 0 then s ++ 0#63
  else
    let k := (frac32 y).log2
    s ++ BitVec.ofNat 11 (k + 874) ++ BitVec.ofNat 52 ((frac32 y - 2 ^ k) * 2 ^ (52 - k))

/-! ### `SFD_ieee` (R72) -/

/-- Whether the magnitude is rounded up, from the kept part `n`, the discarded part `r`, half a unit and the sign (R72). -/
def roundsUp (rn : BitVec 2) (s : Bool) (n r half : Nat) : Bool :=
  if rn = 0b00 then decide (r > half) || (r == half && n % 2 == 1)
  else if rn = 0b01 then false
  else if rn = 0b10 then r != 0 && !s
  else r != 0 && s

/-- `m / 2^sh` rounded to a whole number (R72's `n'`). -/
def roundShift (rn : BitVec 2) (s : Bool) (m sh : Nat) : Nat :=
  m / 2 ^ sh + (if roundsUp rn s (m / 2 ^ sh) (m % 2 ^ sh) (2 ^ (sh - 1)) then 1 else 0)

/-- `E = floor(log2(m)) + q` (R72). -/
def topExponent (m : Nat) (q : Int) : Int := (m.log2 : Int) + q

/-- The exponent of the value rounded to 24 significant bits, its exponent unbounded (R72, `TININESS = after`). -/
def roundedExponent (rn : BitVec 2) (s : Bool) (m : Nat) (q : Int) : Int :=
  if roundShift rn s m (m.log2 - 23) = 2 ^ 24 then topExponent m q + 1 else topExponent m q

/-- `tiny` (R72): below 2^-126, judged before or after rounding. -/
def isTiny (t : Tininess) (rn : BitVec 2) (s : Bool) (m : Nat) (q : Int) : Bool :=
  match t with
  | .before => decide (topExponent m q < -126)
  | .after => decide (roundedExponent rn s m q < -126)

/-- The magnitude of an overflowing result: infinity or the largest finite, by rounding mode and sign (R72). -/
def overflowMagnitude (rn : BitVec 2) (s : Bool) : BitVec 31 :=
  if rn = 0b00 ∨ (rn = 0b10 ∧ s = false) ∨ (rn = 0b11 ∧ s = true) then 0x7F800000 else 0x7F7FFFFF

/-- The result for a NaN (R72): quieted; the sign and the low 22 fraction bits kept, or replaced by the drawn bits. -/
def narrowNan (drawn : Option (BitVec 23)) (x : DWord) : SfdResult :=
  let word := match drawn with
    | none => BitVec.ofBool (sign64 x) ++ 0xFF#8 ++ 1#1 ++ x.extractLsb' 29 22
    | some b => b.extractLsb' 22 1 ++ 0xFF#8 ++ 1#1 ++ b.extractLsb' 0 22
  { word := word, xx := false, ox := false, ux := false, vxsnan := isSnan64 x }

/-- The result for a finite value `m * 2^q` other than zero (R72). -/
def narrowFinite (t : Tininess) (s : Bool) (m : Nat) (q : Int) (rn : BitVec 2) (ni : Bool) : SfdResult :=
  let e := topExponent m q
  let tiny := isTiny t rn s m q
  if tiny && ni then { word := pack32 s 0, xx := true, ox := false, ux := true, vxsnan := false }
  else
    let sh := (max e (-126) - 23 - q).toNat
    let inexact := m % 2 ^ sh != 0
    let n := roundShift rn s m sh
    if -126 ≤ e then
      let e' := if n = 2 ^ 24 then e + 1 else e
      let n' := if n = 2 ^ 24 then 2 ^ 23 else n
      if 127 < e' then
        { word := pack32 s (overflowMagnitude rn s), xx := true, ox := true, ux := false, vxsnan := false }
      else
        { word := pack32 s (BitVec.ofInt 8 (e' + 127) ++ BitVec.ofNat 23 n'),
          xx := inexact, ox := false, ux := false, vxsnan := false }
    else
      { word := pack32 s (BitVec.ofNat 31 n), xx := inexact, ox := false, ux := tiny && inexact, vxsnan := false }

/-- `SFD_ieee(x, rn, ni)` (R72), with `TININESS` and the drawn NaN bits, if any. -/
def sfdIeee (t : Tininess) (drawn : Option (BitVec 23)) (x : DWord) (rn : BitVec 2) (ni : Bool) : SfdResult :=
  if isNan64 x then narrowNan drawn x
  else if isInf64 x then
    { word := pack32 (sign64 x) 0x7F800000, xx := false, ox := false, ux := false, vxsnan := false }
  else if significand64 x = 0 then
    { word := pack32 (sign64 x) 0, xx := false, ox := false, ux := false, vxsnan := false }
  else narrowFinite t (sign64 x) (significand64 x) (scale64 x) rn ni

/-- `SFD_rne(x, rn, ni)` (R74): the word of `SFD_ieee(x, 0b00, 0)`, and no flag. -/
def sfdRne (drawn : Option (BitVec 23)) (x : DWord) : SfdResult :=
  { word := (sfdIeee .before drawn x 0b00 false).word, xx := false, ox := false, ux := false, vxsnan := false }

/-! ### The contract (R71) -/

/-- The binary32 pattern `y`, no NaN, with `Widen(y) = x`, where there is one. -/
def exactOf (x : DWord) : Option Word :=
  let y : Word :=
    if exp64 x = 2047 then pack32 (sign64 x) 0x7F800000
    else if 897 ≤ exp64 x then pack32 (sign64 x) (BitVec.ofNat 8 (exp64 x - 896) ++ x.extractLsb' 29 23)
    else if 874 ≤ exp64 x then
      pack32 (sign64 x) (BitVec.ofNat 31 (2 ^ (exp64 x - 874) + frac64 x / 2 ^ (926 - exp64 x)))
    else pack32 (sign64 x) 0
  if widen y = x then some y else none

/-- The value of a finite binary32 magnitude, in units of 2^-1074. -/
def units32 (p : Nat) : Nat :=
  if p < 2 ^ 23 then p * 2 ^ 925 else (2 ^ 23 + p % 2 ^ 23) * 2 ^ (p / 2 ^ 23 + 924)

/-- The magnitude of a finite binary64 pattern, in units of 2^-1074. -/
def units64 (x : DWord) : Nat := significand64 x * 2 ^ (scale64 x + 1074).toNat

/-- No flag is returned. -/
def SfdNoFlags (r : SfdResult) : Bool := !r.xx && !r.ox && !r.ux && !r.vxsnan

/-- Clause (e) for a finite `x`: the magnitude is one of two adjacent binary32 magnitudes that enclose `|x|`, infinity (the
pattern 0x7F800000) the one after the largest finite. -/
def boundsMagnitude (x : DWord) (p : Nat) : Bool :=
  decide (p ≤ 0x7F800000)
    && (decide (0x7F7FFFFF ≤ p) || decide (units64 x < units32 (p + 1)))
    && (p == 0 || decide (units32 (p - 1) < units64 x))

/-- A result that R71's contract allows for `(x, rn, ni)`; no clause mentions `rn`. -/
def meetsContract (x : DWord) (ni : Bool) (r : SfdResult) : Bool :=
  let p := (mag32 r.word).toNat
  if isNan64 x then
    -- (c), and (f) for VXSNAN
    (r.word.extractLsb' 22 9 == 0b111111111#9) && !r.xx && !r.ox && !r.ux && (!r.vxsnan || isSnan64 x)
  else
    -- (d)
    (r.word.getLsbD 31 == sign64 x)
    -- (a), (b)
    && (match exactOf x with
        | some y => (isDenormal32 y && ni) || (r.word == y && SfdNoFlags r)
        | none => true)
    && (isInf64 x ||
      -- (e)
      ((boundsMagnitude x p || (ni && decide (units64 x < units32 0x00800000) && p == 0))
      -- (f)
      && (!r.ox || decide (units32 0x7F7FFFFF < units64 x))
      && (!r.ux || (decide (0 < units64 x) && decide (units64 x < units32 0x00800000)))
      && (!r.xx || decide (p = 0x7F800000) || decide (units32 p ≠ units64 x))
      && !r.vxsnan))

/-- An `SFD` of which only the contract is known (R5, R71): the uninterpreted candidate where it meets the contract, which
any function of the contract does, and `SFD_ieee` elsewhere. -/
def sfdAny (x : DWord) (rn : BitVec 2) (ni : Bool) : SfdResult :=
  let r := Config.sfdDraw x rn ni
  if meetsContract x ni r then r else sfdIeee .before none x rn ni

/-! ### The conversion of a store -/

/-- The NaN bits drawn for a store: none under `preserve` (D5). -/
def drawnNan (c : Config) (draw : Nat) : Option (BitVec 23) :=
  match c.nanPayload with
  | .preserve => none
  | .draw => some (Config.nanDraw draw)

/-- `SFD(FPR[FS], FPSCR.RN, FPSCR.NI)` as the configuration has it (R5, R71). Under `xenia_rs` no FPSCR field is read (R14). -/
def convert (c : Config) (draw : Nat) (x : DWord) (f : Fpscr) : SfdResult :=
  match c.sfd, c.profile with
  | .ofProfile, .hw => sfdIeee c.tininess (drawnNan c draw) x f.rn f.ni
  | .ofProfile, .xeniaRs => sfdRne (drawnNan c draw) x
  | .anyOfContract, .hw => sfdAny x f.rn f.ni
  | .anyOfContract, .xeniaRs => sfdAny x 0b00 false

end Sys2Proof.Machine
end

