-- ==== Sys2Proof/Machine/Flags.lean ====
section
/-! DEFINITION. The FPSCR effect of a store (R73, R14). -/

namespace Sys2Proof.Machine

/-- The conversion raises a flag. -/
def raisesFlag (r : SfdResult) : Bool := r.xx || r.ox || r.ux || r.vxsnan

/-- FPSCR with the flags raised (R73): each is OR-ed in, RN and NI stay. The bits outside the six named fields are unspecified
after a store that raises a flag, and unchanged otherwise (R14). -/
def Fpscr.raiseFlags (f : Fpscr) (draw : Nat) (r : SfdResult) : Fpscr :=
  { f with
    xx := f.xx || r.xx
    ox := f.ox || r.ox
    ux := f.ux || r.ux
    vxsnan := f.vxsnan || r.vxsnan
    other := if raisesFlag r then Config.fpscrDraw draw else f.other }

/-- FPSCR after a store: R73 under `hw`, untouched under `xenia_rs` (R14, R74). -/
def Fpscr.afterStore (p : Profile) (f : Fpscr) (draw : Nat) (r : SfdResult) : Fpscr :=
  match p with
  | .hw => f.raiseFlags draw r
  | .xeniaRs => f

end Sys2Proof.Machine
end

