-- ==== Sys2Proof/Syntax.lean ====
section
/-! DEFINITION. The instructions of spec/opcode_table.json, one constructor per row (R2). -/

namespace Sys2Proof

/-- The four instructions in scope (R2), with the operands of R53 and R54 in the order of the word's fields.
The displacement `d` is the signed number the assembler writes (R59). -/
inductive Instr where
  /-- `stfs FS, d(RA0)`: Store Floating-Point Single, form D (R75). -/
  | stfs (fs ra : RegNum) (d : Int)
  /-- `stfsu FS, d(RA)`: Store Floating-Point Single with Update, form D (R76). -/
  | stfsu (fs ra : RegNum) (d : Int)
  /-- `stfsx FS, RA0, RB`: Store Floating-Point Single Indexed, form X (R77). -/
  | stfsx (fs ra rb : RegNum)
  /-- `stfsux FS, RA, RB`: Store Floating-Point Single with Update Indexed, form X (R78). -/
  | stfsux (fs ra rb : RegNum)
deriving DecidableEq, Repr

end Sys2Proof
end

