-- ==== Sys2Proof/WellFormed.lean ====
section
/-! DEFINITION. Which instructions have an encoding, and which of those the spec calls an invalid form. -/

namespace Sys2Proof

/-- `d` fits the 16-bit signed field (R54, R59: "`d` is a signed integer in -32768..32767"). -/
def dispInRange (d : Int) : Bool := decide (-32768 ≤ d) && decide (d ≤ 32767)

/-- The instruction has an encoding. The register fields are bounded by their type (R53: all 32 values are valid);
the displacement is checked. -/
def Instr.wellFormed : Instr → Bool
  | .stfs _ _ d => dispInRange d
  | .stfsu _ _ d => dispInRange d
  | .stfsx _ _ _ => true
  | .stfsux _ _ _ => true

/-- The invalid forms of R57: an update form with RA field 0. They decode; what they do depends on `PROFILE`. -/
def Instr.invalidForm : Instr → Bool
  | .stfs _ _ _ => false
  | .stfsu _ ra _ => ra == 0
  | .stfsx _ _ _ => false
  | .stfsux _ ra _ => ra == 0

end Sys2Proof
end

