-- ==== Sys2Proof/Decode.lean ====
section
/-! DEFINITION. Byte order, the fields of a word, the decoder and the encoder (spec/30_encoding.md). `w[hi:lo]` of
the spec, least-significant bit zero (R6), is `w.extractLsb' lo (hi - lo + 1)`. -/

namespace Sys2Proof

/-! ### Byte order (R31, R42: the most-significant byte lies lowest) -/

/-- The four bytes of a word, most-significant first (R32). -/
def wordBytes (w : Word) : List Byte :=
  [w.extractLsb' 24 8, w.extractLsb' 16 8, w.extractLsb' 8 8, w.extractLsb' 0 8]

/-- The word of four bytes, the first the most-significant (R42). -/
def wordOfBytes (b0 b1 b2 b3 : Byte) : Word :=
  b0 ++ b1 ++ b2 ++ b3

/-! ### Fields (R51, R52, R53, R54) -/

/-- The primary opcode, source bits 0-5. -/
def fieldOpcd (w : Word) : BitVec 6 := w.extractLsb' 26 6

/-- The floating-point source register, source bits 6-10. -/
def fieldFs (w : Word) : RegNum := w.extractLsb' 21 5

/-- The base register, source bits 11-15. -/
def fieldRa (w : Word) : RegNum := w.extractLsb' 16 5

/-- The index register, source bits 16-20. -/
def fieldRb (w : Word) : RegNum := w.extractLsb' 11 5

/-- The extended opcode, source bits 21-30. -/
def fieldXo (w : Word) : BitVec 10 := w.extractLsb' 1 10

/-- The record-form flag, source bit 31. -/
def fieldRc (w : Word) : BitVec 1 := w.extractLsb' 0 1

/-- The displacement, source bits 16-31, a two's-complement number (R54). -/
def fieldD (w : Word) : Int := (w.extractLsb' 0 16).toInt

/-! ### The decoder -/

/-- Why bytes are no instruction of this spec. -/
inductive DecodeReject where
  /-- Fewer than the 4 bytes of an instruction (R50). -/
  | truncated
  /-- An X-form word of a row of the table, but with Rc = 1 (R56). -/
  | recordForm (w : Word)
  /-- A word that matches no row (R58). It may well be an instruction of the processor. -/
  | outsideScope (w : Word)
deriving DecidableEq, Repr

/-- What the decoder answers. -/
inductive Decoded (α : Type) where
  | ok (a : α)
  | rejected (why : DecodeReject)
deriving DecidableEq, Repr

/-- Decode a word: the algorithm of R60, a rejection carrying its reason. -/
def decode (w : Word) : Decoded Instr :=
  if fieldOpcd w = 52 then .ok (.stfs (fieldFs w) (fieldRa w) (fieldD w))
  else if fieldOpcd w = 53 then .ok (.stfsu (fieldFs w) (fieldRa w) (fieldD w))
  else if fieldOpcd w = 31 ∧ fieldXo w = 663 then
    if fieldRc w = 0 then .ok (.stfsx (fieldFs w) (fieldRa w) (fieldRb w)) else .rejected (.recordForm w)
  else if fieldOpcd w = 31 ∧ fieldXo w = 695 then
    if fieldRc w = 0 then .ok (.stfsux (fieldFs w) (fieldRa w) (fieldRb w)) else .rejected (.recordForm w)
  else .rejected (.outsideScope w)

/-- Decode the first instruction of a list of bytes, and give the bytes after it (R50, R42). -/
def decodeBytes : List Byte → Decoded (Instr × List Byte)
  | b0 :: b1 :: b2 :: b3 :: rest =>
    match decode (wordOfBytes b0 b1 b2 b3) with
    | .ok i => .ok (i, rest)
    | .rejected why => .rejected why
  | _ => .rejected .truncated

/-! ### The encoder (R55) -/

/-- A form D word: OPCD, FS, RA, d (R51). -/
def formD (opcd : BitVec 6) (fs ra : RegNum) (d : Int) : Word :=
  opcd ++ fs ++ ra ++ BitVec.ofInt 16 d

/-- A form X word: OPCD, FS, RA, RB, XO, Rc (R52), with OPCD 31 and Rc 0 (R55, R56). -/
def formX (fs ra rb : RegNum) (xo : BitVec 10) : Word :=
  31#6 ++ fs ++ ra ++ rb ++ xo ++ 0#1

/-- The word of an instruction (R55: "Encoding a word from operands"). -/
def encode : Instr → Word
  | .stfs fs ra d => formD 52 fs ra d
  | .stfsu fs ra d => formD 53 fs ra d
  | .stfsx fs ra rb => formX fs ra rb 663
  | .stfsux fs ra rb => formX fs ra rb 695

/-- The bytes of an instruction as they lie in storage, lowest address first (R42). -/
def encodeBytes (i : Instr) : List Byte := wordBytes (encode i)

/-! ### The opcode table (R55) -/

/-- A row of the table: a word `w` selects it exactly when `w &&& mask = pattern` (R55). -/
structure OpcodeRow where
  mnemonic : String
  mask : Word
  pattern : Word
deriving DecidableEq, Repr

/-- R55's four rows. -/
def opcodeTable : List OpcodeRow :=
  [{ mnemonic := "stfs", mask := 0xFC000000, pattern := 0xD0000000 },
   { mnemonic := "stfsu", mask := 0xFC000000, pattern := 0xD4000000 },
   { mnemonic := "stfsx", mask := 0xFC0007FF, pattern := 0x7C00052E },
   { mnemonic := "stfsux", mask := 0xFC0007FF, pattern := 0x7C00056E }]

/-- The word selects the row (R55). -/
def OpcodeRow.selects (r : OpcodeRow) (w : Word) : Bool := w &&& r.mask == r.pattern

/-- The mnemonic of an instruction, as the table spells it. -/
def Instr.mnemonic : Instr → String
  | .stfs _ _ _ => "stfs"
  | .stfsu _ _ _ => "stfsu"
  | .stfsx _ _ _ => "stfsx"
  | .stfsux _ _ _ => "stfsux"

/-! ### The host's reading of a table word -/

/-- The instruction the decoder reads from the table word `w` of `nbits` bits: the word laid out in storage, decoded from
its bytes. No instruction is longer than 32 bits (R50), so a longer row is refused. -/
def decodeTableWord (nbits w : Nat) : Option Instr :=
  if nbits ≤ 32 then
    match decodeBytes (wordBytes (BitVec.ofNat 32 (w % 2 ^ nbits))) with
    | .ok (i, _) => some i
    | .rejected _ => none
  else none

end Sys2Proof
end

