-- ==== Sys2Proof/Machine/Ops.lean ====
section
/-! DEFINITION. The named operations over storage, reservations and registers, and the raising of a fault. -/

namespace Sys2Proof

/-! ### The platform's parameters -/

/-- The byte address lies in the range. -/
def Range.contains (r : Range) (a : Nat) : Bool := decide (r.base ≤ a) && decide (a < r.base + r.size)

/-- The region lets an access of this kind touch it. -/
def Region.permits (r : Region) : AccessKind → Bool
  | .store => r.store
  | .fetch => r.fetch

/-- Some region of the platform lets an access of this kind touch the byte. -/
def Config.admitsByte (c : Config) (kind : AccessKind) (a : Nat) : Bool :=
  c.regions.any fun r => r.range.contains a && r.permits kind

/-- `Admit(addr, n, kind)` (R36): every byte of the range is admitted. -/
def Config.admits (c : Config) (addr n : Nat) (kind : AccessKind) : Bool :=
  (List.range n).all fun k => c.admitsByte kind (addr + k)

/-- `CacheInhibited(b)` (R34). -/
def Config.inhibitsByte (c : Config) (a : Nat) : Bool := c.cacheInhibited.any fun r => r.contains a

/-- `CacheInhibited` holds for one of the bytes `addr`, ..., `addr + n - 1` (R34). -/
def Config.inhibitsAny (c : Config) (addr n : Nat) : Bool :=
  (List.range n).any fun k => c.inhibitsByte (addr + k)

/-- The byte range of `CODE` (R110 (b)). -/
def Code.range (c : Code) : Range := { base := c.base.toNat, size := 4 * c.words.length }

/-- One of the bytes `addr`, ..., `addr + n - 1` lies in the program text (R40). -/
def Code.meets (c : Code) (addr n : Nat) : Bool := (List.range n).any fun k => c.range.contains (addr + k)

/-- `END = CODE.base + 4 * length(CODE.words)` (R5, R115). It may be 2^32, which no pc equals. -/
def Code.finish (c : Code) : Nat := c.base.toNat + 4 * c.words.length

end Sys2Proof

namespace Sys2Proof.Machine

/-! ### Storage -/

/-- The canonical form of storage: addresses strictly rising, within the 32-bit space (R17). An unlisted address has no
value, so every listed value is allowed. -/
abbrev Memory.wf (m : Memory) : Prop :=
  m.Pairwise (fun c d => c.1 < d.1) ∧ ∀ c ∈ m, c.1 < 2 ^ 32

/-- What an unlisted address reads as: no value (R19, log 4). -/
def unlistedByte : Option Byte := none

/-- The byte at an address, or none where it holds no value. -/
def Memory.read : Memory → Nat → Option Byte
  | [], _ => unlistedByte
  | c :: rest, a => if c.1 = a then some c.2 else Memory.read rest a

/-- Write one byte. -/
def Memory.write : Memory → Nat → Byte → Memory
  | [], a, b => [(a, b)]
  | c :: rest, a, b =>
    if a < c.1 then (a, b) :: c :: rest
    else if a = c.1 then (a, b) :: rest
    else c :: Memory.write rest a b

/-- Write cells, one after the other. -/
def Memory.writeCells (m : Memory) : List Host.Cell → Memory
  | [] => m
  | c :: rest => (m.write c.1 c.2).writeCells rest

/-- The cells a 4-byte store of `v` at `addr` writes: most-significant byte first (R31, R32). -/
def wordCells (addr : Nat) (v : Word) : List Host.Cell :=
  [(addr, v.extractLsb' 24 8), (addr + 1, v.extractLsb' 16 8), (addr + 2, v.extractLsb' 8 8), (addr + 3, v.extractLsb' 0 8)]

/-- `MemWrite(addr, 4, v)` (R32). Its conditions are tested before, in the order of R93. -/
def Memory.writeWord (m : Memory) (addr : Nat) (v : Word) : Memory := m.writeCells (wordCells addr v)

/-- The four bytes from `addr` as one big-endian word (R42), where all four hold a value. -/
def Memory.readWord (m : Memory) (addr : Nat) : Option Word :=
  match m.read addr, m.read (addr + 1), m.read (addr + 2), m.read (addr + 3) with
  | some b0, some b1, some b2, some b3 => some (wordOfBytes b0 b1 b2 b3)
  | _, _, _, _ => none

/-! ### Reservations (R16, R39) -/

/-- The granule of an address: the number of the aligned block of `RESERVATION_GRANULE` bytes it lies in (R16). -/
def granuleOf (c : Config) (addr : Nat) : Nat := addr / c.granule

/-- The entry goes when four bytes are stored at `ea`: always on `granule(ea)`, whoever holds it; on the granule of
`ea + 3`, where that is another, as the free value says (R39). -/
def killed (c : Config) (draw : Nat) (ea : Nat) (r : Reservation) : Bool :=
  r.granule == granuleOf c ea || (r.granule == granuleOf c (ea + 3) && Config.straddleKill draw r.agent)

/-- The kill happens at all: under `hw` always, under `xenia_rs` where `RESERVATIONS_ENABLED` (R39). -/
def killsReservations (c : Config) : Bool :=
  match c.profile with
  | .hw => true
  | .xeniaRs => c.reservationsEnabled

/-- `KillReservations(EA, 4)` (R39). -/
def killReservations (c : Config) (draw : Nat) (ea : Nat) (res : List Reservation) : List Reservation :=
  if killsReservations c then res.filter fun r => !killed c draw ea r else res

/-! ### Registers -/

/-- Read a general register (R10: number 0 is an ordinary register). -/
def Agent.readGpr (a : Agent) (i : RegNum) : DWord := a.gpr[i.toNat]'i.isLt

/-- Read a floating-point register (R11). -/
def Agent.readFpr (a : Agent) (i : RegNum) : DWord := a.fpr[i.toNat]'i.isLt

/-- Write a general register; it is then no longer *unwritten* (R19). -/
def Agent.writeGpr (a : Agent) (i : RegNum) (v : DWord) : Agent :=
  { a with gpr := a.gpr.set i.toNat v i.isLt, unwritten := a.unwritten.filter (· ≠ .gpr i) }

/-- The register carries the mark *unwritten* (R19). -/
def Agent.isUnwritten (a : Agent) (r : RegName) : Bool := decide (r ∈ a.unwritten)

/-! ### Taking an exception (R94, R95)

The spec describes the taking of every exception as the end of the agent's run: "No handler is entered", nothing is saved, no
state changes. So the one shared operation ends the step with the fault; and there is no return (R96: "there is nothing to
return from"). -/

/-- `raise E(info)` (R7): "the step ends with outcome `fault E`; no state is changed by the step". -/
def raise (f : Fault) : Host.Outcome State Fault Refusal := .fault f

/-- The first fault, in the order given, whose condition holds (R93: "exactly one outcome is reported: the first in this
order"). -/
def firstFault : List (Bool × Fault) → Option Fault
  | [] => none
  | (holds, f) :: rest => if holds then some f else firstFault rest

/-! ### Instruction fetch (R42, R12) -/

/-- The word at pc, or the fault of the fetch: first the alignment, then the admission (R93 (1), (2)). It reads the one storage as
the steps so far have left it; that a fetch outside `CODE` sees another agent's stores so is a DESIGN CHOICE (log 30). -/
def fetch (s : State) : Except Fault Word :=
  if s.cpu.pc.toNat % 4 ≠ 0 then .error (.instructionAlignment s.cpu.pc)
  else if s.cfg.admits s.cpu.pc.toNat 4 .fetch then
    match s.mem.readWord s.cpu.pc.toNat with
    | some w => .ok w
    | none => .error (.instructionStorage s.cpu.pc)
  else .error (.instructionStorage s.cpu.pc)

end Sys2Proof.Machine
end

