-- ==== Sys2Proof/Machine/Operands.lean ====
section
/-! DEFINITION. The operand forms of the family and the effective address (R53, R54, R79). -/

namespace Sys2Proof.Machine

/-- The RA operand (R53). -/
inductive BaseOperand where
  /-- The RA0 rule: field 0 is the literal 64-bit zero. -/
  | ra0 (r : RegNum)
  /-- The plain rule of the update forms: `GPR[RA]`, and the same register is written. -/
  | plain (r : RegNum)
deriving DecidableEq, Repr

/-- What is added to the base. -/
inductive OffsetOperand where
  /-- `sext_64(d)` (R54). -/
  | disp (d : Int)
  /-- `GPR[RB]` (R53: field 0 means `GPR[0]`). -/
  | index (r : RegNum)
deriving DecidableEq, Repr

/-- The operands of a store of the family: the table of 40_fp_store_single.md section 1. -/
structure StoreOp where
  fs : RegNum
  base : BaseOperand
  offset : OffsetOperand
deriving DecidableEq, Repr

/-- The operands of `stfs` (R75). -/
def opStfs (fs ra : RegNum) (d : Int) : StoreOp := { fs := fs, base := .ra0 ra, offset := .disp d }

/-- The operands of `stfsu` (R76). -/
def opStfsu (fs ra : RegNum) (d : Int) : StoreOp := { fs := fs, base := .plain ra, offset := .disp d }

/-- The operands of `stfsx` (R77). -/
def opStfsx (fs ra rb : RegNum) : StoreOp := { fs := fs, base := .ra0 ra, offset := .index rb }

/-- The operands of `stfsux` (R78). -/
def opStfsux (fs ra rb : RegNum) : StoreOp := { fs := fs, base := .plain ra, offset := .index rb }

/-- The operands of an instruction. -/
def storeOpOf : Instr → StoreOp
  | .stfs fs ra d => opStfs fs ra d
  | .stfsu fs ra d => opStfsu fs ra d
  | .stfsx fs ra rb => opStfsx fs ra rb
  | .stfsux fs ra rb => opStfsux fs ra rb

/-- The value of the base operand (R53: `base = (RA == 0) ? zext_64(0) : GPR[RA]` under the RA0 rule). -/
def BaseOperand.value (a : Agent) : BaseOperand → DWord
  | .ra0 r => if r = 0 then 0 else a.readGpr r
  | .plain r => a.readGpr r

/-- The value of the offset operand (R53, R54). -/
def OffsetOperand.value (a : Agent) : OffsetOperand → DWord
  | .disp d => BitVec.ofInt 64 d
  | .index r => a.readGpr r

/-- The general registers the base operand reads: none for the literal zero (R53, conflict C9). -/
def BaseOperand.reads : BaseOperand → List RegName
  | .ra0 r => if r = 0 then [] else [.gpr r]
  | .plain r => [.gpr r]

/-- The general registers the offset operand reads. -/
def OffsetOperand.reads : OffsetOperand → List RegName
  | .disp _ => []
  | .index r => [.gpr r]

/-- The registers a store reads, in the order R93 (6) tests them: RA, RB, FS. -/
def StoreOp.reads (op : StoreOp) : List RegName := op.base.reads ++ op.offset.reads ++ [.fpr op.fs]

/-- The general register an update form writes (R53, R79). -/
def StoreOp.updates (op : StoreOp) : Option RegNum :=
  match op.base with
  | .ra0 _ => none
  | .plain r => some r

/-- The 64-bit sum `base + offset`, modulo 2^64 (R79). -/
def StoreOp.sum (op : StoreOp) (a : Agent) : DWord := op.base.value a + op.offset.value a

/-- `EA = trunc_32(base + offset)` (R30, R79). -/
def StoreOp.ea (op : StoreOp) (a : Agent) : Word := (op.sum a).setWidth 32

/-- What an update form writes to RA (R79): `zext_64(EA)`, or the whole sum under `full64` (D6). -/
def StoreOp.writeBackValue (op : StoreOp) (c : Config) (a : Agent) : DWord :=
  match c.writeBack with
  | .zext32 => (op.ea a).setWidth 64
  | .full64 => op.sum a

/-- The agent after the write of RA, which only the update forms make (R79). -/
def StoreOp.writeBack (op : StoreOp) (c : Config) (a : Agent) : Agent :=
  match op.updates with
  | some ra => a.writeGpr ra (op.writeBackValue c a)
  | none => a

end Sys2Proof.Machine
end

