-- ==== Sys2Proof/Machine/FpStore.lean ====
section
/-! DEFINITION. The Store Floating-Point Single family (R70, R75 to R78): the checks, the commit, and one meaning per
instruction. -/

namespace Sys2Proof.Machine

/-- The profile is the hardware (R4). -/
def isHw (c : Config) : Bool := c.profile == .hw

/-- What a store converts: `SFD` of `FPR[FS]` (R75 to R78). -/
def StoreOp.result (op : StoreOp) (s : State) : SfdResult :=
  convert s.cfg s.draws (s.cpu.readFpr op.fs) s.cpu.fpscr

/-- The conditions R90 gives for a fault of a store, in the order of R93 (4) to (11). `word` is the instruction's own word,
which InvalidForm carries. -/
def storeFaults (word : Word) (op : StoreOp) (s : State) : List (Bool × Fault) :=
  let pc := s.cpu.pc
  let ea := op.ea s.cpu
  [(isHw s.cfg && !s.cpu.msr.fp, .floatingPointUnavailable pc),
   (isHw s.cfg && op.updates == some 0, .invalidForm pc word)]
  ++ (op.reads.map fun r => (s.cpu.isUnwritten r, .unwrittenRegister pc r))
  ++ [(decide (0xFFFFFFFC < ea.toNat), .addressWrap pc ea),
      (!s.cfg.admits ea.toNat 4 .store, .dataStorage pc ea),
      (s.cfg.code.meets ea.toNat 4, .storeToCode pc ea),
      (isHw s.cfg && decide (ea.toNat % 4 ≠ 0) && s.cfg.inhibitsAny ea.toNat 4, .alignment pc ea),
      (pc == 0xFFFFFFFC, .pcWrap pc)]

/-- The commit (R70, phase 3): every effect of R75 to R78 at once, each from the state before the step. -/
def commitStore (op : StoreOp) (s : State) : State :=
  { s with
    cpu := { op.writeBack s.cfg s.cpu with
      fpscr := s.cpu.fpscr.afterStore s.cfg.profile s.draws (op.result s)
      pc := s.cpu.pc + 4 }
    mem := s.mem.writeWord (op.ea s.cpu).toNat (op.result s).word
    res := killReservations s.cfg s.draws (op.ea s.cpu).toNat s.res
    draws := s.draws + 1 }

/-- Phases 2 and 3 of a step (R70): the first fault whose condition holds, or the commit. -/
def storeSingle (word : Word) (op : StoreOp) (s : State) : Host.Outcome State Fault Refusal :=
  match firstFault (storeFaults word op s) with
  | some f => raise f
  | none => .next (commitStore op s)

/-- `stfs FS, d(RA0)` (R75). -/
def execStfs (fs ra : RegNum) (d : Int) (s : State) : Host.Outcome State Fault Refusal :=
  storeSingle (encode (.stfs fs ra d)) (opStfs fs ra d) s

/-- `stfsu FS, d(RA)` (R76). -/
def execStfsu (fs ra : RegNum) (d : Int) (s : State) : Host.Outcome State Fault Refusal :=
  storeSingle (encode (.stfsu fs ra d)) (opStfsu fs ra d) s

/-- `stfsx FS, RA0, RB` (R77). -/
def execStfsx (fs ra rb : RegNum) (s : State) : Host.Outcome State Fault Refusal :=
  storeSingle (encode (.stfsx fs ra rb)) (opStfsx fs ra rb) s

/-- `stfsux FS, RA, RB` (R78). -/
def execStfsux (fs ra rb : RegNum) (s : State) : Host.Outcome State Fault Refusal :=
  storeSingle (encode (.stfsux fs ra rb)) (opStfsux fs ra rb) s

end Sys2Proof.Machine
end

