-- ==== Sys2Proof/Machine/Dispatch.lean ====
section
/-! DEFINITION. One arm per instruction. -/

namespace Sys2Proof.Machine

def exec (i : Instr) (s : State) : Host.Outcome State Fault Refusal :=
  match i with
  | .stfs fs ra d => Sys2Proof.Machine.execStfs fs ra d s
  | .stfsu fs ra d => Sys2Proof.Machine.execStfsu fs ra d s
  | .stfsx fs ra rb => Sys2Proof.Machine.execStfsx fs ra rb s
  | .stfsux fs ra rb => Sys2Proof.Machine.execStfsux fs ra rb s

end Sys2Proof.Machine
end

