-- ==== Sys2Proof/Machine/Agents.lean ====
section
/-! DEFINITION. Several agents (R102): who may move, the choice of the next one, and the landing of unsynchronised stores to
the same bytes (R37, R38). With one agent every operation here leaves the state as it is. -/

namespace Sys2Proof.Machine

/-! ### Who may move -/

/-- The agent is at END (R115). -/
def atEnd (c : Config) (a : Agent) : Bool := a.pc.toNat == c.code.finish

/-- The agent has a further step: it is not at END and nothing is recorded for it (R94, R115). -/
def isLive (c : Config) (a : Agent) : Bool := a.stop.isNone && !atEnd c a

/-- What a recorded stop answers: the fault or refusal again, which is "never cleared" (R94). -/
def stopOutcome : Stop → Host.Outcome State Fault Refusal
  | .fault f => raise f
  | .refusal r => .refused r

/-! ### The choice of the next agent (R102: "in an order the model does not fix") -/

/-- Put agent number `k` of `others` in place of the one that moved. -/
def State.giveTurn (s : State) (k : Nat) : State :=
  match s.others[k]? with
  | none => s
  | some (n, a) => { s with me := n, cpu := a, others := s.others.set k (s.me, s.cpu) }

/-- The places in `others` of the agents that have a further step. -/
def liveOthers (s : State) : List Nat :=
  (List.range s.others.length).filter fun k =>
    match s.others[k]? with
    | none => false
    | some (_, a) => isLive s.cfg a

/-- Give the turn to one of the agents that have a further step, the present one among them if it has; which, is a free
value. Where no other agent has one, the turn stays. -/
def State.nextTurn (s : State) : State :=
  match liveOthers s with
  | [] => s
  | k :: ks =>
    let pool := (k :: ks).map some ++ (if isLive s.cfg s.cpu then [none] else [])
    match pool[Config.scheduleDraw s.draws % pool.length]? with
    | some (some j) => s.giveTurn j
    | _ => s

/-! ### The order in which stores land (R37, R38)

Stores that agents make without synchronisation to the same bytes take effect in an order the spec leaves open, but that each
access is whole (R37) and an agent's own stores to one byte keep program order (R38 (a)). `landings` is that order. -/

/-- The byte the access leaves at an address, where it lands on it. -/
def Landing.byteAt (l : Landing) (a : Nat) : Option Byte := Memory.read l.cells a

/-- The two accesses land on a byte in common. -/
def Landing.meets (l o : Landing) : Bool := l.cells.any fun c => (o.byteAt c.1).isSome

/-- The accesses of a store: one of four bytes where EA is aligned, else four of one byte each (R37). -/
def storeLandings (me : Nat) (ea word : Word) : List Landing :=
  if ea.toNat % 4 = 0 then [{ agent := me, cells := wordCells ea.toNat word }]
  else (wordCells ea.toNat word).map fun c => { agent := me, cells := [c] }

/-- The landings a new access may come before: from the last one back to, and without, the last its own agent made on a byte of
it (R38 (a)). -/
def mayLandBefore (l : Landing) (order : List Landing) : List Landing :=
  order.takeWhile fun o => !(o.agent == l.agent && l.meets o)

/-- Put an access into the order, before as many of those it may come before as the draw says (R38 (c): "which one is not
determined"). -/
def place (draw : Nat) (l : Landing) (order : List Landing) : List Landing :=
  let k := draw % ((mayLandBefore l order).length + 1)
  order.take k ++ l :: order.drop k

/-- Put the accesses of a store into the order, each with a draw of its own (R37: "in an unspecified order"). -/
def placeAll (draw : Nat) : List Landing → List Landing → List Landing
  | [], order => order
  | l :: rest, order => placeAll draw rest (place (Config.landsAt draw rest.length) l order)

/-- The byte the order leaves at an address: that of the access that lands on it last. -/
def lastByte (order : List Landing) (a : Nat) : Option Byte := order.findSome? fun l => l.byteAt a

/-- The four bytes from `ea`, as the order leaves them. -/
def settledCells (ea : Word) (order : List Landing) : List Host.Cell :=
  (List.range 4).filterMap fun k => (lastByte order (ea.toNat + k)).map fun b => (ea.toNat + k, b)

/-- After agent `me` has stored `word` at `ea` in a run with other agents: its accesses take their places in the order, and the
four bytes are left as the order has them. -/
def State.settle (ea word : Word) (t : State) : State :=
  if t.others.isEmpty then t
  else
    let order := placeAll t.draws (storeLandings t.me ea word) t.landings
    { t with mem := t.mem.writeCells (settledCells ea order), landings := order }

/-- What a step does after `exec i` has taken `s` to `t`: the store settles among the agents, and the turn passes. -/
def afterExec (i : Instr) (s t : State) : State :=
  (t.settle ((storeOpOf i).ea s.cpu) ((storeOpOf i).result s).word).nextTurn

end Sys2Proof.Machine
end

