-- ==== Sys2Proof/Machine/Launch.lean ====
section
/-! DEFINITION. The launch of a program (R110 of spec/70_reset_and_hazards.md). -/

namespace Sys2Proof.Machine

/-- Words laid big-endian one after the other, "from the base upward" (R110 (b)). -/
def Memory.placeWords (m : Memory) (addr : Nat) : List Word → Memory
  | [] => m
  | w :: rest => (m.writeWord addr w).placeWords (addr + 4) rest

/-- The configuration with the program `code`, its bytes "admitted for fetch" (R110 (b)). -/
def programConfig (c : Config) (code : Code) : Config :=
  { c with
    regions := if c.admits code.base.toNat (4 * code.words.length) .fetch then c.regions
      else { range := code.range, store := false, fetch := true } :: c.regions
    code := code }

/-- An agent with "no fault and no refusal recorded" (R110 (f)). -/
def Agent.unstopped (a : Agent) : Agent := { a with stop := none }

/-- The program `code` placed in storage, every agent's pc where it is: R110 (b) and (f). No store has been made. -/
def State.load (s : State) (code : Code) : State :=
  { s with
    cfg := programConfig s.cfg code
    cpu := s.cpu.unstopped
    others := s.others.map fun p => (p.1, p.2.unstopped)
    mem := s.mem.placeWords code.base.toNat code.words
    landings := [] }

/-- The launch of the program `code` with the registers, the data, RES and the configuration of `s`, every pc at its default
`CODE.base` (R110 (c)). -/
def State.launch (s : State) (code : Code) : State :=
  let started : State :=
    { s with
      cpu := { s.cpu with pc := code.base }
      others := s.others.map fun p => (p.1, { p.2 with pc := code.base }) }
  started.load code

end Sys2Proof.Machine
end

