-- ==== Sys2Proof/Machine/Step.lean ====
section
/-! DEFINITION. One step of the machine (R70, R8), and the launch of a program of one word. -/

namespace Sys2Proof.Machine

/-- One step of the agent whose turn it is (R70): fetch and decode, then the instruction. An agent with a recorded stop
answers it again (R94); an agent at END has no further step (R115). -/
def step (s : State) : Host.Outcome State Fault Refusal :=
  match s.cpu.stop with
  | some st => stopOutcome st
  | none =>
    if atEnd s.cfg s.cpu then .refused .runCompleted
    else
      match fetch s with
      | .error f => raise f
      | .ok w =>
        match decode w with
        | .rejected _ => .refused (.notDecoded s.cpu.pc w)
        | .ok i =>
          match exec i s with
          | .next t => .next (afterExec i s t)
          | .fault f => .fault f
          | .refused r => .refused r

/-- The one-word program `w` loaded at pc (R110 (b), (f)). -/
def State.withFetchWord (s : State) (nbits w : Nat) : State :=
  s.load { base := s.cpu.pc, words := [BitVec.ofNat 32 (w % 2 ^ nbits)] }

end Sys2Proof.Machine
end

