-- ==== Sys2Proof/Machine/Run.lean ====
section
/-! DEFINITION. A run of the machine (R94, R115): a fault or refusal is recorded for the agent that met it, and the other
agents go on. -/

namespace Sys2Proof.Machine

/-- Record a fault or refusal for the agent whose turn it is: "the fault is recorded in the run and is never cleared"
(R94). The counter moves on, so that the choice of the next agent is a fresh one. -/
def State.recordStop (s : State) (st : Stop) : State :=
  { s with cpu := { s.cpu with stop := some st }, draws := s.draws + 1 }

/-- One move of a run: a step; or, where the step stops, the record of it; the turn passes to an agent that has a further
step. An agent at END is recorded nowhere (R115). -/
def advance (s : State) : State :=
  match step s with
  | .next t => t
  | .fault f => (s.recordStop (.fault f)).nextTurn
  | .refused .runCompleted => s.nextTurn
  | .refused r => (s.recordStop (.refusal r)).nextTurn

/-- `k` moves of a run. -/
def advances : Nat → State → State
  | 0, s => s
  | k + 1, s => advances k (advance s)

end Sys2Proof.Machine
end

