-- ==== Sys2Proof/Safety.lean ====
section
/-! DEFINITION. What counts as a completed run and as a state a launch may give, in the terms claims use. -/

namespace Sys2Proof.Machine

/-- Every agent with its number, the one that moves next first. -/
def State.agents (s : State) : List (Nat × Agent) := (s.me, s.cpu) :: s.others

/-- The registers of the agent of a given number. -/
def State.agent? (s : State) (n : Nat) : Option Agent := (s.agents.find? fun p => p.1 == n).map (·.2)

/-- The run is completed: every agent at END with no fault and no refusal recorded (R115). -/
abbrev State.completed (s : State) : Prop := ∀ p ∈ s.agents, atEnd s.cfg p.2 = true ∧ p.2.stop = none

/-- The four bytes from `addr` hold the word, big-endian. -/
abbrev Memory.holdsWord (m : Memory) (addr : Nat) (w : Word) : Prop := m.readWord addr = some w

/-- The program text is in storage as the launch placed it (R110 (b), R40: "`CODE` is fixed for the whole run"). -/
abbrev State.codeIntact (s : State) : Prop :=
  ∀ k : Nat, (h : k < s.cfg.code.words.length) →
    s.mem.holdsWord (s.cfg.code.base.toNat + 4 * k) s.cfg.code.words[k]

/-- The program text is admitted for fetch from a base that is a multiple of 4 (R110 (b)). -/
structure codeAdmitted (c : Config) : Prop where
  aligned : c.code.base.toNat % 4 = 0
  fetchable : c.admits c.code.base.toNat (4 * c.code.words.length) .fetch = true

/-- A byte holds a value only where it is admitted: "other bytes do not exist" (R19). -/
abbrev State.memAdmitted (s : State) : Prop :=
  ∀ c ∈ s.mem, s.cfg.admitsByte .store c.1 = true ∨ s.cfg.admitsByte .fetch c.1 = true

/-- A launch (R110): the state a run starts from. Its configuration, its registers, its marks and the values of its data are
any. -/
structure State.isLaunch (s : State) : Prop where
  /-- (b): the program at an aligned base, admitted for fetch, and placed in storage. -/
  admitted : codeAdmitted s.cfg
  placed : s.codeIntact
  /-- (d): storage holds admitted bytes, in canonical form. -/
  memWf : s.mem.wf
  memAdmitted : s.memAdmitted
  /-- (e): RES is a set. -/
  resSet : s.res.Nodup
  /-- (f): nothing is recorded. -/
  notStopped : ∀ p ∈ s.agents, p.2.stop = none
  /-- "every agent" (c): the agents are told apart by their numbers, and have vector registers (R1). -/
  distinct : (s.agents.map (·.1)).Nodup
  vectors : ∀ p ∈ s.agents, p.2.vr ≠ []
  /-- No store has been made. -/
  noLandings : s.landings = []

/-- The access is one that R37 gives a store: a whole aligned word, or one byte. -/
abbrev Landing.legal (l : Landing) : Prop :=
  (∃ (addr : Nat) (v : Word), addr % 4 = 0 ∧ l.cells = wordCells addr v) ∨ ∃ c : Host.Cell, l.cells = [c]

/-- The invariant of the machine: storage in canonical form and admitted, the program text admitted and in place, every pc a
multiple of 4 (R12), the agents' numbers distinct, `RES` without repeats (R16: a set), every access legal (R37), within the
space and clear of the program, and storage as the accesses leave it (R38 (c)). -/
structure State.inv (s : State) : Prop where
  memWf : s.mem.wf
  memAdmitted : s.memAdmitted
  admitted : codeAdmitted s.cfg
  code : s.codeIntact
  pcAligned : ∀ p ∈ s.agents, p.2.pc.toNat % 4 = 0
  distinct : (s.agents.map (·.1)).Nodup
  resSet : s.res.Nodup
  legal : ∀ l ∈ s.landings, l.legal
  clear : ∀ l ∈ s.landings, ∀ c ∈ l.cells, c.1 < 2 ^ 32 ∧ s.cfg.code.range.contains c.1 = false
  landed : ∀ l ∈ s.landings, ∀ c ∈ l.cells, s.mem.read c.1 = lastByte s.landings c.1
  /-- With one agent the order is not kept. -/
  alone : s.others = [] → s.landings = []

/-- What must hold for a store of the family to run to completion: R111 (1), (3), (4) with the conditions of R90 that the
address, the platform and pc must not meet. -/
structure StoreReady (op : StoreOp) (s : State) : Prop where
  /-- `MSR.FP = 1`, which only `hw` asks for (R91). -/
  fpEnabled : s.cfg.profile = .hw → s.cpu.msr.fp = true
  /-- RA is not 0 in an update form, which only `hw` asks for (R57). -/
  validForm : s.cfg.profile = .hw → op.updates ≠ some 0
  /-- No register it reads is marked *unwritten* (R19). -/
  written : ∀ r ∈ op.reads, r ∉ s.cpu.unwritten
  /-- The four bytes do not run past the top of the space (R32). -/
  noWrap : (op.ea s.cpu).toNat ≤ 0xFFFFFFFC
  /-- The four bytes are admitted for a store (R36). -/
  admitted : s.cfg.admits (op.ea s.cpu).toNat 4 .store = true
  /-- The four bytes do not meet the program text (R40). -/
  clearOfCode : s.cfg.code.meets (op.ea s.cpu).toNat 4 = false
  /-- Aligned, or on ordinary storage, which only `hw` asks for (R33, R34). -/
  alignedOrOrdinary : s.cfg.profile = .hw →
    (op.ea s.cpu).toNat % 4 = 0 ∨ s.cfg.inhibitsAny (op.ea s.cpu).toNat 4 = false
  /-- pc has a successor (R12). -/
  pcSuccessor : s.cpu.pc ≠ 0xFFFFFFFC

end Sys2Proof.Machine
end

