-- ==== Sys2Proof/Certificates/Slice0/Obligations.lean ====
section
/-! DEFINITION. The statements for the provers, from the numbered rules of spec/. -/

namespace Sys2Proof.Claims

open Sys2Proof.Machine

/-! ### Words the statements share -/

/-- The RA field, as the instruction gives it. -/
def raOf : Instr → RegNum
  | .stfs _ ra _ => ra
  | .stfsu _ ra _ => ra
  | .stfsx _ ra _ => ra
  | .stfsux _ ra _ => ra

/-- The FS field. -/
def fsOf : Instr → RegNum
  | .stfs fs _ _ => fs
  | .stfsu fs _ _ => fs
  | .stfsx fs _ _ => fs
  | .stfsux fs _ _ => fs

/-- The instruction is an update form (glossary of 00_scope.md). -/
def isUpdate : Instr → Bool
  | .stfs _ _ _ => false
  | .stfsu _ _ _ => true
  | .stfsx _ _ _ => false
  | .stfsux _ _ _ => true

/-- The base operand in the agent's registers: the literal zero where R53's RA0 rule says so. -/
def baseOf (a : Agent) : Instr → DWord
  | .stfs _ ra _ => if ra = 0 then 0 else a.readGpr ra
  | .stfsu _ ra _ => a.readGpr ra
  | .stfsx _ ra _ => if ra = 0 then 0 else a.readGpr ra
  | .stfsux _ ra _ => a.readGpr ra

/-- The offset operand, a 64-bit number: `sext_64(d)` or `GPR[RB]` (R79). -/
def offsetOf (a : Agent) : Instr → DWord
  | .stfs _ _ d => BitVec.ofInt 64 d
  | .stfsu _ _ d => BitVec.ofInt 64 d
  | .stfsx _ _ rb => a.readGpr rb
  | .stfsux _ _ rb => a.readGpr rb

/-- `EA = trunc_32(base + offset)` as a number (R79). -/
def eaOf (a : Agent) (i : Instr) : Nat := ((baseOf a i).toNat + (offsetOf a i).toNat) % 2 ^ 32

/-- The registers the instruction reads, in the order of R93 (6). -/
def readsOf : Instr → List RegName
  | .stfs fs ra _ => (if ra = 0 then [] else [.gpr ra]) ++ [.fpr fs]
  | .stfsu fs ra _ => [.gpr ra, .fpr fs]
  | .stfsx fs ra rb => (if ra = 0 then [] else [.gpr ra]) ++ [.gpr rb, .fpr fs]
  | .stfsux fs ra rb => [.gpr ra, .gpr rb, .fpr fs]

/-- What the instruction's conversion returns in this state: `SFD(FPR[FS], FPSCR.RN, FPSCR.NI)`. -/
def sfdOf (s : State) (i : Instr) : SfdResult := convert s.cfg s.draws (s.cpu.readFpr (fsOf i)) s.cpu.fpscr

/-- The agent has a step: nothing is recorded and pc is not END (R94, R115). -/
structure HasStep (s : State) : Prop where
  notStopped : s.cpu.stop = none
  notAtEnd : s.cpu.pc.toNat ≠ s.cfg.code.base.toNat + 4 * s.cfg.code.words.length

/-- Storage after a 4-byte store of `v` at `ea`, byte by byte (R32): the four bytes, most-significant first, and every other
byte as before. -/
structure StoredAt (m m' : Memory) (ea : Nat) (v : Word) : Prop where
  byte0 : m'.read ea = some (v.extractLsb' 24 8)
  byte1 : m'.read (ea + 1) = some (v.extractLsb' 16 8)
  byte2 : m'.read (ea + 2) = some (v.extractLsb' 8 8)
  byte3 : m'.read (ea + 3) = some (v.extractLsb' 0 8)
  others : ∀ a, a < ea ∨ ea + 4 ≤ a → m'.read a = m.read a

/-- The value of a general register after an instruction: RA of an update form receives `zext_64(EA)`, or the 64-bit sum under
`full64`; every other register keeps its value (R79, R18). -/
def gprAfter (s : State) (i : Instr) (j : RegNum) : DWord :=
  if isUpdate i = true ∧ j = raOf i then
    match s.cfg.writeBack with
    | .zext32 => BitVec.ofNat 64 (eaOf s.cpu i)
    | .full64 => baseOf s.cpu i + offsetOf s.cpu i
  else s.cpu.readGpr j

/-- FPSCR's four exception bits after an instruction: OR-ed under `hw` (R73), as before under `xenia_rs` (R74). -/
structure FlagsAfter (s t : State) (r : SfdResult) : Prop where
  hwXx : s.cfg.profile = .hw → t.cpu.fpscr.xx = (s.cpu.fpscr.xx || r.xx)
  hwOx : s.cfg.profile = .hw → t.cpu.fpscr.ox = (s.cpu.fpscr.ox || r.ox)
  hwUx : s.cfg.profile = .hw → t.cpu.fpscr.ux = (s.cpu.fpscr.ux || r.ux)
  hwVxsnan : s.cfg.profile = .hw → t.cpu.fpscr.vxsnan = (s.cpu.fpscr.vxsnan || r.vxsnan)
  xenia : s.cfg.profile = .xeniaRs → t.cpu.fpscr = s.cpu.fpscr

/-- RES after a 4-byte store at `ea` (R39). Under `hw`, and under `xenia_rs` where reservations are enabled, no entry on
`granule(ea)` is left, of any agent; an entry on neither `granule(ea)` nor `granule(ea+3)` stays; one on `granule(ea+3)` alone
may go or stay. Otherwise RES stays as it is. -/
structure KilledAt (s t : State) (ea : Nat) : Prop where
  onGranule : (s.cfg.profile = .hw ∨ s.cfg.reservationsEnabled = true) →
    ∀ e ∈ t.res, e ∈ s.res ∧ e.granule ≠ ea / s.cfg.granule
  elsewhere : (s.cfg.profile = .hw ∨ s.cfg.reservationsEnabled = true) →
    ∀ e ∈ s.res, e.granule ≠ ea / s.cfg.granule → e.granule ≠ (ea + 3) / s.cfg.granule → e ∈ t.res
  disabled : s.cfg.profile = .xeniaRs → s.cfg.reservationsEnabled = false → t.res = s.res

/-- A completed store of the family, as R75 to R78 list its effects. -/
structure Completes (s : State) (i : Instr) (t : State) : Prop where
  answers : exec i s = .next t
  reservations : KilledAt s t (eaOf s.cpu i)
  memory : StoredAt s.mem t.mem (eaOf s.cpu i) (sfdOf s i).word
  flags : FlagsAfter s t (sfdOf s i)
  cr : t.cpu.cr = s.cpu.cr
  xer : t.cpu.xer = s.cpu.xer
  registers : ∀ j, t.cpu.readGpr j = gprAfter s i j
  pc : t.cpu.pc = s.cpu.pc + 4

/-- The exceptions of R75 to R78 in their order; where none holds, the instruction completes. -/
def FaultsInOrder (s : State) (i : Instr) : Prop :=
  let pc := s.cpu.pc
  let hw := s.cfg.profile = .hw
  let ea := eaOf s.cpu i
  if hw ∧ s.cpu.msr.fp = false then exec i s = .fault (.floatingPointUnavailable pc)
  else if hw ∧ isUpdate i = true ∧ raOf i = 0 then exec i s = .fault (.invalidForm pc (encode i))
  else match (readsOf i).find? fun r => decide (r ∈ s.cpu.unwritten) with
  | some r => exec i s = .fault (.unwrittenRegister pc r)
  | none =>
    if 0xFFFFFFFC < ea then exec i s = .fault (.addressWrap pc (BitVec.ofNat 32 ea))
    else if s.cfg.admits ea 4 .store = false then exec i s = .fault (.dataStorage pc (BitVec.ofNat 32 ea))
    else if s.cfg.code.meets ea 4 = true then exec i s = .fault (.storeToCode pc (BitVec.ofNat 32 ea))
    else if hw ∧ ea % 4 ≠ 0 ∧ s.cfg.inhibitsAny ea 4 = true then exec i s = .fault (.alignment pc (BitVec.ofNat 32 ea))
    else if pc = 0xFFFFFFFC then exec i s = .fault (.pcWrap pc)
    else ∃ t, Completes s i t

/-- What a move of a run records for the agent whose turn it is: the fault, or the refusal, its step answers (R94). An agent at
END is recorded nowhere (R115). -/
def StopsWith (s : State) (st : Stop) : Prop :=
  (∃ f, step s = .fault f ∧ st = .fault f) ∨ (∃ r, r ≠ .runCompleted ∧ step s = .refused r ∧ st = .refusal r)

/-- The accesses of a store of `v` at `ea` by agent `n`, as R37 has them: aligned, one of all four bytes; else one of each byte. -/
def accessesOf (n ea : Nat) (v : Word) : List Landing :=
  let c0 : Host.Cell := (ea, v.extractLsb' 24 8)
  let c1 : Host.Cell := (ea + 1, v.extractLsb' 16 8)
  let c2 : Host.Cell := (ea + 2, v.extractLsb' 8 8)
  let c3 : Host.Cell := (ea + 3, v.extractLsb' 0 8)
  if ea % 4 = 0 then [{ agent := n, cells := [c0, c1, c2, c3] }]
  else [{ agent := n, cells := [c0] }, { agent := n, cells := [c1] }, { agent := n, cells := [c2] }, { agent := n, cells := [c3] }]

/-- The accesses of agent `n`, of an order, that land on byte `a`. -/
def ownOn (n a : Nat) (order : List Landing) : List Landing := order.filter fun l => l.agent == n && (l.byteAt a).isSome

/-- The four bytes from `x` are the word `v`, but for bytes that accesses of a single byte have landed on. -/
def WordButForSingleBytes (m : Memory) (order : List Landing) (x : Nat) (v : Word) : Prop :=
  ∀ a, x ≤ a → a < x + 4 → m.read a = Memory.read (wordCells x v) a ∨
    ∃ l ∈ order, ∃ b, l.cells = [(a, b)] ∧ m.read a = some b

/-- RN rounds away from zero: toward the infinity of the value's sign. -/
def RoundsAway (rn : BitVec 2) (x : DWord) : Prop := (rn = 0b10 ∧ sign64 x = false) ∨ (rn = 0b11 ∧ sign64 x = true)

/-- `|x|`, rounded to 24 significant bits with its exponent unbounded, is at least 2^-126 (R72, last paragraph). Just below 2^-126
those bits are 2^-150 apart: to nearest it takes half of that, away from zero any excess over the last of them. -/
def ReachesSmallestNormal (rn : BitVec 2) (x : DWord) : Prop :=
  (rn = 0b00 ∧ units32 0x00800000 ≤ units64 x + 2 ^ 923) ∨
  (RoundsAway rn x ∧ units32 0x00800000 < units64 x + 2 ^ 924) ∨
  units32 0x00800000 ≤ units64 x

/-- `tiny` (R72), in values: below 2^-126, judged before or after rounding. -/
def Tiny (t : Tininess) (rn : BitVec 2) (x : DWord) : Prop :=
  match t with
  | .before => units64 x < units32 0x00800000
  | .after => ¬ReachesSmallestNormal rn x

/-- The contract of R71 on a conversion function, clause by clause. Magnitudes are binary32 patterns without their sign, in
their order; `units32`, `units64` are values in units of 2^-1074; infinity is the pattern 0x7F800000. -/
structure SfdContract (f : DWord → BitVec 2 → Bool → SfdResult) : Prop where
  /-- (a) for a zero, a normal number or an infinity. -/
  exact : ∀ y rn ni, isNan32 y = false → isDenormal32 y = false →
    f (widen y) rn ni = { word := y, xx := false, ox := false, ux := false, vxsnan := false }
  /-- (b) for a denormal, with `ni = 0`. -/
  exactDenormal : ∀ y rn, isDenormal32 y = true →
    f (widen y) rn false = { word := y, xx := false, ox := false, ux := false, vxsnan := false }
  /-- (c) NaN in, quiet NaN out. -/
  quiet : ∀ x rn ni, isNan64 x = true → exp32 (f x rn ni).word = 255 ∧ (f x rn ni).word.getLsbD 22 = true ∧
    (f x rn ni).xx = false ∧ (f x rn ni).ox = false ∧ (f x rn ni).ux = false
  /-- (d) the sign. -/
  sign : ∀ x rn ni, isNan64 x = false → (f x rn ni).word.getLsbD 31 = x.getLsbD 63
  /-- (e) the magnitude is one of two adjacent ones that enclose `|x|`, or zero on a flush. -/
  magnitude : ∀ x rn ni, isNan64 x = false → isInf64 x = false → ∀ lo : Nat, lo < 0x7F800000 →
    units32 lo ≤ units64 x → (lo + 1 = 0x7F800000 ∨ units64 x ≤ units32 (lo + 1)) →
    (mag32 (f x rn ni).word).toNat = lo ∨ (mag32 (f x rn ni).word).toNat = lo + 1 ∨
    (ni = true ∧ units64 x < units32 0x00800000 ∧ (mag32 (f x rn ni).word).toNat = 0)
  /-- (f) when a flag may be 1. -/
  overflow : ∀ x rn ni, (f x rn ni).ox = true →
    isNan64 x = false ∧ isInf64 x = false ∧ units32 0x7F7FFFFF < units64 x
  underflow : ∀ x rn ni, (f x rn ni).ux = true →
    isNan64 x = false ∧ isInf64 x = false ∧ 0 < units64 x ∧ units64 x < units32 0x00800000
  inexact : ∀ x rn ni, (f x rn ni).xx = true → isNan64 x = false ∧ isInf64 x = false ∧
    ((mag32 (f x rn ni).word).toNat = 0x7F800000 ∨ units32 (mag32 (f x rn ni).word).toNat ≠ units64 x)
  signalling : ∀ x rn ni, (f x rn ni).vxsnan = true → isSnan64 x = true

end Sys2Proof.Claims

open Sys2Proof Sys2Proof.Machine Sys2Proof.Claims

/-! ### Encoding -/

/-- Decoding the word, or the bytes, of a well-formed instruction gives the instruction back, with every operand
(30_encoding.md sections 2 and 3). -/
def Obligations.DecodingAnEncodedInstructionGivesItBack : Prop :=
  ∀ (i : Instr) (rest : List Byte), i.wellFormed = true →
    decode (encode i) = .ok i ∧ decodeBytes (encodeBytes i ++ rest) = .ok (i, rest)

/-- A word that decodes is the word of its instruction, which is well formed: no two words are one instruction. -/
def Obligations.EncodingADecodedWordGivesItBack : Prop :=
  ∀ (w : Word) (i : Instr), decode w = .ok i → i.wellFormed = true ∧ encode i = w

/-- R55: the four rows select their words and no others, and a word is the sum of its fields. -/
def Obligations.RowsOfTheOpcodeTableSelectTheInstructions : Prop :=
  (∀ w : Word,
    ((∃ fs ra d, decode w = .ok (.stfs fs ra d)) ↔ w &&& 0xFC000000 = 0xD0000000) ∧
    ((∃ fs ra d, decode w = .ok (.stfsu fs ra d)) ↔ w &&& 0xFC000000 = 0xD4000000) ∧
    ((∃ fs ra rb, decode w = .ok (.stfsx fs ra rb)) ↔ w &&& 0xFC0007FF = 0x7C00052E) ∧
    ((∃ fs ra rb, decode w = .ok (.stfsux fs ra rb)) ↔ w &&& 0xFC0007FF = 0x7C00056E)) ∧
  (∀ (fs ra rb : RegNum) (d : Int),
    (encode (.stfs fs ra d)).toNat = 52 * 2 ^ 26 + fs.toNat * 2 ^ 21 + ra.toNat * 2 ^ 16 + (d % 2 ^ 16).toNat ∧
    (encode (.stfsu fs ra d)).toNat = 53 * 2 ^ 26 + fs.toNat * 2 ^ 21 + ra.toNat * 2 ^ 16 + (d % 2 ^ 16).toNat ∧
    (encode (.stfsx fs ra rb)).toNat =
      31 * 2 ^ 26 + fs.toNat * 2 ^ 21 + ra.toNat * 2 ^ 16 + rb.toNat * 2 ^ 11 + 663 * 2 ∧
    (encode (.stfsux fs ra rb)).toNat =
      31 * 2 ^ 26 + fs.toNat * 2 ^ 21 + ra.toNat * 2 ^ 16 + rb.toNat * 2 ^ 11 + 695 * 2)

/-- R60: the decoding algorithm, with its fields as numbers, total on all words. -/
def Obligations.DecodeFollowsTheAlgorithm : Prop :=
  ∀ w : Word,
    let n := w.toNat
    let fs : RegNum := BitVec.ofNat 5 (n / 2 ^ 21)
    let ra : RegNum := BitVec.ofNat 5 (n / 2 ^ 16)
    let rb : RegNum := BitVec.ofNat 5 (n / 2 ^ 11)
    let d : Int := if n % 2 ^ 16 < 2 ^ 15 then n % 2 ^ 16 else (n % 2 ^ 16 : Int) - 2 ^ 16
    if n / 2 ^ 26 = 52 then decode w = .ok (.stfs fs ra d)
    else if n / 2 ^ 26 = 53 then decode w = .ok (.stfsu fs ra d)
    else if n / 2 ^ 26 = 31 ∧ n / 2 % 2 ^ 10 = 663 ∧ n % 2 = 0 then decode w = .ok (.stfsx fs ra rb)
    else if n / 2 ^ 26 = 31 ∧ n / 2 % 2 ^ 10 = 695 ∧ n % 2 = 0 then decode w = .ok (.stfsux fs ra rb)
    else ∃ why, decode w = .rejected why

/-- R54: the displacement is `w[15:0]`, signed, sign-extended to 64 bits, neither scaled nor shifted. -/
def Obligations.DisplacementIsSignExtended : Prop :=
  ∀ (w : Word) (a : Agent) (fs ra : RegNum) (d : Int),
    decode w = .ok (.stfs fs ra d) ∨ decode w = .ok (.stfsu fs ra d) →
    (OffsetOperand.disp d).value a = (w.extractLsb' 0 16).signExtend 64 ∧ -32768 ≤ d ∧ d ≤ 32767

/-- The examples of R59, decoded. -/
def Obligations.WordsTheSpecWritesOutDecode : Prop :=
  decode 0xD0230008 = .ok (.stfs 1 3 8) ∧ decode 0xD0207FFC = .ok (.stfs 1 0 0x7FFC) ∧
  decode 0xD4230004 = .ok (.stfsu 1 3 4) ∧ decode 0x7C442D2E = .ok (.stfsx 2 4 5) ∧
  decode 0x7C20252E = .ok (.stfsx 1 0 4) ∧ decode 0x7C64356E = .ok (.stfsux 3 4 6)

/-- R56, R58: a word that matches no row, one with Rc = 1 among them, is refused: never executed and never a fault. -/
def Obligations.OtherWordsAreRefused : Prop :=
  ∀ (s : State) (w : Word), HasStep s → fetch s = .ok w →
    (w &&& 0xFC0007FF = 0x7C00052F ∨ w &&& 0xFC0007FF = 0x7C00056F ∨
      (w &&& 0xFC000000 ≠ 0xD0000000 ∧ w &&& 0xFC000000 ≠ 0xD4000000 ∧
       w &&& 0xFC0007FF ≠ 0x7C00052E ∧ w &&& 0xFC0007FF ≠ 0x7C00056E)) →
    step s = .refused (.notDecoded s.cpu.pc w)

/-! ### Fetch and the step -/

/-- R42: fetch is aligned, admitted and big-endian, and faults otherwise. -/
def Obligations.FetchIsAlignedAdmittedAndBigEndian : Prop :=
  ∀ s : State, HasStep s →
    (s.cpu.pc.toNat % 4 ≠ 0 → step s = .fault (.instructionAlignment s.cpu.pc)) ∧
    (s.cpu.pc.toNat % 4 = 0 → s.cfg.admits s.cpu.pc.toNat 4 .fetch = false →
      step s = .fault (.instructionStorage s.cpu.pc)) ∧
    (∀ b0 b1 b2 b3 : Byte, s.cpu.pc.toNat % 4 = 0 → s.cfg.admits s.cpu.pc.toNat 4 .fetch = true →
      s.mem.read s.cpu.pc.toNat = some b0 → s.mem.read (s.cpu.pc.toNat + 1) = some b1 →
      s.mem.read (s.cpu.pc.toNat + 2) = some b2 → s.mem.read (s.cpu.pc.toNat + 3) = some b3 →
      ∃ w : Word, fetch s = .ok w ∧
        w.toNat = b0.toNat * 2 ^ 24 + b1.toNat * 2 ^ 16 + b2.toNat * 2 ^ 8 + b3.toNat)

/-- A step of an agent that has one runs the decoded instruction, and adds what several agents make of its effect. -/
def Obligations.StepRunsTheDecodedInstruction : Prop :=
  ∀ (s : State) (w : Word) (i : Instr), HasStep s → fetch s = .ok w → decode w = .ok i →
    step s = match exec i s with
      | .next t => .next (afterExec i s t)
      | .fault f => .fault f
      | .refused r => .refused r

/-- With one agent, a step is the decoded instruction and nothing more. -/
def Obligations.OneAgentStepsByExecAlone : Prop :=
  ∀ (s : State) (w : Word) (i : Instr), s.others = [] → HasStep s → fetch s = .ok w → decode w = .ok i →
    step s = exec i s

/-- With several agents, a step leaves what exec answers, of the registers of the agent that moved, of RES, of the configuration
and of storage outside the four bytes; and the other agents as they were. The last clause is the model's choice, its own turn (log
19, DESIGN CHOICE): the turn is then with an agent that has a further step (R94, R115), wherever there is one. (What of the four
bytes: StoreTakesItsPlaceInTheOrder.) -/
def Obligations.StepAmongAgentsKeepsWhatExecAnswers : Prop :=
  ∀ (s u : State) (w : Word) (i : Instr), (s.agents.map (·.1)).Nodup → HasStep s → fetch s = .ok w → decode w = .ok i →
    exec i s = .next u → ∃ t, step s = .next t ∧
      t.cfg = u.cfg ∧ t.res = u.res ∧ t.agent? s.me = some u.cpu ∧ (∀ n, n ≠ s.me → t.agent? n = s.agent? n) ∧
      (t.agents.map (·.1)).Perm (s.agents.map (·.1)) ∧
      (∀ a, a < eaOf s.cpu i ∨ eaOf s.cpu i + 4 ≤ a → t.mem.read a = u.mem.read a) ∧
      ((∃ p ∈ t.agents, p.2.stop = none ∧ p.2.pc.toNat ≠ t.cfg.code.base.toNat + 4 * t.cfg.code.words.length) → HasStep t)

/-- The launch of one word (R110 (b); log 2): from any aligned pc, the next step fetches exactly that word. -/
def Obligations.LaunchedWordIsTheNextToRun : Prop :=
  ∀ (s : State) (w : Word), s.cpu.pc.toNat % 4 = 0 →
    HasStep (s.withFetchWord 32 w.toNat) ∧ fetch (s.withFetchWord 32 w.toNat) = .ok w

/-- R110: the launch of a program, of any length, with any registers, data and RES: it is a launch, with the program as `CODE`, the
registers and RES as given, nothing recorded of any agent, every pc at the base, and the data outside the program as given; and
the program's first word is the first to run. -/
def Obligations.LaunchPlacesTheProgram : Prop :=
  ∀ (s : State) (code : Code), s.mem.wf → s.memAdmitted → s.res.Nodup → (s.agents.map (·.1)).Nodup →
    (∀ p ∈ s.agents, p.2.vr ≠ []) →
    code.base.toNat % 4 = 0 → code.base.toNat + 4 * code.words.length ≤ 2 ^ 32 →
    let t := s.launch code
    t.isLaunch ∧ t.cfg.code = code ∧ t.res = s.res ∧
    t.agents = s.agents.map (fun p => (p.1, { p.2 with pc := code.base, stop := none })) ∧
    (∀ k : Nat, (h : k < code.words.length) → t.mem.readWord (code.base.toNat + 4 * k) = some code.words[k]) ∧
    (∀ a, a < code.base.toNat ∨ code.base.toNat + 4 * code.words.length ≤ a → t.mem.read a = s.mem.read a) ∧
    (∀ w ws, code.words = w :: ws → HasStep t ∧ fetch t = .ok w)

/-! ### What each instruction does -/

/-- R75: the word of `stfs`; its effect, wherever it is ready, with no general register written; its exceptions in order. -/
def Obligations.StfsCompletes : Prop :=
  ∀ (s : State) (fs ra : RegNum) (d : Int),
    (encode (.stfs fs ra d)).toNat = 0xD0000000 + fs.toNat * 2 ^ 21 + ra.toNat * 2 ^ 16 + (d % 2 ^ 16).toNat ∧
    (StoreReady (opStfs fs ra d) s → ∃ t, Completes s (.stfs fs ra d) t ∧ t.cpu.gpr = s.cpu.gpr) ∧
    FaultsInOrder s (.stfs fs ra d)

/-- R76: the word of `stfsu`; its effect, wherever it is ready, RA then holding the address and no other register written; its
exceptions in order. -/
def Obligations.StfsuCompletes : Prop :=
  ∀ (s : State) (fs ra : RegNum) (d : Int),
    (encode (.stfsu fs ra d)).toNat = 0xD4000000 + fs.toNat * 2 ^ 21 + ra.toNat * 2 ^ 16 + (d % 2 ^ 16).toNat ∧
    (StoreReady (opStfsu fs ra d) s → ∃ t, Completes s (.stfsu fs ra d) t ∧
      (∀ j, j ≠ ra → t.cpu.readGpr j = s.cpu.readGpr j) ∧
      (s.cfg.writeBack = .zext32 → t.cpu.readGpr ra = BitVec.ofNat 64 (eaOf s.cpu (.stfsu fs ra d)))) ∧
    FaultsInOrder s (.stfsu fs ra d)

/-- R77: the word of `stfsx`; its effect, wherever it is ready, with no general register written; its exceptions in order. -/
def Obligations.StfsxCompletes : Prop :=
  ∀ (s : State) (fs ra rb : RegNum),
    (encode (.stfsx fs ra rb)).toNat = 0x7C00052E + fs.toNat * 2 ^ 21 + ra.toNat * 2 ^ 16 + rb.toNat * 2 ^ 11 ∧
    (StoreReady (opStfsx fs ra rb) s → ∃ t, Completes s (.stfsx fs ra rb) t ∧ t.cpu.gpr = s.cpu.gpr) ∧
    FaultsInOrder s (.stfsx fs ra rb)

/-- R78: the word of `stfsux`; its effect, wherever it is ready, RA = RB included, RA then holding the address and no other
register written; its exceptions in order. -/
def Obligations.StfsuxCompletes : Prop :=
  ∀ (s : State) (fs ra rb : RegNum),
    (encode (.stfsux fs ra rb)).toNat = 0x7C00056E + fs.toNat * 2 ^ 21 + ra.toNat * 2 ^ 16 + rb.toNat * 2 ^ 11 ∧
    (StoreReady (opStfsux fs ra rb) s → ∃ t, Completes s (.stfsux fs ra rb) t ∧
      (∀ j, j ≠ ra → t.cpu.readGpr j = s.cpu.readGpr j) ∧
      (s.cfg.writeBack = .zext32 → t.cpu.readGpr ra = BitVec.ofNat 64 (eaOf s.cpu (.stfsux fs ra rb)))) ∧
    FaultsInOrder s (.stfsux fs ra rb)

/-- An instruction completes exactly where it is ready; it is never refused. -/
def Obligations.StoreCompletesExactlyWhereReady : Prop :=
  ∀ (i : Instr) (s : State),
    ((∃ t, exec i s = .next t) ↔ StoreReady (storeOpOf i) s) ∧ (∀ r, exec i s ≠ .refused r)

/-- R79: the address is the sum of the low halves modulo 2^32, whatever the upper halves hold; the addition sets no flag, and
no operand of it keeps a ready store from completing; an update form writes the address zero-extended, or the 64-bit sum
under `full64`. -/
def Obligations.AddressIsTheSumOfTheLowHalves : Prop :=
  ∀ (i : Instr) (s t : State), (StoreReady (storeOpOf i) s → ∃ t, exec i s = .next t) ∧ (exec i s = .next t →
    let ea := ((baseOf s.cpu i).toNat % 2 ^ 32 + (offsetOf s.cpu i).toNat % 2 ^ 32) % 2 ^ 32
    FlagsAfter s t (sfdOf s i) ∧ t.cpu.xer = s.cpu.xer ∧ t.cpu.cr = s.cpu.cr ∧
    t.mem.readWord ea = some (sfdOf s i).word ∧
    (∀ a, a < ea ∨ ea + 4 ≤ a → t.mem.read a = s.mem.read a) ∧
    (isUpdate i = true → s.cfg.writeBack = .zext32 → (t.cpu.readGpr (raOf i)).toNat = ea) ∧
    (isUpdate i = true → s.cfg.writeBack = .full64 →
      (t.cpu.readGpr (raOf i)).toNat = ((baseOf s.cpu i).toNat + (offsetOf s.cpu i).toNat) % 2 ^ 64))

/-- R32, R31: a completed store leaves its word in the four bytes from EA, most-significant first, and changes no other byte;
it is only made where the four bytes lie in the space and are admitted, and is AddressWrap or DataStorage elsewhere, once the
checks that come before have passed. -/
def Obligations.StoreWritesFourBytesMostSignificantFirst : Prop :=
  (∀ (i : Instr) (s t : State), exec i s = .next t →
    StoredAt s.mem t.mem (eaOf s.cpu i) (sfdOf s i).word ∧ eaOf s.cpu i ≤ 0xFFFFFFFC ∧
    s.cfg.admits (eaOf s.cpu i) 4 .store = true) ∧
  (∀ (i : Instr) (s : State), (s.cfg.profile = .hw → s.cpu.msr.fp = true ∧ ¬(isUpdate i = true ∧ raOf i = 0)) →
    (∀ r ∈ readsOf i, r ∉ s.cpu.unwritten) →
    (0xFFFFFFFC < eaOf s.cpu i → exec i s = .fault (.addressWrap s.cpu.pc (BitVec.ofNat 32 (eaOf s.cpu i)))) ∧
    (eaOf s.cpu i ≤ 0xFFFFFFFC → s.cfg.admits (eaOf s.cpu i) 4 .store = false →
      exec i s = .fault (.dataStorage s.cpu.pc (BitVec.ofNat 32 (eaOf s.cpu i)))))

/-- R35: an instruction performs one storage access, a write of 4 bytes, and reads no data storage: on any other storage it does
the same to everything else, and stores the same word at the same address. -/
def Obligations.NoDataStorageIsRead : Prop :=
  ∀ (i : Instr) (s : State) (m : Memory),
    match exec i s with
    | .next t => ∃ m', StoredAt m m' (eaOf s.cpu i) (sfdOf s i).word ∧
        exec i { s with mem := m } = .next { t with mem := m' }
    | .fault f => exec i { s with mem := m } = .fault f
    | .refused r => exec i { s with mem := m } = .refused r

/-- R12: a completed instruction ends with pc + 4, which from an aligned pc does not pass the top; a misaligned pc faults at
fetch; at 0xFFFFFFFC there is no next state. -/
def Obligations.ProgramCounterAdvancesByFour : Prop :=
  (∀ (i : Instr) (s t : State), exec i s = .next t →
    t.cpu.pc = s.cpu.pc + 4 ∧ (s.cpu.pc.toNat % 4 = 0 → t.cpu.pc.toNat = s.cpu.pc.toNat + 4)) ∧
  (∀ s : State, HasStep s → s.cpu.pc.toNat % 4 ≠ 0 → step s = .fault (.instructionAlignment s.cpu.pc)) ∧
  (∀ (i : Instr) (s : State), s.cpu.pc = 0xFFFFFFFC →
    StoreReady (storeOpOf i) { s with cpu := { s.cpu with pc := 0 } } → exec i s = .fault (.pcWrap s.cpu.pc))

/-- Two instructions of one agent, one after the other (70_reset_and_hazards.md section 3): the second reads the RA the first
wrote; its own bytes are the ones that stay; and outside them the first one's stay. -/
def Obligations.NextInstructionSeesTheOneBefore : Prop :=
  ∀ (i j : Instr) (s t u : State), exec i s = .next t → exec j t = .next u →
    (isUpdate i = true → raOf j = raOf i → isUpdate j = true ∨ raOf j ≠ 0 → s.cfg.writeBack = .zext32 →
      (baseOf t.cpu j).toNat = eaOf s.cpu i) ∧
    u.mem.readWord (eaOf t.cpu j) = some (sfdOf t j).word ∧
    (∀ a, a < eaOf t.cpu j ∨ eaOf t.cpu j + 4 ≤ a → u.mem.read a = t.mem.read a) ∧
    (eaOf s.cpu i + 4 ≤ eaOf t.cpu j ∨ eaOf t.cpu j + 4 ≤ eaOf s.cpu i →
      u.mem.readWord (eaOf s.cpu i) = some (sfdOf s i).word)

/-! ### Frames and what an instruction does not depend on -/

/-- R18: a completed instruction changes four bytes of MEM, RA for update forms, the FPSCR exception bits under `hw`, entries
of RES, and pc, and nothing else (the FPSCR bits outside the named fields: see OtherFpscrBitsChangeOnlyWithAFlag). -/
def Obligations.StoreChangesNothingElse : Prop :=
  ∀ (i : Instr) (s t : State), exec i s = .next t →
    t.cpu.fpr = s.cpu.fpr ∧ (∀ j, ¬(isUpdate i = true ∧ j = raOf i) → t.cpu.readGpr j = s.cpu.readGpr j) ∧
    t.cpu.msr = s.cpu.msr ∧ t.cpu.fpscr.rn = s.cpu.fpscr.rn ∧ t.cpu.fpscr.ni = s.cpu.fpscr.ni ∧
    (s.cfg.profile = .xeniaRs → t.cpu.fpscr = s.cpu.fpscr) ∧
    t.cpu.cr = s.cpu.cr ∧ t.cpu.xer = s.cpu.xer ∧ t.cpu.vr = s.cpu.vr ∧
    t.cpu.unwritten = s.cpu.unwritten ∧ t.cpu.stop = s.cpu.stop ∧
    t.cfg = s.cfg ∧ t.me = s.me ∧ t.others = s.others ∧ t.landings = s.landings ∧ t.res.Sublist s.res ∧
    (∀ a, a < eaOf s.cpu i ∨ eaOf s.cpu i + 4 ≤ a → t.mem.read a = s.mem.read a)

/-- R53's RA0 rule: with RA field 0 the base is the literal zero, and `GPR[0]`, whatever it holds and whether or not it is
marked *unwritten*, plays no part in `stfs`, nor in `stfsx` unless RB is 0. -/
def Obligations.LiteralZeroBaseDoesNotReadR0 : Prop :=
  ∀ (i : Instr) (s : State) (v : DWord) (marks : List RegName),
    (∀ r, r ≠ .gpr 0 → (r ∈ marks ↔ r ∈ s.cpu.unwritten)) →
    (∃ fs d, i = .stfs fs 0 d) ∨ (∃ fs rb, rb ≠ 0 ∧ i = .stfsx fs 0 rb) →
    let s' : State := { s with cpu := { s.cpu with gpr := s.cpu.gpr.set 0 v, unwritten := marks } }
    match exec i s with
    | .next t => ∃ t', exec i s' = .next t' ∧ t'.mem = t.mem ∧ t'.cpu.fpscr = t.cpu.fpscr ∧ t'.res = t.res
    | .fault f => exec i s' = .fault f
    | .refused r => exec i s' = .refused r

/-- R30: the upper 32 bits of the base and index registers do not affect which bytes are written, nor the fault answered. -/
def Obligations.UpperHalvesDoNotReachStorage : Prop :=
  ∀ (i : Instr) (s s' : State) (g : Vector DWord 32),
    s' = { s with cpu := { s.cpu with gpr := g } } →
    (∀ j : RegNum, (s'.cpu.readGpr j).setWidth 32 = (s.cpu.readGpr j).setWidth 32) →
    match exec i s with
    | .next t => ∃ t', exec i s' = .next t' ∧ t'.mem = t.mem ∧ t'.cpu.fpscr = t.cpu.fpscr ∧ t'.res = t.res
    | .fault f => exec i s' = .fault f
    | .refused r => exec i s' = .refused r

/-- Under `xenia_rs` no field of MSR or FPSCR is read or written (R13, R14): other values of them change nothing else. -/
def Obligations.SnapshotIgnoresMsrAndFpscr : Prop :=
  ∀ (i : Instr) (s : State) (m : Msr) (f : Fpscr), s.cfg.profile = .xeniaRs →
    let s' : State := { s with cpu := { s.cpu with msr := m, fpscr := f } }
    match exec i s with
    | .next t => exec i s' = .next { t with cpu := { t.cpu with msr := m, fpscr := f } }
    | .fault e => exec i s' = .fault e
    | .refused r => exec i s' = .refused r

/-! ### Reservations -/

/-- R39: what a completed store does to RES; and no instruction reads RES. -/
def Obligations.StoreKillsTheReservationsOnItsGranule : Prop :=
  ∀ (i : Instr) (s t : State), exec i s = .next t →
    KilledAt s t (eaOf s.cpu i) ∧ ∀ res, ∃ left, exec i { s with res := res } = .next { t with res := left }

/-! ### Faults -/

/-- R93: exactly one outcome is reported, the first in the order given, of a step of an agent that has one. (Where the bytes at pc
hold no value: FetchOfBytesWithoutValueFaults.) -/
def Obligations.OutcomesAreReportedInTheSpecsOrder : Prop :=
  ∀ s : State, HasStep s →
    let pc := s.cpu.pc
    if pc.toNat % 4 ≠ 0 then step s = .fault (.instructionAlignment pc)
    else if s.cfg.admits pc.toNat 4 .fetch = false then step s = .fault (.instructionStorage pc)
    else ∀ w, s.mem.readWord pc.toNat = some w →
      match decode w with
      | .rejected _ => step s = .refused (.notDecoded pc w)
      | .ok i =>
        let hw := s.cfg.profile = .hw
        let ea := eaOf s.cpu i
        if hw ∧ s.cpu.msr.fp = false then step s = .fault (.floatingPointUnavailable pc)
        else if hw ∧ isUpdate i = true ∧ raOf i = 0 then step s = .fault (.invalidForm pc w)
        else match (readsOf i).find? fun r => decide (r ∈ s.cpu.unwritten) with
        | some r => step s = .fault (.unwrittenRegister pc r)
        | none =>
          if 0xFFFFFFFC < ea then step s = .fault (.addressWrap pc (BitVec.ofNat 32 ea))
          else if s.cfg.admits ea 4 .store = false then step s = .fault (.dataStorage pc (BitVec.ofNat 32 ea))
          else if s.cfg.code.meets ea 4 = true then step s = .fault (.storeToCode pc (BitVec.ofNat 32 ea))
          else if hw ∧ ea % 4 ≠ 0 ∧ s.cfg.inhibitsAny ea 4 = true then
            step s = .fault (.alignment pc (BitVec.ofNat 32 ea))
          else if pc = 0xFFFFFFFC then step s = .fault (.pcWrap pc)
          else ∃ t, step s = .next t

/-- The model's choice (log 4): a fetch from an aligned and admitted pc one of whose four bytes holds no value is
InstructionStorage. -/
def Obligations.FetchOfBytesWithoutValueFaults : Prop :=
  ∀ (s : State) (k : Nat), HasStep s → s.cpu.pc.toNat % 4 = 0 → s.cfg.admits s.cpu.pc.toNat 4 .fetch = true →
    k < 4 → s.mem.read (s.cpu.pc.toNat + k) = none → step s = .fault (.instructionStorage s.cpu.pc)

/-- R91: with the floating-point unit disabled, every instruction, with any operands, faults under `hw`; under `xenia_rs` the
exception does not exist. -/
def Obligations.DisabledFloatingPointUnitFaults : Prop :=
  ∀ (i : Instr) (s : State),
    (s.cfg.profile = .hw → s.cpu.msr.fp = false → exec i s = .fault (.floatingPointUnavailable s.cpu.pc)) ∧
    (s.cfg.profile = .xeniaRs → ∀ pc, exec i s ≠ .fault (.floatingPointUnavailable pc))

/-- R57: an update form with RA = 0 is InvalidForm under `hw`, with its own word; under `xenia_rs` it runs with `GPR[0]` as base
and as the register written; RA = RB is no invalid form. -/
def Obligations.InvalidFormsFaultOnHardwareAndRunInTheSnapshot : Prop :=
  (∀ (i : Instr) (s : State), s.cfg.profile = .hw → s.cpu.msr.fp = true → isUpdate i = true → raOf i = 0 →
    exec i s = .fault (.invalidForm s.cpu.pc (encode i))) ∧
  (∀ (i : Instr) (s : State), s.cfg.profile = .xeniaRs → isUpdate i = true → raOf i = 0 →
    StoreReady (storeOpOf i) s → ∃ t, exec i s = .next t ∧
      eaOf s.cpu i = ((s.cpu.readGpr 0).toNat + (offsetOf s.cpu i).toNat) % 2 ^ 32 ∧
      t.mem.readWord (eaOf s.cpu i) = some (sfdOf s i).word ∧
      (s.cfg.writeBack = .zext32 → t.cpu.readGpr 0 = BitVec.ofNat 64 (eaOf s.cpu i))) ∧
  (∀ (fs r : RegNum) (s : State), r ≠ 0 → (∀ pc w, exec (.stfsux fs r r) s ≠ .fault (.invalidForm pc w)) ∧
    (StoreReady (opStfsux fs r r) s → ∃ t, Completes s (.stfsux fs r r) t))

/-- R92, R33: with every other condition met, a store faults Alignment exactly under `hw`, misaligned, and touching a
cache-inhibited byte; any other, misaligned ones on ordinary storage among them, is performed as R75 to R78 say. -/
def Obligations.AlignmentFaultsExactlyOnCacheInhibitedStorage : Prop :=
  ∀ (i : Instr) (s : State),
    StoreReady (storeOpOf i) { s with cfg := { s.cfg with cacheInhibited := [] } } →
    let ea := eaOf s.cpu i
    let touches := ∃ k : Nat, k < 4 ∧ ∃ r ∈ s.cfg.cacheInhibited, r.base ≤ ea + k ∧ ea + k < r.base + r.size
    (s.cfg.profile = .hw ∧ ea % 4 ≠ 0 ∧ touches → exec i s = .fault (.alignment s.cpu.pc (BitVec.ofNat 32 ea))) ∧
    (¬(s.cfg.profile = .hw ∧ ea % 4 ≠ 0 ∧ touches) → ∃ t, Completes s i t)

/-- R40: a store that meets the program text faults, and no step changes the text or the words of it in storage. -/
def Obligations.ProgramTextIsFixed : Prop :=
  (∀ (i : Instr) (s : State),
    StoreReady (storeOpOf i) { s with cfg := { s.cfg with code := { s.cfg.code with words := [] } } } →
    (∃ k : Nat, k < 4 ∧ s.cfg.code.base.toNat ≤ eaOf s.cpu i + k ∧
      eaOf s.cpu i + k < s.cfg.code.base.toNat + 4 * s.cfg.code.words.length) →
    exec i s = .fault (.storeToCode s.cpu.pc (BitVec.ofNat 32 (eaOf s.cpu i)))) ∧
  (∀ s t : State, s.inv → step s = .next t → t.cfg.code = s.cfg.code ∧ t.codeIntact)

/-- R95: a fault or a refusal changes no architectural state: after it, storage, RES and every agent's registers are as before,
and only the record of it is new (R94). -/
def Obligations.FaultChangesNoArchitecturalState : Prop :=
  ∀ (s : State) (st : Stop), (s.agents.map (·.1)).Nodup → StopsWith s st →
    let t := advance s
    t.mem = s.mem ∧ t.res = s.res ∧ t.cfg = s.cfg ∧ t.landings = s.landings ∧
    (∀ n, n ≠ s.me → t.agent? n = s.agent? n) ∧
    t.agent? s.me = some { s.cpu with stop := some st }

/-- R94: a fault or a refusal is terminal for its agent: it is recorded, each under its own kind, with the state as before; no
further move of the run changes the agent or clears the record; and the run is never completed. -/
def Obligations.RecordedStopIsNeverCleared : Prop :=
  (∀ (s : State) (st : Stop), (s.agents.map (·.1)).Nodup → StopsWith s st →
    (advance s).agent? s.me = some { s.cpu with stop := some st }) ∧
  (∀ (k : Nat) (s : State) (n : Nat) (a : Agent), (s.agents.map (·.1)).Nodup → s.agent? n = some a → a.stop ≠ none →
    (advances k s).agent? n = some a ∧ ¬(advances k s).completed)

/-- R115: a run is completed when every agent is at END with nothing recorded; an agent there has no further step, and a move
changes no agent and nothing shared; a completed run stays as it is; and one that contains a fault or a refusal is not
completed. -/
def Obligations.CompletedRunHasNoFurtherStep : Prop :=
  (∀ s : State, s.completed ↔
    ∀ p ∈ s.agents, p.2.pc.toNat = s.cfg.code.base.toNat + 4 * s.cfg.code.words.length ∧ p.2.stop = none) ∧
  (∀ s : State, s.cpu.stop = none → s.cpu.pc.toNat = s.cfg.code.base.toNat + 4 * s.cfg.code.words.length →
    (∀ t, step s ≠ .next t) ∧ (∀ f, step s ≠ .fault f) ∧
    (advance s).agents.Perm s.agents ∧ (advance s).mem = s.mem ∧ (advance s).res = s.res) ∧
  (∀ (k : Nat) (s : State), s.completed → advances k s = s) ∧
  (∀ s : State, (∃ p ∈ s.agents, p.2.stop ≠ none) → ¬s.completed)

/-- The model's choice (log 23): what the interface answers for an agent at END with nothing recorded, which has no further step,
is runCompleted; and no other step answers it. -/
def Obligations.AgentAtEndAnswersRunCompleted : Prop :=
  ∀ s : State, s.cpu.stop ≠ some (.refusal .runCompleted) →
    (step s = .refused .runCompleted ↔
      s.cpu.stop = none ∧ s.cpu.pc.toNat = s.cfg.code.base.toNat + 4 * s.cfg.code.words.length)

/-! ### The flags -/

/-- R73: under `hw` the four flags of the conversion are OR-ed into FPSCR, RN and NI stay, a bit that is 1 stays 1, and the
rounded word is stored whatever flags are raised. -/
def Obligations.FlagsAreOredIntoFpscr : Prop :=
  ∀ (i : Instr) (s t : State), s.cfg.profile = .hw → exec i s = .next t →
    let r := convert s.cfg s.draws (s.cpu.readFpr (fsOf i)) s.cpu.fpscr
    t.cpu.fpscr.xx = (s.cpu.fpscr.xx || r.xx) ∧ t.cpu.fpscr.ox = (s.cpu.fpscr.ox || r.ox) ∧
    t.cpu.fpscr.ux = (s.cpu.fpscr.ux || r.ux) ∧ t.cpu.fpscr.vxsnan = (s.cpu.fpscr.vxsnan || r.vxsnan) ∧
    t.cpu.fpscr.rn = s.cpu.fpscr.rn ∧ t.cpu.fpscr.ni = s.cpu.fpscr.ni ∧
    t.mem.readWord (eaOf s.cpu i) = some r.word

/-- The FPSCR bits outside the six named fields (R14): a store that raises no flag leaves them, and FPSCR whole, unchanged.
What they are after a flag is a free value of the model (log 11). -/
def Obligations.OtherFpscrBitsChangeOnlyWithAFlag : Prop :=
  ∀ (i : Instr) (s t : State), exec i s = .next t →
    (sfdOf s i).xx = false → (sfdOf s i).ox = false → (sfdOf s i).ux = false → (sfdOf s i).vxsnan = false →
    t.cpu.fpscr = s.cpu.fpscr

/-! ### The conversion -/

/-- R71: every conversion a configuration can name meets the contract: both instances, under every setting of TININESS and
NAN_PAYLOAD, and the uninterpreted function. -/
def Obligations.EveryConversionMeetsTheContract : Prop :=
  ∀ (c : Config) (draw : Nat) (f : Fpscr),
    SfdContract fun x rn ni => convert c draw x { f with rn := rn, ni := ni }

/-- R74: under `xenia_rs` the word is that of `SFD_ieee(x, 0b00, 0)` for every RN and NI, whichever way tininess is judged, and
no flag is returned. -/
def Obligations.SnapshotRoundsToNearestEven : Prop :=
  ∀ (c : Config) (draw : Nat) (x : DWord) (f : Fpscr) (t : Tininess), c.profile = .xeniaRs → c.sfd = .ofProfile →
    convert c draw x f =
      { word := (sfdIeee t (drawnNan c draw) x 0b00 false).word, xx := false, ox := false, ux := false, vxsnan := false }

/-- A value that is exactly a binary32 value is stored exactly, with no flag, under every configuration; a denormal where NI is
0 or the profile is `xenia_rs` (R71 (a), (b); R111 (2)). -/
def Obligations.ExactValuesAreStoredExactly : Prop :=
  ∀ (i : Instr) (s t : State) (y : Word), exec i s = .next t → s.cpu.readFpr (fsOf i) = widen y →
    isNan32 y = false → (isDenormal32 y = true → s.cpu.fpscr.ni = false ∨ s.cfg.profile = .xeniaRs) →
    t.mem.readWord (eaOf s.cpu i) = some y ∧ t.cpu.fpscr = s.cpu.fpscr

/-- A NaN is stored quiet; of the flags only VXSNAN can be raised, and with `SFD_ieee` it is raised exactly for a signalling
one (R71 (c), R72). Under `preserve` the sign and the high fraction bits stay (D5). -/
def Obligations.NanIsStoredQuiet : Prop :=
  ∀ (i : Instr) (s t : State), exec i s = .next t → isNan64 (s.cpu.readFpr (fsOf i)) = true → s.cfg.profile = .hw →
    s.cfg.sfd = .ofProfile →
    let x := s.cpu.readFpr (fsOf i)
    ∃ v : Word, t.mem.readWord (eaOf s.cpu i) = some v ∧ exp32 v = 255 ∧ v.getLsbD 22 = true ∧
      (s.cfg.nanPayload = .preserve → v.getLsbD 31 = x.getLsbD 63 ∧ v.extractLsb' 0 22 = x.extractLsb' 29 22) ∧
      t.cpu.fpscr.vxsnan = (s.cpu.fpscr.vxsnan || !x.getLsbD 51) ∧
      t.cpu.fpscr.xx = s.cpu.fpscr.xx ∧ t.cpu.fpscr.ox = s.cpu.fpscr.ox ∧ t.cpu.fpscr.ux = s.cpu.fpscr.ux

/-- `SFD_ieee` with RN = 00 (R72), for every finite value that is not flushed (NI = 0, or not tiny): the word is a nearest binary32
value, and the even one at a tie; infinity counts as 2^128. -/
def Obligations.RoundsToNearestEven : Prop :=
  ∀ (t : Tininess) (nan : Option (BitVec 23)) (x : DWord) (ni : Bool), isNan64 x = false → isInf64 x = false →
    (ni = true → ¬Tiny t 0b00 x) →
    let p := (mag32 (sfdIeee t nan x 0b00 ni).word).toNat
    p ≤ 0x7F800000 ∧
    (p < 0x7F800000 → 2 * units64 x ≤ units32 p + units32 (p + 1)) ∧
    (0 < p → units32 (p - 1) + units32 p ≤ 2 * units64 x) ∧
    (p < 0x7F800000 → 2 * units64 x = units32 p + units32 (p + 1) → p % 2 = 0) ∧
    (0 < p → 2 * units64 x = units32 (p - 1) + units32 p → p % 2 = 0)

/-- `SFD_ieee` in the directed modes (R72), for every finite value that is not flushed (NI = 0, or not tiny): RN = 01, and RN = 10 or
11 against the sign, give the largest finite magnitude not above `|x|`; RN = 10 or 11 along the sign give the smallest not below,
infinity included. -/
def Obligations.DirectedModesRoundTowardTheirDirection : Prop :=
  ∀ (t : Tininess) (nan : Option (BitVec 23)) (x : DWord) (rn : BitVec 2) (ni : Bool), isNan64 x = false → isInf64 x = false →
    (ni = true → ¬Tiny t rn x) →
    let p := (mag32 (sfdIeee t nan x rn ni).word).toNat
    (rn ≠ 0b00 → ¬RoundsAway rn x →
      p ≤ 0x7F7FFFFF ∧ units32 p ≤ units64 x ∧ (p = 0x7F7FFFFF ∨ units64 x < units32 (p + 1))) ∧
    (RoundsAway rn x → p ≤ 0x7F800000 ∧ (p = 0x7F800000 ∨ units64 x ≤ units32 p) ∧ (p = 0 ∨ units32 (p - 1) < units64 x))

/-- The flags of `SFD_ieee` on a finite value, for every RN, NI and TININESS (R72): XX exactly where the word's value differs; UX
exactly where it does and the value is tiny; OX exactly where the word is infinite or `|x|` is 2^128 or more, whatever RN makes
of it; and never VXSNAN. -/
def Obligations.FlagsTellHowTheWordDiffers : Prop :=
  ∀ (t : Tininess) (nan : Option (BitVec 23)) (x : DWord) (rn : BitVec 2) (ni : Bool), isNan64 x = false → isInf64 x = false →
    let r := sfdIeee t nan x rn ni
    let p := (mag32 r.word).toNat
    (r.xx = true ↔ p = 0x7F800000 ∨ units32 p ≠ units64 x) ∧
    (r.ux = true ↔ Tiny t rn x ∧ units32 p ≠ units64 x) ∧
    (r.ox = true ↔ p = 0x7F800000 ∨ units32 0x7F800000 ≤ units64 x) ∧
    (r.ox = true → units32 0x7F7FFFFF < units64 x) ∧ r.vxsnan = false

/-- `NI = 1` (R72, D4): a nonzero tiny value, judged before or after rounding, is stored as a zero of its sign, with XX and UX. -/
def Obligations.NonIeeeModeFlushesTinyValues : Prop :=
  ∀ (t : Tininess) (nan : Option (BitVec 23)) (x : DWord) (rn : BitVec 2), isNan64 x = false → isInf64 x = false →
    0 < units64 x → Tiny t rn x →
    sfdIeee t nan x rn true =
      { word := pack32 (x.getLsbD 63) 0, xx := true, ox := false, ux := true, vxsnan := false }

/-- `TININESS = after` (R72, last paragraph): for a value below 2^-126 whose rounding reaches 2^-126 the result is the smallest
normal number of its sign, with XX and without UX, under either NI; every other value gives what it gives under `before`; and
under NI = 0 the word is the same for every value. -/
def Obligations.TininessAfterDiffersOnlyWhereRoundingReachesTheSmallestNormal : Prop :=
  ∀ (nan : Option (BitVec 23)) (x : DWord) (rn : BitVec 2) (ni : Bool),
    (units64 x < units32 0x00800000 → ReachesSmallestNormal rn x →
      sfdIeee .after nan x rn ni =
        { word := pack32 (x.getLsbD 63) 0x00800000, xx := true, ox := false, ux := false, vxsnan := false }) ∧
    (¬(units64 x < units32 0x00800000 ∧ ReachesSmallestNormal rn x) →
      sfdIeee .after nan x rn ni = sfdIeee .before nan x rn ni) ∧
    (sfdIeee .after nan x rn false).word = (sfdIeee .before nan x rn false).word

/-! ### Invariants and runs -/

/-- Every step keeps the invariant: storage in canonical form and admitted, the program text admitted and in place, every pc a
multiple of 4, the agents' numbers distinct, RES a set, every access legal and clear of the text, and storage as the accesses
leave it. -/
def Obligations.EveryStepKeepsTheInvariant : Prop :=
  ∀ s t : State, s.inv → step s = .next t → t.inv

/-- Every move of a run keeps the invariant, the record of a stop among them. -/
def Obligations.EveryRunKeepsTheInvariant : Prop :=
  ∀ (k : Nat) (s : State), s.inv → (advances k s).inv

/-- A launch whose agents start at multiples of 4, as the default `CODE.base` is, meets the invariant. -/
def Obligations.LaunchMeetsTheInvariant : Prop :=
  ∀ s : State, s.isLaunch → (∀ p ∈ s.agents, p.2.pc.toNat % 4 = 0) → s.inv

/-- The invariant holds at reset. -/
def Obligations.ResetMeetsTheInvariant : Prop := State.reset.inv

/-- A run changes no configuration and, of no agent, MSR, RN, NI, an FPR, CR, XER or a VR; a flag that is 1 stays 1; and no
agent goes or comes (R98: "nothing in scope changes it"; R18). -/
def Obligations.RunLeavesControlStateAlone : Prop :=
  ∀ (k : Nat) (s : State) (n : Nat) (a : Agent), (s.agents.map (·.1)).Nodup → s.agent? n = some a →
    (advances k s).cfg = s.cfg ∧ ((advances k s).agents.map (·.1)).Perm (s.agents.map (·.1)) ∧
    ∃ b, (advances k s).agent? n = some b ∧ b.msr = a.msr ∧ b.fpr = a.fpr ∧ b.cr = a.cr ∧ b.xer = a.xer ∧ b.vr = a.vr ∧
      b.fpscr.rn = a.fpscr.rn ∧ b.fpscr.ni = a.fpscr.ni ∧ (a.fpscr.xx = true → b.fpscr.xx = true) ∧
      (a.fpscr.ox = true → b.fpscr.ox = true) ∧ (a.fpscr.ux = true → b.fpscr.ux = true) ∧
      (a.fpscr.vxsnan = true → b.fpscr.vxsnan = true)

/-- R97: "nothing but the agent's own instruction changes that agent's registers": neither a step of another agent nor any other
move of the run does. -/
def Obligations.StepLeavesOtherAgentsAlone : Prop :=
  ∀ s : State, (s.agents.map (·.1)).Nodup → ∀ n, n ≠ s.me →
    (∀ t, step s = .next t → t.agent? n = s.agent? n) ∧ (advance s).agent? n = s.agent? n

/-- With several agents, a store takes its place in the order in which the accesses land (the model's form of R37 and R38, log
20): its accesses are those of R37; what is there keeps its order; of the agent's own accesses to a byte the new one lands last
(R38 (a)); and each of the four bytes is left by the access that lands on it last. -/
def Obligations.StoreTakesItsPlaceInTheOrder : Prop :=
  ∀ (s t : State) (w : Word) (i : Instr), s.others ≠ [] → fetch s = .ok w → decode w = .ok i → step s = .next t →
    let new := accessesOf s.me (eaOf s.cpu i) (sfdOf s i).word
    t.landings.Perm (new ++ s.landings) ∧ s.landings.Sublist t.landings ∧
    t.landings.filter (fun l => l.agent != s.me) = s.landings.filter (fun l => l.agent != s.me) ∧
    (∀ a, ownOn s.me a t.landings = ownOn s.me a new ++ ownOn s.me a s.landings) ∧
    (∀ a, eaOf s.cpu i ≤ a → a < eaOf s.cpu i + 4 →
      ∃ pre l post, t.landings = pre ++ l :: post ∧ (∀ o ∈ pre, o.byteAt a = none) ∧
        (l.byteAt a).isSome ∧ t.mem.read a = l.byteAt a)

/-- After a step of an agent, each of the four bytes from EA holds that agent's byte or one that another agent stored there, and
every other byte is as before (R38 (c), through the model's order of accesses, log 20). -/
def Obligations.SharedBytesHoldOneOfTheStores : Prop :=
  ∀ (s t : State) (w : Word) (i : Instr), fetch s = .ok w → decode w = .ok i → step s = .next t →
    ∀ a, (a < eaOf s.cpu i ∨ eaOf s.cpu i + 4 ≤ a → t.mem.read a = s.mem.read a) ∧
      (eaOf s.cpu i ≤ a → a < eaOf s.cpu i + 4 →
        t.mem.read a = (s.mem.writeWord (eaOf s.cpu i) (sfdOf s i).word).read a ∨
        ∃ l ∈ s.landings, l.agent ≠ s.me ∧ ∃ b, l.byteAt a = some b ∧ t.mem.read a = some b)

/-- An aligned store is one atomic access (R37, through the model's order of accesses, log 20), from any state of the invariant.
After any run, the four bytes of an aligned word that was ever stored are one such word, but for bytes that misaligned stores
left: never a mixture of two aligned stores. And right after an aligned store that word is its own or another agent's. -/
def Obligations.AlignedStoresAreAtomic : Prop :=
  (∀ (k : Nat) (s : State), s.inv → let t := advances k s
    ∀ (x : Nat) (l : Landing) (v : Word), x % 4 = 0 → l ∈ t.landings → l.cells = wordCells x v →
      ∃ l' ∈ t.landings, ∃ v', l'.cells = wordCells x v' ∧ WordButForSingleBytes t.mem t.landings x v') ∧
  (∀ (s t : State) (w : Word) (i : Instr), s.inv → fetch s = .ok w → decode w = .ok i → step s = .next t →
    eaOf s.cpu i % 4 = 0 → ∃ v, WordButForSingleBytes t.mem s.landings (eaOf s.cpu i) v ∧
      (v = (sfdOf s i).word ∨ ∃ l ∈ s.landings, l.agent ≠ s.me ∧ l.cells = wordCells (eaOf s.cpu i) v))

/-- What reset leaves, of which the spec gives only the defaults of a launch: `PROFILE = hw`, `TININESS = before`,
`NAN_PAYLOAD = preserve`, `UPDATE_WRITEBACK = zext32`, `CacheInhibited` nowhere, `RESERVATIONS_ENABLED` (R5), `pc = CODE.base`
and an empty RES (R19), nothing recorded (R110 (f)); the rest is the model's (log 1, 2, 3, 4, 5, 17, 19, 24,
29). -/
def Obligations.ResetIsALaunchWithTheDefaults : Prop :=
  let s := State.reset
  s.isLaunch ∧ s.cfg.profile = .hw ∧ s.cfg.tininess = .before ∧ s.cfg.nanPayload = .preserve ∧ s.cfg.writeBack = .zext32 ∧
  s.cfg.cacheInhibited = [] ∧ s.cfg.reservationsEnabled = true ∧ s.cpu.pc = s.cfg.code.base ∧ s.res = [] ∧
  s.cpu.stop = none ∧ s.mem = [] ∧ s.others = []
end

