-- ==== Sys2Proof/Laws/State.lean ====
section
/-! SUPPORT. One lemma per field and update of the state, each true by unfolding the update once. -/

namespace Sys2Proof.Laws

open Sys2Proof.Machine

/-! ### Writing a general register -/

@[simp] theorem writeGpr_pc (a : Agent) (i : RegNum) (v : DWord) :
    (a.writeGpr i v).pc = a.pc := rfl

@[simp] theorem writeGpr_gpr (a : Agent) (i : RegNum) (v : DWord) :
    (a.writeGpr i v).gpr = a.gpr.set i.toNat v i.isLt := rfl

@[simp] theorem writeGpr_fpr (a : Agent) (i : RegNum) (v : DWord) :
    (a.writeGpr i v).fpr = a.fpr := rfl

@[simp] theorem writeGpr_unwritten (a : Agent) (i : RegNum) (v : DWord) :
    (a.writeGpr i v).unwritten = a.unwritten.filter (· ≠ .gpr i) := rfl

@[simp] theorem writeGpr_msr (a : Agent) (i : RegNum) (v : DWord) :
    (a.writeGpr i v).msr = a.msr := rfl

@[simp] theorem writeGpr_fpscr (a : Agent) (i : RegNum) (v : DWord) :
    (a.writeGpr i v).fpscr = a.fpscr := rfl

@[simp] theorem writeGpr_cr (a : Agent) (i : RegNum) (v : DWord) :
    (a.writeGpr i v).cr = a.cr := rfl

@[simp] theorem writeGpr_xer (a : Agent) (i : RegNum) (v : DWord) :
    (a.writeGpr i v).xer = a.xer := rfl

@[simp] theorem writeGpr_vr (a : Agent) (i : RegNum) (v : DWord) :
    (a.writeGpr i v).vr = a.vr := rfl

@[simp] theorem writeGpr_stop (a : Agent) (i : RegNum) (v : DWord) :
    (a.writeGpr i v).stop = a.stop := rfl

/-! ### The write of RA -/

@[simp] theorem writeBack_pc (op : StoreOp) (c : Config) (a : Agent) :
    (op.writeBack c a).pc = a.pc := by
  unfold StoreOp.writeBack; split <;> rfl

@[simp] theorem writeBack_fpr (op : StoreOp) (c : Config) (a : Agent) :
    (op.writeBack c a).fpr = a.fpr := by
  unfold StoreOp.writeBack; split <;> rfl

@[simp] theorem writeBack_msr (op : StoreOp) (c : Config) (a : Agent) :
    (op.writeBack c a).msr = a.msr := by
  unfold StoreOp.writeBack; split <;> rfl

@[simp] theorem writeBack_fpscr (op : StoreOp) (c : Config) (a : Agent) :
    (op.writeBack c a).fpscr = a.fpscr := by
  unfold StoreOp.writeBack; split <;> rfl

@[simp] theorem writeBack_cr (op : StoreOp) (c : Config) (a : Agent) :
    (op.writeBack c a).cr = a.cr := by
  unfold StoreOp.writeBack; split <;> rfl

@[simp] theorem writeBack_xer (op : StoreOp) (c : Config) (a : Agent) :
    (op.writeBack c a).xer = a.xer := by
  unfold StoreOp.writeBack; split <;> rfl

@[simp] theorem writeBack_vr (op : StoreOp) (c : Config) (a : Agent) :
    (op.writeBack c a).vr = a.vr := by
  unfold StoreOp.writeBack; split <;> rfl

@[simp] theorem writeBack_stop (op : StoreOp) (c : Config) (a : Agent) :
    (op.writeBack c a).stop = a.stop := by
  unfold StoreOp.writeBack; split <;> rfl

/-! ### Raising flags -/

@[simp] theorem raiseFlags_rn (f : Fpscr) (n : Nat) (r : SfdResult) :
    (f.raiseFlags n r).rn = f.rn := rfl

@[simp] theorem raiseFlags_ni (f : Fpscr) (n : Nat) (r : SfdResult) :
    (f.raiseFlags n r).ni = f.ni := rfl

@[simp] theorem raiseFlags_xx (f : Fpscr) (n : Nat) (r : SfdResult) :
    (f.raiseFlags n r).xx = (f.xx || r.xx) := rfl

@[simp] theorem raiseFlags_ox (f : Fpscr) (n : Nat) (r : SfdResult) :
    (f.raiseFlags n r).ox = (f.ox || r.ox) := rfl

@[simp] theorem raiseFlags_ux (f : Fpscr) (n : Nat) (r : SfdResult) :
    (f.raiseFlags n r).ux = (f.ux || r.ux) := rfl

@[simp] theorem raiseFlags_vxsnan (f : Fpscr) (n : Nat) (r : SfdResult) :
    (f.raiseFlags n r).vxsnan = (f.vxsnan || r.vxsnan) := rfl

@[simp] theorem raiseFlags_other (f : Fpscr) (n : Nat) (r : SfdResult) :
    (f.raiseFlags n r).other = if raisesFlag r then Config.fpscrDraw n else f.other := rfl

@[simp] theorem afterStore_hw (f : Fpscr) (n : Nat) (r : SfdResult) :
    f.afterStore .hw n r = f.raiseFlags n r := rfl

@[simp] theorem afterStore_xeniaRs (f : Fpscr) (n : Nat) (r : SfdResult) :
    f.afterStore .xeniaRs n r = f := rfl

@[simp] theorem afterStore_rn (p : Profile) (f : Fpscr) (n : Nat) (r : SfdResult) :
    (f.afterStore p n r).rn = f.rn := by cases p <;> rfl

@[simp] theorem afterStore_ni (p : Profile) (f : Fpscr) (n : Nat) (r : SfdResult) :
    (f.afterStore p n r).ni = f.ni := by cases p <;> rfl

/-! ### The commit of a store -/

@[simp] theorem commitStore_cfg (op : StoreOp) (s : State) :
    (commitStore op s).cfg = s.cfg := rfl

@[simp] theorem commitStore_me (op : StoreOp) (s : State) :
    (commitStore op s).me = s.me := rfl

@[simp] theorem commitStore_others (op : StoreOp) (s : State) :
    (commitStore op s).others = s.others := rfl

@[simp] theorem commitStore_landings (op : StoreOp) (s : State) :
    (commitStore op s).landings = s.landings := rfl

@[simp] theorem commitStore_mem (op : StoreOp) (s : State) :
    (commitStore op s).mem = s.mem.writeWord (op.ea s.cpu).toNat (op.result s).word := rfl

@[simp] theorem commitStore_res (op : StoreOp) (s : State) :
    (commitStore op s).res = killReservations s.cfg s.draws (op.ea s.cpu).toNat s.res := rfl

@[simp] theorem commitStore_draws (op : StoreOp) (s : State) :
    (commitStore op s).draws = s.draws + 1 := rfl

@[simp] theorem commitStore_pc (op : StoreOp) (s : State) :
    (commitStore op s).cpu.pc = s.cpu.pc + 4 := rfl

@[simp] theorem commitStore_fpscr (op : StoreOp) (s : State) :
    (commitStore op s).cpu.fpscr = s.cpu.fpscr.afterStore s.cfg.profile s.draws (op.result s) := rfl

@[simp] theorem commitStore_gpr (op : StoreOp) (s : State) :
    (commitStore op s).cpu.gpr = (op.writeBack s.cfg s.cpu).gpr := rfl

@[simp] theorem commitStore_unwritten (op : StoreOp) (s : State) :
    (commitStore op s).cpu.unwritten = (op.writeBack s.cfg s.cpu).unwritten := rfl

@[simp] theorem commitStore_fpr (op : StoreOp) (s : State) :
    (commitStore op s).cpu.fpr = s.cpu.fpr := writeBack_fpr op s.cfg s.cpu

@[simp] theorem commitStore_msr (op : StoreOp) (s : State) :
    (commitStore op s).cpu.msr = s.cpu.msr := writeBack_msr op s.cfg s.cpu

@[simp] theorem commitStore_cr (op : StoreOp) (s : State) :
    (commitStore op s).cpu.cr = s.cpu.cr := writeBack_cr op s.cfg s.cpu

@[simp] theorem commitStore_xer (op : StoreOp) (s : State) :
    (commitStore op s).cpu.xer = s.cpu.xer := writeBack_xer op s.cfg s.cpu

@[simp] theorem commitStore_vr (op : StoreOp) (s : State) :
    (commitStore op s).cpu.vr = s.cpu.vr := writeBack_vr op s.cfg s.cpu

@[simp] theorem commitStore_stop (op : StoreOp) (s : State) :
    (commitStore op s).cpu.stop = s.cpu.stop := writeBack_stop op s.cfg s.cpu

/-! ### Settling, the turn, the record of a stop -/

@[simp] theorem settle_cfg (ea word : Word) (t : State) :
    (t.settle ea word).cfg = t.cfg := by
  unfold State.settle; split <;> rfl

@[simp] theorem settle_me (ea word : Word) (t : State) :
    (t.settle ea word).me = t.me := by
  unfold State.settle; split <;> rfl

@[simp] theorem settle_cpu (ea word : Word) (t : State) :
    (t.settle ea word).cpu = t.cpu := by
  unfold State.settle; split <;> rfl

@[simp] theorem settle_others (ea word : Word) (t : State) :
    (t.settle ea word).others = t.others := by
  unfold State.settle; split <;> rfl

@[simp] theorem settle_res (ea word : Word) (t : State) :
    (t.settle ea word).res = t.res := by
  unfold State.settle; split <;> rfl

@[simp] theorem settle_draws (ea word : Word) (t : State) :
    (t.settle ea word).draws = t.draws := by
  unfold State.settle; split <;> rfl

@[simp] theorem giveTurn_cfg (s : State) (k : Nat) :
    (s.giveTurn k).cfg = s.cfg := by
  unfold State.giveTurn; split <;> rfl

@[simp] theorem giveTurn_mem (s : State) (k : Nat) :
    (s.giveTurn k).mem = s.mem := by
  unfold State.giveTurn; split <;> rfl

@[simp] theorem giveTurn_res (s : State) (k : Nat) :
    (s.giveTurn k).res = s.res := by
  unfold State.giveTurn; split <;> rfl

@[simp] theorem giveTurn_landings (s : State) (k : Nat) :
    (s.giveTurn k).landings = s.landings := by
  unfold State.giveTurn; split <;> rfl

@[simp] theorem giveTurn_draws (s : State) (k : Nat) :
    (s.giveTurn k).draws = s.draws := by
  unfold State.giveTurn; split <;> rfl

@[simp] theorem nextTurn_cfg (s : State) :
    (s.nextTurn).cfg = s.cfg := by
  unfold State.nextTurn; split <;> try rfl
  dsimp only; split <;> simp

@[simp] theorem nextTurn_mem (s : State) :
    (s.nextTurn).mem = s.mem := by
  unfold State.nextTurn; split <;> try rfl
  dsimp only; split <;> simp

@[simp] theorem nextTurn_res (s : State) :
    (s.nextTurn).res = s.res := by
  unfold State.nextTurn; split <;> try rfl
  dsimp only; split <;> simp

@[simp] theorem nextTurn_landings (s : State) :
    (s.nextTurn).landings = s.landings := by
  unfold State.nextTurn; split <;> try rfl
  dsimp only; split <;> simp

@[simp] theorem nextTurn_draws (s : State) :
    (s.nextTurn).draws = s.draws := by
  unfold State.nextTurn; split <;> try rfl
  dsimp only; split <;> simp

@[simp] theorem recordStop_cfg (s : State) (st : Stop) :
    (s.recordStop st).cfg = s.cfg := rfl

@[simp] theorem recordStop_me (s : State) (st : Stop) :
    (s.recordStop st).me = s.me := rfl

@[simp] theorem recordStop_others (s : State) (st : Stop) :
    (s.recordStop st).others = s.others := rfl

@[simp] theorem recordStop_mem (s : State) (st : Stop) :
    (s.recordStop st).mem = s.mem := rfl

@[simp] theorem recordStop_res (s : State) (st : Stop) :
    (s.recordStop st).res = s.res := rfl

@[simp] theorem recordStop_landings (s : State) (st : Stop) :
    (s.recordStop st).landings = s.landings := rfl

@[simp] theorem recordStop_cpu (s : State) (st : Stop) :
    (s.recordStop st).cpu = { s.cpu with stop := some st } := rfl

/-! ### Launching -/

@[simp] theorem load_me (s : State) (code : Code) : (s.load code).me = s.me := rfl

@[simp] theorem load_res (s : State) (code : Code) : (s.load code).res = s.res := rfl

@[simp] theorem load_draws (s : State) (code : Code) : (s.load code).draws = s.draws := rfl

@[simp] theorem load_landings (s : State) (code : Code) : (s.load code).landings = [] := rfl

@[simp] theorem load_cfg (s : State) (code : Code) : (s.load code).cfg = programConfig s.cfg code := rfl

@[simp] theorem load_cpu (s : State) (code : Code) : (s.load code).cpu = s.cpu.unstopped := rfl

@[simp] theorem load_others (s : State) (code : Code) : (s.load code).others = s.others.map fun p => (p.1, p.2.unstopped) := rfl

@[simp] theorem load_mem (s : State) (code : Code) : (s.load code).mem = s.mem.placeWords code.base.toNat code.words := rfl

@[simp] theorem programConfig_code (c : Config) (code : Code) : (programConfig c code).code = code := rfl

@[simp] theorem unstopped_pc (a : Agent) : a.unstopped.pc = a.pc := rfl

@[simp] theorem unstopped_gpr (a : Agent) : a.unstopped.gpr = a.gpr := rfl

@[simp] theorem unstopped_fpr (a : Agent) : a.unstopped.fpr = a.fpr := rfl

@[simp] theorem unstopped_unwritten (a : Agent) : a.unstopped.unwritten = a.unwritten := rfl

@[simp] theorem unstopped_msr (a : Agent) : a.unstopped.msr = a.msr := rfl

@[simp] theorem unstopped_fpscr (a : Agent) : a.unstopped.fpscr = a.fpscr := rfl

@[simp] theorem unstopped_cr (a : Agent) : a.unstopped.cr = a.cr := rfl

@[simp] theorem unstopped_xer (a : Agent) : a.unstopped.xer = a.xer := rfl

@[simp] theorem unstopped_vr (a : Agent) : a.unstopped.vr = a.vr := rfl

@[simp] theorem unstopped_stop (a : Agent) : a.unstopped.stop = none := rfl

@[simp] theorem launch_me (s : State) (code : Code) : (s.launch code).me = s.me := rfl

@[simp] theorem launch_res (s : State) (code : Code) : (s.launch code).res = s.res := rfl

@[simp] theorem launch_draws (s : State) (code : Code) : (s.launch code).draws = s.draws := rfl

@[simp] theorem launch_landings (s : State) (code : Code) : (s.launch code).landings = [] := rfl

@[simp] theorem launch_cfg (s : State) (code : Code) : (s.launch code).cfg = programConfig s.cfg code := rfl

@[simp] theorem launch_mem (s : State) (code : Code) : (s.launch code).mem = s.mem.placeWords code.base.toNat code.words := rfl

@[simp] theorem launch_cpu (s : State) (code : Code) : (s.launch code).cpu = { s.cpu with pc := code.base, stop := none } := rfl

theorem launch_others (s : State) (code : Code) :
    (s.launch code).others = s.others.map fun p => (p.1, { p.2 with pc := code.base, stop := none }) := by
  simp [State.launch, Agent.unstopped]

theorem withFetchWord_eq (s : State) (nbits w : Nat) :
    s.withFetchWord nbits w = s.load { base := s.cpu.pc, words := [BitVec.ofNat 32 (w % 2 ^ nbits)] } := rfl

end Sys2Proof.Laws
end

