-- ==== Sys2Proof/Laws/Memory.lean ====
section
/-! SUPPORT. Storage: read after write, the canonical form, words. -/

namespace Sys2Proof.Laws

open Sys2Proof.Machine

/-! ### Reading -/

@[simp] theorem read_nil (a : Nat) : Memory.read [] a = none := rfl

theorem read_cons (c : Host.Cell) (m : Memory) (a : Nat) :
    Memory.read (c :: m) a = if c.1 = a then some c.2 else Memory.read m a := rfl

/-- Below every listed address nothing is listed. -/
theorem read_none_of_lt (m : Memory) (a : Nat) (h : ∀ c ∈ m, a < c.1) : m.read a = none := by
  induction m with
  | nil => rfl
  | cons c m ih =>
    have hc := h c (by simp)
    simp only [read_cons, show c.1 ≠ a by omega, if_false]
    exact ih fun d hd => h d (by simp [hd])

/-- What is read is one of the cells. -/
theorem mem_of_read {m : Memory} {a : Nat} {b : Byte} (h : m.read a = some b) : (a, b) ∈ m := by
  induction m with
  | nil => simp at h
  | cons c m ih =>
    rw [read_cons] at h
    split at h
    · rename_i hc
      obtain rfl : c.2 = b := by simpa using h
      subst hc
      simp
    · exact List.mem_cons_of_mem _ (ih h)

/-- In canonical form a cell reads as its byte. -/
theorem read_of_mem {m : Memory} (hm : m.wf) {c : Host.Cell} (h : c ∈ m) : m.read c.1 = some c.2 := by
  have hp := hm.1
  clear hm
  induction m with
  | nil => simp at h
  | cons d m ih =>
    rw [List.pairwise_cons] at hp
    rw [read_cons]
    rcases List.mem_cons.1 h with rfl | h
    · simp
    · rw [if_neg (by have := hp.1 c h; omega)]
      exact ih h hp.2

/-! ### Read after write -/

@[simp] theorem read_write_same (m : Memory) (a : Nat) (b : Byte) : (m.write a b).read a = some b := by
  induction m with
  | nil => simp [Memory.write, read_cons]
  | cons c m ih =>
    simp only [Memory.write]
    split
    · simp [read_cons]
    · split
      · simp [read_cons]
      · rename_i h1 h2
        simp [read_cons, show c.1 ≠ a by omega, ih]

theorem read_write_other (m : Memory) (a a' : Nat) (b : Byte) (h : a' ≠ a) :
    (m.write a b).read a' = m.read a' := by
  induction m with
  | nil => simp [Memory.write, read_cons, Ne.symm h]
  | cons c m ih =>
    simp only [Memory.write]
    split
    · simp [read_cons, Ne.symm h]
    · split
      · rename_i h1 h2
        subst h2
        simp [read_cons, Ne.symm h]
      · simp [read_cons, ih]

/-! ### The canonical form -/

theorem mem_write (m : Memory) (a : Nat) (b : Byte) (c : Host.Cell) (h : c ∈ m.write a b) :
    c = (a, b) ∨ c ∈ m := by
  induction m with
  | nil => simpa [Memory.write] using h
  | cons d m ih =>
    simp only [Memory.write] at h
    split at h
    · simpa using h
    · split at h
      · simp only [List.mem_cons] at h ⊢
        tauto
      · simp only [List.mem_cons] at h ⊢
        rcases h with h | h
        · exact .inr (.inl h)
        · rcases ih h with h | h <;> simp [h]

/-- A write to an address of the space keeps the canonical form. -/
theorem wf_write (m : Memory) (a : Nat) (b : Byte) (h : m.wf) (ha : a < 2 ^ 32) : (m.write a b).wf := by
  refine ⟨?_, fun c hc => ?_⟩
  · have hp := h.1
    clear h
    induction m with
    | nil => simp [Memory.write]
    | cons d m ih =>
      rw [List.pairwise_cons] at hp
      simp only [Memory.write]
      split
      · rename_i hlt
        simp only [List.pairwise_cons, List.mem_cons, forall_eq_or_imp]
        exact ⟨⟨hlt, fun e he => Nat.lt_trans hlt (hp.1 e he)⟩, hp⟩
      · split
        · rename_i heq
          subst heq
          exact List.pairwise_cons.2 ⟨hp.1, hp.2⟩
        · rename_i h1 h2
          refine List.pairwise_cons.2 ⟨fun e he => ?_, ih hp.2⟩
          rcases mem_write m a b e he with rfl | he
          · simp only; omega
          · exact hp.1 e he
  · rcases mem_write m a b c hc with rfl | hc
    · exact ha
    · exact h.2 c hc

theorem wf_writeCells (cs : List Host.Cell) : ∀ m : Memory, m.wf → (∀ c ∈ cs, c.1 < 2 ^ 32) → (m.writeCells cs).wf := by
  induction cs with
  | nil => exact fun m h _ => h
  | cons c cs ih =>
    exact fun m h hc => ih _ (wf_write m c.1 c.2 h (hc c (by simp))) fun d hd => hc d (by simp [hd])

/-! ### Cells and words -/

/-- A byte no cell is written to reads as before. -/
theorem read_writeCells_other (cs : List Host.Cell) : ∀ (m : Memory) (a : Nat), (∀ c ∈ cs, c.1 ≠ a) →
    (m.writeCells cs).read a = m.read a := by
  induction cs with
  | nil => exact fun _ _ _ => rfl
  | cons c cs ih =>
    intro m a h
    rw [Memory.writeCells, ih _ _ fun d hd => h d (by simp [hd]), read_write_other]
    exact (h c (by simp)).symm

/-- What a byte reads as after cells are written: one of the cells written to it, or as before. -/
theorem read_writeCells (cs : List Host.Cell) : ∀ (m : Memory) (a : Nat),
    (m.writeCells cs).read a = m.read a ∨ ∃ c ∈ cs, c.1 = a ∧ (m.writeCells cs).read a = some c.2 := by
  induction cs with
  | nil => exact fun _ _ => .inl rfl
  | cons c cs ih =>
    intro m a
    rw [Memory.writeCells]
    rcases ih (m.write c.1 c.2) a with h | ⟨d, hd, ha, h⟩
    · by_cases hc : c.1 = a
      · refine .inr ⟨c, by simp, hc, ?_⟩
        rw [h, ← hc, read_write_same]
      · exact .inl (by rw [h, read_write_other _ _ _ _ (Ne.symm hc)])
    · exact .inr ⟨d, by simp [hd], ha, h⟩

/-- The address of each cell of a word is one of the four bytes of the store. -/
theorem wordCells_addr (addr : Nat) (v : Word) (c : Host.Cell) (h : c ∈ wordCells addr v) :
    addr ≤ c.1 ∧ c.1 < addr + 4 := by
  simp only [wordCells, List.mem_cons, List.not_mem_nil, or_false] at h
  rcases h with rfl | rfl | rfl | rfl <;> simp

theorem wf_writeWord (m : Memory) (addr : Nat) (v : Word) (h : m.wf) (ha : addr ≤ 0xFFFFFFFC) :
    (m.writeWord addr v).wf :=
  wf_writeCells _ m h fun c hc => by have := wordCells_addr addr v c hc; omega

/-- Storage of the launch called reset is in canonical form. -/
theorem wf_reset : State.reset.mem.wf := by decide

/-- R32: the four bytes after a store, most-significant first. -/
theorem read_writeWord (m : Memory) (addr : Nat) (v : Word) :
    (m.writeWord addr v).read addr = some (v.extractLsb' 24 8) ∧
    (m.writeWord addr v).read (addr + 1) = some (v.extractLsb' 16 8) ∧
    (m.writeWord addr v).read (addr + 2) = some (v.extractLsb' 8 8) ∧
    (m.writeWord addr v).read (addr + 3) = some (v.extractLsb' 0 8) := by
  simp [Memory.writeWord, wordCells, Memory.writeCells, read_write_other]

/-- R32: "changes no other byte". -/
theorem read_writeWord_other (m : Memory) (addr a : Nat) (v : Word) (h : a < addr ∨ addr + 4 ≤ a) :
    (m.writeWord addr v).read a = m.read a :=
  read_writeCells_other _ m a fun c hc => by have := wordCells_addr addr v c hc; omega

/-- The bytes of a word, put together again (R31, R42 agree). -/
@[simp] theorem wordOfBytes_extract (v : Word) :
    wordOfBytes (v.extractLsb' 24 8) (v.extractLsb' 16 8) (v.extractLsb' 8 8) (v.extractLsb' 0 8) = v := by
  apply BitVec.eq_of_toNat_eq
  simp only [wordOfBytes, BitVec.toNat_append, BitVec.extractLsb'_toNat, Nat.shiftRight_eq_div_pow]
  have := v.isLt
  rw [← Nat.shiftLeft_add_eq_or_of_lt (by omega), ← Nat.shiftLeft_add_eq_or_of_lt (by omega),
    ← Nat.shiftLeft_add_eq_or_of_lt (by omega)]
  simp only [Nat.shiftLeft_eq]
  omega

@[simp] theorem readWord_writeWord_same (m : Memory) (addr : Nat) (v : Word) :
    (m.writeWord addr v).readWord addr = some v := by
  obtain ⟨h0, h1, h2, h3⟩ := read_writeWord m addr v
  simp [Memory.readWord, h0, h1, h2, h3]

/-- A word none of whose bytes changes reads as before. -/
theorem readWord_congr (m m' : Memory) (addr : Nat) (h : ∀ k < 4, m'.read (addr + k) = m.read (addr + k)) :
    m'.readWord addr = m.readWord addr := by
  have h0 := h 0 (by omega)
  have h1 := h 1 (by omega)
  have h2 := h 2 (by omega)
  have h3 := h 3 (by omega)
  simp only [Nat.add_zero] at h0
  simp only [Memory.readWord, h0, h1, h2, h3]

end Sys2Proof.Laws
end

