-- ==== Sys2Proof/Laws/Store.lean ====
section
/-! SUPPORT. What the shared store operation does, said once: when it completes, what it then is, and which fault it answers
otherwise. -/

namespace Sys2Proof.Laws

open Sys2Proof.Machine

/-! ### The order of the checks -/

theorem firstFault_none (l : List (Bool × Fault)) : firstFault l = none ↔ ∀ p ∈ l, p.1 = false := by
  induction l with
  | nil => simp [firstFault]
  | cons p l ih =>
    obtain ⟨b, f⟩ := p
    cases b <;> simp [firstFault, ih]

/-- The fault answered is one of the list, its condition holds, and no condition before it does. -/
theorem firstFault_some (l : List (Bool × Fault)) (f : Fault) (h : firstFault l = some f) :
    ∃ before after, l = before ++ (true, f) :: after ∧ ∀ p ∈ before, p.1 = false := by
  induction l with
  | nil => simp [firstFault] at h
  | cons p l ih =>
    obtain ⟨b, g⟩ := p
    cases b with
    | true =>
      obtain rfl : g = f := by simpa [firstFault] using h
      exact ⟨[], l, rfl, by simp⟩
    | false =>
      obtain ⟨before, after, rfl, hb⟩ := ih (by simpa [firstFault] using h)
      exact ⟨(false, g) :: before, after, rfl, by simpa using hb⟩

theorem firstFault_append (l m : List (Bool × Fault)) : firstFault (l ++ m) = (firstFault l).or (firstFault m) := by
  induction l with
  | nil => rfl
  | cons p l ih =>
    obtain ⟨b, f⟩ := p
    cases b <;> simp [firstFault, ih]

/-- Of the registers read, the first that carries the mark is the one reported (R93 (6)). -/
theorem firstFault_reads (a : Agent) (pc : Word) (rs : List RegName) :
    firstFault (rs.map fun r => (a.isUnwritten r, .unwrittenRegister pc r)) =
      (rs.find? fun r => a.isUnwritten r).map (.unwrittenRegister pc) := by
  induction rs with
  | nil => rfl
  | cons r rs ih =>
    cases h : a.isUnwritten r <;> simp [firstFault, h, ih]

theorem isHw_iff (c : Config) : isHw c = true ↔ c.profile = .hw := by simp [isHw]

/-- No condition of R90 holds exactly where the store is ready. -/
theorem storeFaults_none_iff (word : Word) (op : StoreOp) (s : State) :
    firstFault (storeFaults word op s) = none ↔ StoreReady op s := by
  rw [firstFault_none]
  constructor
  · intro h
    simp only [storeFaults, List.mem_append, List.mem_cons, List.not_mem_nil, or_false, List.mem_map] at h
    refine ⟨fun hw => ?_, fun hw => ?_, fun r hr => ?_, ?_, ?_, ?_, fun hw => ?_, ?_⟩
    · simpa [(isHw_iff _).2 hw] using h _ (.inl (.inl (.inl rfl)))
    · simpa [(isHw_iff _).2 hw] using h _ (.inl (.inl (.inr rfl)))
    · simpa [Agent.isUnwritten] using h _ (.inl (.inr ⟨r, hr, rfl⟩))
    · simpa using h _ (.inr (.inl rfl))
    · simpa using h _ (.inr (.inr (.inl rfl)))
    · simpa using h _ (.inr (.inr (.inr (.inl rfl))))
    · have := h _ (.inr (.inr (.inr (.inr (.inl rfl)))))
      simp [(isHw_iff _).2 hw] at this
      by_cases hm : (op.ea s.cpu).toNat % 4 = 0
      · exact .inl hm
      · exact .inr (this hm)
    · simpa using h _ (.inr (.inr (.inr (.inr (.inr rfl)))))
  · intro ⟨h1, h2, h3, h4, h5, h6, h7, h8⟩ p hp
    simp only [storeFaults, List.mem_append, List.mem_cons, List.not_mem_nil, or_false, List.mem_map] at hp
    rcases hp with (((rfl | rfl) | ⟨r, hr, rfl⟩)) | (rfl | rfl | rfl | rfl | rfl)
    · by_cases hw : isHw s.cfg = true
      · simp [h1 ((isHw_iff _).1 hw)]
      · simp [Bool.eq_false_iff.2 hw]
    · by_cases hw : isHw s.cfg = true
      · simpa [hw] using h2 ((isHw_iff _).1 hw)
      · simp [Bool.eq_false_iff.2 hw]
    · simp [Agent.isUnwritten, h3 r hr]
    · simpa using h4
    · simpa using h5
    · exact h6
    · by_cases hw : isHw s.cfg = true
      · rcases h7 ((isHw_iff _).1 hw) with h | h <;> simp [h]
      · simp [Bool.eq_false_iff.2 hw]
    · simpa using h8

/-! ### The store as a whole -/

/-- The outcome of a store, condition by condition in the order of R93. -/
theorem storeSingle_outcome (word : Word) (op : StoreOp) (s : State) :
    storeSingle word op s =
      if isHw s.cfg && !s.cpu.msr.fp then .fault (.floatingPointUnavailable s.cpu.pc)
      else if isHw s.cfg && op.updates == some 0 then .fault (.invalidForm s.cpu.pc word)
      else match op.reads.find? fun r => s.cpu.isUnwritten r with
        | some r => .fault (.unwrittenRegister s.cpu.pc r)
        | none =>
          if decide (0xFFFFFFFC < (op.ea s.cpu).toNat) then .fault (.addressWrap s.cpu.pc (op.ea s.cpu))
          else if !s.cfg.admits (op.ea s.cpu).toNat 4 .store then .fault (.dataStorage s.cpu.pc (op.ea s.cpu))
          else if s.cfg.code.meets (op.ea s.cpu).toNat 4 then .fault (.storeToCode s.cpu.pc (op.ea s.cpu))
          else if isHw s.cfg && decide ((op.ea s.cpu).toNat % 4 ≠ 0) && s.cfg.inhibitsAny (op.ea s.cpu).toNat 4 then
            .fault (.alignment s.cpu.pc (op.ea s.cpu))
          else if s.cpu.pc == 0xFFFFFFFC then .fault (.pcWrap s.cpu.pc)
          else .next (commitStore op s) := by
  unfold storeSingle storeFaults raise
  dsimp only
  rw [firstFault_append, firstFault_append, firstFault_reads]
  simp only [firstFault]
  generalize (isHw s.cfg && !s.cpu.msr.fp) = c1
  generalize (isHw s.cfg && op.updates == some 0) = c2
  generalize List.find? _ op.reads = c3
  generalize decide (0xFFFFFFFC < (op.ea s.cpu).toNat) = c4
  generalize (!s.cfg.admits (op.ea s.cpu).toNat 4 .store) = c5
  generalize s.cfg.code.meets (op.ea s.cpu).toNat 4 = c6
  generalize (isHw s.cfg && decide ((op.ea s.cpu).toNat % 4 ≠ 0) && s.cfg.inhibitsAny (op.ea s.cpu).toNat 4) = c7
  generalize (s.cpu.pc == 0xFFFFFFFC) = c8
  cases c1 <;> [skip; rfl]
  cases c2 <;> [skip; rfl]
  cases c3 <;> [skip; rfl]
  cases c4 <;> [skip; rfl]
  cases c5 <;> [skip; rfl]
  cases c6 <;> [skip; rfl]
  cases c7 <;> [skip; rfl]
  cases c8 <;> rfl

/-- A store completes exactly where it is ready, and is then the commit. -/
theorem storeSingle_next_iff (word : Word) (op : StoreOp) (s t : State) :
    storeSingle word op s = .next t ↔ StoreReady op s ∧ t = commitStore op s := by
  rw [← storeFaults_none_iff word]
  unfold storeSingle
  split <;> rename_i h
  · simp [h, raise]
  · simp [h, eq_comm]

/-- A store that does not complete answers the first fault of its list. -/
theorem storeSingle_fault_iff (word : Word) (op : StoreOp) (s : State) (f : Fault) :
    storeSingle word op s = .fault f ↔ firstFault (storeFaults word op s) = some f := by
  unfold storeSingle
  split <;> rename_i h <;> simp [h, raise]

theorem storeSingle_ne_refused (word : Word) (op : StoreOp) (s : State) (r : Refusal) :
    storeSingle word op s ≠ .refused r := by
  unfold storeSingle
  split <;> simp [raise]

/-! ### Every instruction is that store -/

theorem exec_eq_storeSingle (i : Instr) (s : State) : exec i s = storeSingle (encode i) (storeOpOf i) s := by
  cases i <;> rfl

theorem exec_next_iff (i : Instr) (s t : State) :
    exec i s = .next t ↔ StoreReady (storeOpOf i) s ∧ t = commitStore (storeOpOf i) s := by
  rw [exec_eq_storeSingle, storeSingle_next_iff]

theorem exec_fault_iff (i : Instr) (s : State) (f : Fault) :
    exec i s = .fault f ↔ firstFault (storeFaults (encode i) (storeOpOf i) s) = some f := by
  rw [exec_eq_storeSingle, storeSingle_fault_iff]

theorem exec_ne_refused (i : Instr) (s : State) (r : Refusal) : exec i s ≠ .refused r := by
  rw [exec_eq_storeSingle]
  exact storeSingle_ne_refused _ _ _ _

/-! ### Registers a ready store writes carry no mark -/

theorem base_mem_reads (op : StoreOp) (r : RegNum) (h : op.updates = some r) : RegName.gpr r ∈ op.reads := by
  obtain ⟨fs, base, offset⟩ := op
  cases base with
  | ra0 r' => simp [StoreOp.updates] at h
  | plain r' =>
    obtain rfl : r' = r := by simpa [StoreOp.updates] using h
    simp [StoreOp.reads, BaseOperand.reads]

/-- The marks do not change: the register an update form writes is one it has read, which carried none. -/
theorem writeBack_unwritten (op : StoreOp) (s : State) (h : StoreReady op s) :
    (op.writeBack s.cfg s.cpu).unwritten = s.cpu.unwritten := by
  unfold StoreOp.writeBack
  split <;> rename_i hu
  · rw [writeGpr_unwritten, List.filter_eq_self]
    intro r hr
    have : r ≠ .gpr _ := fun e => h.written _ (base_mem_reads op _ hu) (e ▸ hr)
    simpa using this
  · rfl

theorem writeBack_none (op : StoreOp) (c : Config) (a : Agent) (h : op.updates = none) :
    op.writeBack c a = a := by
  simp [StoreOp.writeBack, h]

theorem writeBack_some (op : StoreOp) (c : Config) (a : Agent) (r : RegNum) (h : op.updates = some r) :
    op.writeBack c a = a.writeGpr r (op.writeBackValue c a) := by
  simp [StoreOp.writeBack, h]

/-! ### Reading a register after a write -/

@[simp] theorem readGpr_writeGpr_same (a : Agent) (i : RegNum) (v : DWord) : (a.writeGpr i v).readGpr i = v := by
  simp [Agent.readGpr]

theorem readGpr_writeGpr_other (a : Agent) (i j : RegNum) (v : DWord) (h : j ≠ i) :
    (a.writeGpr i v).readGpr j = a.readGpr j := by
  have : i.toNat ≠ j.toNat := fun e => h (BitVec.eq_of_toNat_eq e.symm)
  simp [Agent.readGpr, Vector.getElem_set_ne, this]

/-! ### Reservations -/

/-- A store removes entries of `RES` and adds none. -/
theorem killReservations_sublist (c : Config) (n ea : Nat) (res : List Reservation) :
    (killReservations c n ea res).Sublist res := by
  unfold killReservations
  split
  · exact List.filter_sublist
  · exact .refl _

end Sys2Proof.Laws
end

