-- ==== Sys2Proof/Laws/Agents.lean ====
section
/-! SUPPORT. Several agents: what settling and the turn can do, and that one agent alone meets neither. -/

namespace Sys2Proof.Laws

open Sys2Proof.Machine

/-! ### One agent alone -/

@[simp] theorem settle_alone (ea word : Word) (t : State) (h : t.others = []) : t.settle ea word = t := by
  simp [State.settle, h]

@[simp] theorem nextTurn_alone (t : State) (h : t.others = []) : t.nextTurn = t := by
  simp [State.nextTurn, liveOthers, h]

theorem afterExec_alone (i : Instr) (s t : State) (h : t.others = []) : afterExec i s t = t := by
  unfold afterExec
  rw [settle_alone _ _ _ h, nextTurn_alone _ h]

/-! ### The turn -/

/-- Giving the turn exchanges two agents. -/
theorem giveTurn_agents (s : State) (k : Nat) : (s.giveTurn k).agents.Perm s.agents := by
  unfold State.giveTurn
  split
  · exact .refl _
  · rename_i n a h
    obtain ⟨hk, he⟩ := List.getElem?_eq_some_iff.1 h
    simp only [State.agents]
    have hp : s.others.Perm ((n, a) :: s.others.eraseIdx k) := by
      rw [← he]; exact (List.getElem_cons_eraseIdx_perm hk).symm
    have hq : (s.others.set k (s.me, s.cpu)).Perm ((s.me, s.cpu) :: s.others.eraseIdx k) := by
      exact List.set_perm_cons_eraseIdx hk _
    exact (hq.cons _).trans ((List.Perm.swap _ _ _).trans (hp.symm.cons _))

/-- The turn either stays or goes to another agent. -/
theorem nextTurn_cases (s : State) : s.nextTurn = s ∨ ∃ k, s.nextTurn = s.giveTurn k := by
  unfold State.nextTurn
  split
  · exact .inl rfl
  · dsimp only
    split
    · exact .inr ⟨_, rfl⟩
    · exact .inl rfl

theorem nextTurn_agents (s : State) : s.nextTurn.agents.Perm s.agents := by
  rcases nextTurn_cases s with h | ⟨k, h⟩ <;> rw [h]
  exact giveTurn_agents s k

/-- An agent is found under its number, whatever the order of the agents. -/
theorem agent_find_iff (s : State) (hd : (s.agents.map (·.1)).Nodup) (n : Nat) (a : Agent) :
    s.agent? n = some a ↔ (n, a) ∈ s.agents := by
  unfold State.agent?
  generalize s.agents = l at hd
  induction l with
  | nil => simp
  | cons p l ih =>
    simp only [List.map_cons, List.nodup_cons] at hd
    obtain ⟨m, b⟩ := p
    by_cases hm : m = n
    · subst hm
      simp only [List.find?_cons_of_pos, beq_self_eq_true, Option.map_some, Option.some.injEq, List.mem_cons,
        Prod.mk.injEq, true_and]
      constructor
      · intro h; exact .inl h.symm
      · rintro (h | h)
        · exact h.symm
        · exact absurd (List.mem_map_of_mem (f := (·.1)) h) hd.1
    · rw [List.find?_cons_of_neg (by simpa using hm), ih hd.2]
      simp [Ne.symm hm]

theorem agent_find_perm (s t : State) (hd : (s.agents.map (·.1)).Nodup) (hp : t.agents.Perm s.agents) (n : Nat) :
    t.agent? n = s.agent? n := by
  have hd' : (t.agents.map (·.1)).Nodup := ((hp.map _).nodup_iff).2 hd
  ext a
  rw [agent_find_iff t hd', agent_find_iff s hd, hp.mem_iff]

/-- Where some agent has a further step, the one whose turn it then is has one. -/
theorem nextTurn_live (s : State) (h : ∃ p ∈ s.agents, isLive s.cfg p.2 = true) :
    isLive s.nextTurn.cfg s.nextTurn.cpu = true := by
  have hmem : ∀ j ∈ liveOthers s, isLive (s.giveTurn j).cfg (s.giveTurn j).cpu = true := by
    intro j hj
    have hj := (List.mem_filter.1 hj).2
    unfold State.giveTurn
    cases hk : s.others[j]? with
    | none => simp [hk] at hj
    | some p => simpa [hk] using hj
  unfold State.nextTurn
  cases hl : liveOthers s with
  | nil =>
    obtain ⟨p, hp, hlive⟩ := h
    rcases List.mem_cons.1 hp with rfl | hp
    · exact hlive
    · exfalso
      obtain ⟨j, hj, rfl⟩ := List.mem_iff_getElem.1 hp
      have : j ∈ liveOthers s := List.mem_filter.2 ⟨List.mem_range.2 hj, by simpa [hj] using hlive⟩
      simp [hl] at this
  | cons k ks =>
    dsimp only
    generalize hpool : (k :: ks).map some ++ (if isLive s.cfg s.cpu then [none] else []) = pool
    have hlen : Config.scheduleDraw s.draws % pool.length < pool.length :=
      Nat.mod_lt _ (by rw [← hpool]; simp)
    rw [List.getElem?_eq_getElem hlen]
    have hm := List.getElem_mem hlen
    generalize pool[Config.scheduleDraw s.draws % pool.length] = c at hm
    rw [← hpool, List.mem_append] at hm
    cases c with
    | some j =>
      refine hmem j ?_
      rcases hm with hm | hm
      · rw [hl]; simpa using hm
      · split at hm <;> simp at hm
    | none =>
      rcases hm with hm | hm
      · simp at hm
      · split at hm
        · assumption
        · simp at hm

/-! ### The order of the landings -/

/-- The byte an access leaves is one of its cells. -/
theorem byteAt_mem (l : Landing) (a : Nat) (b : Byte) (h : l.byteAt a = some b) : (a, b) ∈ l.cells := mem_of_read h

/-- Two accesses that leave a byte at one address meet. -/
theorem meets_of_byteAt (l o : Landing) (a : Nat) (h : (l.byteAt a).isSome) (h' : (o.byteAt a).isSome) : l.meets o = true := by
  obtain ⟨b, hb⟩ := Option.isSome_iff_exists.1 h
  exact List.any_eq_true.2 ⟨_, byteAt_mem l a b hb, h'⟩

/-- Where a new access comes: after every earlier one of its own agent that it meets. -/
theorem place_split (draw : Nat) (l : Landing) (order : List Landing) :
    ∃ pre post, order = pre ++ post ∧ place draw l order = pre ++ l :: post ∧
      ∀ o ∈ pre, o.agent = l.agent → l.meets o = false := by
  have hk : draw % ((mayLandBefore l order).length + 1) ≤ (mayLandBefore l order).length :=
    Nat.le_of_lt_succ (Nat.mod_lt _ (by omega))
  refine ⟨_, _, (List.take_append_drop _ order).symm, rfl, fun o ho ha => ?_⟩
  have hpre : mayLandBefore l order <+: order := List.takeWhile_prefix _
  have ho : o ∈ mayLandBefore l order := by
    have := (List.prefix_iff_eq_take.1 hpre).symm
    rw [← this]
    exact (List.take_subset_take_left _ hk) ho
  have := List.mem_takeWhile_imp ho
  simpa [ha] using this

theorem placeAll_perm (draw : Nat) (ls : List Landing) : ∀ order, (placeAll draw ls order).Perm (ls ++ order) := by
  induction ls with
  | nil => exact fun _ => .refl _
  | cons l ls ih =>
    intro order
    obtain ⟨pre, post, ho, hp, _⟩ := place_split (Config.landsAt draw ls.length) l order
    rw [placeAll, hp]
    refine (ih _).trans ?_
    subst ho
    exact ((List.perm_middle.append_left ls).trans List.perm_middle)

theorem placeAll_sublist (draw : Nat) (ls : List Landing) : ∀ order : List Landing, order.Sublist (placeAll draw ls order) := by
  induction ls with
  | nil => exact fun _ => .refl _
  | cons l ls ih =>
    intro order
    obtain ⟨pre, post, ho, hp, _⟩ := place_split (Config.landsAt draw ls.length) l order
    refine .trans ?_ (ih _)
    rw [hp]
    subst ho
    exact (List.sublist_cons_self l post).append_left pre

/-- Of the other agents' landings nothing changes. -/
theorem placeAll_others (draw me : Nat) (ls : List Landing) : (∀ l ∈ ls, l.agent = me) → ∀ order,
    (placeAll draw ls order).filter (fun l => l.agent != me) = order.filter fun l => l.agent != me := by
  induction ls with
  | nil => exact fun _ _ => rfl
  | cons l ls ih =>
    intro h order
    obtain ⟨pre, post, ho, hp, _⟩ := place_split (Config.landsAt draw ls.length) l order
    rw [placeAll, ih (fun o hm => h o (by simp [hm])), hp, ho]
    simp [List.filter_append, h l (by simp)]

/-- Of the agent's own landings on one byte, the new ones come last, in their order: R38 (a). -/
theorem placeAll_own (draw me a : Nat) (ls : List Landing) : (∀ l ∈ ls, l.agent = me) → ∀ order,
    (placeAll draw ls order).filter (fun l => l.agent == me && (l.byteAt a).isSome) =
      (ls.filter fun l => (l.byteAt a).isSome).reverse ++ order.filter fun l => l.agent == me && (l.byteAt a).isSome := by
  induction ls with
  | nil => exact fun _ _ => rfl
  | cons l ls ih =>
    intro h order
    have hl := h l (by simp)
    obtain ⟨pre, post, ho, hp, hn⟩ := place_split (Config.landsAt draw ls.length) l order
    rw [placeAll, ih (fun o hm => h o (by simp [hm])), hp, ho]
    cases hb : (l.byteAt a).isSome
    · simp [List.filter_append, hb]
    · have hpre : pre.filter (fun l => l.agent == me && (l.byteAt a).isSome) = [] := by
        rw [List.filter_eq_nil_iff]
        intro o hom
        simp only [Bool.and_eq_true, beq_iff_eq, not_and]
        intro e hc
        have := hn o hom (by rw [e, hl])
        rw [meets_of_byteAt l o a hb hc] at this
        cases this
      simp [List.filter_append, hb, hl, hpre]

/-- A byte no new access lands on is left as before. -/
theorem lastByte_placeAll (draw a : Nat) (ls : List Landing) : (∀ l ∈ ls, l.byteAt a = none) → ∀ order,
    lastByte (placeAll draw ls order) a = lastByte order a := by
  induction ls with
  | nil => exact fun _ _ => rfl
  | cons l ls ih =>
    intro h order
    obtain ⟨pre, post, ho, hp, _⟩ := place_split (Config.landsAt draw ls.length) l order
    rw [placeAll, ih (fun o hm => h o (by simp [hm])), hp, ho]
    simp [lastByte, List.findSome?_append, h l (by simp)]

/-- The byte the order leaves is that of one of its accesses. -/
theorem lastByte_mem (order : List Landing) (a : Nat) (b : Byte) (h : lastByte order a = some b) :
    ∃ l ∈ order, l.byteAt a = some b := by
  obtain ⟨l, hl, hb⟩ := List.exists_of_findSome?_eq_some h
  exact ⟨l, hl, hb⟩

/-- Some byte is left where an access lands. -/
theorem lastByte_isSome (order : List Landing) (a : Nat) (l : Landing) (hl : l ∈ order) (h : (l.byteAt a).isSome) :
    (lastByte order a).isSome := by
  unfold lastByte
  rw [List.findSome?_isSome_iff]
  exact ⟨l, hl, h⟩

/-! ### The accesses of a store -/

theorem storeLandings_agent (me : Nat) (ea word : Word) : ∀ l ∈ storeLandings me ea word, l.agent = me := by
  intro l hl
  unfold storeLandings at hl
  split at hl
  · obtain rfl := List.mem_singleton.1 hl; rfl
  · obtain ⟨c, _, rfl⟩ := List.mem_map.1 hl; rfl

/-- Each cell of an access of a store is one of the cells of its word. -/
theorem storeLandings_cells (me : Nat) (ea word : Word) (l : Landing) (hl : l ∈ storeLandings me ea word) (c : Host.Cell)
    (hc : c ∈ l.cells) : c ∈ wordCells ea.toNat word := by
  unfold storeLandings at hl
  split at hl
  · obtain rfl := List.mem_singleton.1 hl; exact hc
  · obtain ⟨d, hd, rfl⟩ := List.mem_map.1 hl
    obtain rfl := List.mem_singleton.1 hc
    exact hd

/-- The accesses of a store land on its four bytes and on no other. -/
theorem storeLandings_byteAt (me : Nat) (ea word : Word) (a : Nat) :
    (ea.toNat ≤ a ∧ a < ea.toNat + 4 → ∃ l ∈ storeLandings me ea word, (l.byteAt a).isSome) ∧
    (a < ea.toNat ∨ ea.toNat + 4 ≤ a → ∀ l ∈ storeLandings me ea word, l.byteAt a = none) := by
  constructor
  · rintro ⟨h1, h2⟩
    obtain h | h | h | h : a = ea.toNat ∨ a = ea.toNat + 1 ∨ a = ea.toNat + 2 ∨ a = ea.toNat + 3 := by omega
    all_goals
      subst h
      unfold storeLandings
      split <;> simp [wordCells, Landing.byteAt, read_cons]
  · intro h l hl
    by_contra hc
    obtain ⟨b, hb⟩ := Option.ne_none_iff_exists'.1 hc
    have := wordCells_addr _ _ _ (storeLandings_cells me ea word l hl _ (byteAt_mem l a b hb))
    simp only at this
    omega

/-! ### Settling -/

theorem settle_landings (ea word : Word) (t : State) (h : t.others ≠ []) :
    (t.settle ea word).landings = placeAll t.draws (storeLandings t.me ea word) t.landings := by
  simp [State.settle, h]

/-- Storage after settling: as before outside the four bytes from `ea`; and those as the order leaves them. -/
theorem settle_read (ea word : Word) (t : State) (h : t.others ≠ []) (a : Nat) :
    (t.settle ea word).mem.read a =
      if ea.toNat ≤ a ∧ a < ea.toNat + 4 then lastByte (t.settle ea word).landings a else t.mem.read a := by
  rw [settle_landings _ _ _ h]
  have hm : (t.settle ea word).mem =
      t.mem.writeCells (settledCells ea (placeAll t.draws (storeLandings t.me ea word) t.landings)) := by
    simp [State.settle, h]
  rw [hm]
  have hsome : ∀ k < 4, (lastByte (placeAll t.draws (storeLandings t.me ea word) t.landings) (ea.toNat + k)).isSome := by
    intro k hk
    obtain ⟨l, hl, hb⟩ := (storeLandings_byteAt t.me ea word (ea.toNat + k)).1 (by omega)
    exact lastByte_isSome _ _ l ((placeAll_perm _ _ _).mem_iff.2 (by simp [hl])) hb
  generalize placeAll t.draws (storeLandings t.me ea word) t.landings = order at hsome
  obtain ⟨b0, h0⟩ := Option.isSome_iff_exists.1 (hsome 0 (by omega))
  obtain ⟨b1, h1⟩ := Option.isSome_iff_exists.1 (hsome 1 (by omega))
  obtain ⟨b2, h2⟩ := Option.isSome_iff_exists.1 (hsome 2 (by omega))
  obtain ⟨b3, h3⟩ := Option.isSome_iff_exists.1 (hsome 3 (by omega))
  rw [Nat.add_zero] at h0
  have hc : settledCells ea order = [(ea.toNat, b0), (ea.toNat + 1, b1), (ea.toNat + 2, b2), (ea.toNat + 3, b3)] := by
    unfold settledCells
    rw [show List.range 4 = [0, 1, 2, 3] from rfl]
    simp only [List.filterMap_cons, Nat.add_zero, h0, h1, h2, h3, Option.map_some, List.filterMap_nil]
  rw [hc]
  split
  · obtain h | h | h | h : a = ea.toNat ∨ a = ea.toNat + 1 ∨ a = ea.toNat + 2 ∨ a = ea.toNat + 3 := by omega
    all_goals
      subst h
      simp [Memory.writeCells, read_write_other, h0, h1, h2, h3]
  · rw [read_writeCells_other]
    simp only [List.mem_cons, List.not_mem_nil, or_false]
    rintro c (rfl | rfl | rfl | rfl) <;> simp only <;> omega

/-- Settling keeps the canonical form. -/
theorem settle_wf (ea word : Word) (t : State) (h : t.mem.wf) (he : ea.toNat ≤ 0xFFFFFFFC) : (t.settle ea word).mem.wf := by
  unfold State.settle
  split
  · exact h
  · refine wf_writeCells _ _ h fun c hc => ?_
    obtain ⟨k, hk, hc⟩ := List.mem_filterMap.1 hc
    obtain ⟨b, _, rfl⟩ := Option.map_eq_some_iff.1 hc
    have := List.mem_range.1 hk
    simp only
    omega

end Sys2Proof.Laws
end

