-- ==== Sys2Proof/Laws/Decode.lean ====
section
/-! SUPPORT. The words of the two forms as sums of their fields (R55), and the fields read back (R51, R52). -/

namespace Sys2Proof.Laws

/-! ### Words as sums -/

theorem append_toNat {m n : Nat} (x : BitVec m) (y : BitVec n) :
    (x ++ y).toNat = x.toNat * 2 ^ n + y.toNat := by
  rw [BitVec.toNat_append, ← Nat.shiftLeft_add_eq_or_of_lt y.isLt, Nat.shiftLeft_eq]

theorem formD_toNat (o : BitVec 6) (fs ra : RegNum) (d : Int) :
    (formD o fs ra d).toNat = o.toNat * 2 ^ 26 + fs.toNat * 2 ^ 21 + ra.toNat * 2 ^ 16 + (BitVec.ofInt 16 d).toNat := by
  simp only [formD, append_toNat]
  omega

theorem formX_toNat (fs ra rb : RegNum) (xo : BitVec 10) :
    (formX fs ra rb xo).toNat =
      31 * 2 ^ 26 + fs.toNat * 2 ^ 21 + ra.toNat * 2 ^ 16 + rb.toNat * 2 ^ 11 + xo.toNat * 2 := by
  simp only [formX, append_toNat, show (31#6).toNat = 31 from rfl, show (0#1).toNat = 0 from rfl]
  omega

/-! ### Fields as quotients -/

theorem extract_toNat {n : Nat} (w : BitVec n) (lo len : Nat) :
    (w.extractLsb' lo len).toNat = w.toNat / 2 ^ lo % 2 ^ len := by
  simp [BitVec.extractLsb'_toNat, Nat.shiftRight_eq_div_pow]

/-! ### The fields of form D -/

@[simp] theorem fieldOpcd_formD (o : BitVec 6) (fs ra : RegNum) (d : Int) : fieldOpcd (formD o fs ra d) = o := by
  apply BitVec.eq_of_toNat_eq
  rw [fieldOpcd, extract_toNat, formD_toNat]
  have := o.isLt; have := fs.isLt; have := ra.isLt; have := (BitVec.ofInt 16 d).isLt
  omega

@[simp] theorem fieldFs_formD (o : BitVec 6) (fs ra : RegNum) (d : Int) : fieldFs (formD o fs ra d) = fs := by
  apply BitVec.eq_of_toNat_eq
  rw [fieldFs, extract_toNat, formD_toNat]
  have := o.isLt; have := fs.isLt; have := ra.isLt; have := (BitVec.ofInt 16 d).isLt
  omega

@[simp] theorem fieldRa_formD (o : BitVec 6) (fs ra : RegNum) (d : Int) : fieldRa (formD o fs ra d) = ra := by
  apply BitVec.eq_of_toNat_eq
  rw [fieldRa, extract_toNat, formD_toNat]
  have := o.isLt; have := fs.isLt; have := ra.isLt; have := (BitVec.ofInt 16 d).isLt
  omega

/-- The displacement read back: the one encoded, where it is in range (R54). -/
theorem fieldD_formD (o : BitVec 6) (fs ra : RegNum) (d : Int) (h : dispInRange d = true) :
    fieldD (formD o fs ra d) = d := by
  have hd : (formD o fs ra d).extractLsb' 0 16 = BitVec.ofInt 16 d := by
    apply BitVec.eq_of_toNat_eq
    rw [extract_toNat, formD_toNat]
    have := (BitVec.ofInt 16 d).isLt
    omega
  simp only [dispInRange, Bool.and_eq_true, decide_eq_true_eq] at h
  rw [fieldD, hd, BitVec.toInt_ofInt_eq_self] <;> omega

/-! ### The fields of form X -/

@[simp] theorem fieldOpcd_formX (fs ra rb : RegNum) (xo : BitVec 10) : fieldOpcd (formX fs ra rb xo) = 31 := by
  apply BitVec.eq_of_toNat_eq
  rw [fieldOpcd, extract_toNat, formX_toNat]
  have := fs.isLt; have := ra.isLt; have := rb.isLt; have := xo.isLt
  simp only [BitVec.ofNat_eq_ofNat, BitVec.toNat_ofNat]
  omega

@[simp] theorem fieldFs_formX (fs ra rb : RegNum) (xo : BitVec 10) : fieldFs (formX fs ra rb xo) = fs := by
  apply BitVec.eq_of_toNat_eq
  rw [fieldFs, extract_toNat, formX_toNat]
  have := fs.isLt; have := ra.isLt; have := rb.isLt; have := xo.isLt
  omega

@[simp] theorem fieldRa_formX (fs ra rb : RegNum) (xo : BitVec 10) : fieldRa (formX fs ra rb xo) = ra := by
  apply BitVec.eq_of_toNat_eq
  rw [fieldRa, extract_toNat, formX_toNat]
  have := fs.isLt; have := ra.isLt; have := rb.isLt; have := xo.isLt
  omega

@[simp] theorem fieldRb_formX (fs ra rb : RegNum) (xo : BitVec 10) : fieldRb (formX fs ra rb xo) = rb := by
  apply BitVec.eq_of_toNat_eq
  rw [fieldRb, extract_toNat, formX_toNat]
  have := fs.isLt; have := ra.isLt; have := rb.isLt; have := xo.isLt
  omega

@[simp] theorem fieldXo_formX (fs ra rb : RegNum) (xo : BitVec 10) : fieldXo (formX fs ra rb xo) = xo := by
  apply BitVec.eq_of_toNat_eq
  rw [fieldXo, extract_toNat, formX_toNat]
  have := fs.isLt; have := ra.isLt; have := rb.isLt; have := xo.isLt
  omega

@[simp] theorem fieldRc_formX (fs ra rb : RegNum) (xo : BitVec 10) : fieldRc (formX fs ra rb xo) = 0 := by
  apply BitVec.eq_of_toNat_eq
  rw [fieldRc, extract_toNat, formX_toNat]
  simp only [BitVec.ofNat_eq_ofNat, BitVec.toNat_ofNat]
  omega

/-! ### Selecting a row by the masks of R55 -/

theorem nat_and_high (n : Nat) (h : n < 2 ^ 32) : n &&& 0xFC000000 = n / 2 ^ 26 * 2 ^ 26 := by
  apply Nat.eq_of_testBit_eq
  intro i
  rw [Nat.testBit_and, show (0xFC000000 : Nat) = (2 ^ 6 - 1) * 2 ^ 26 from rfl, Nat.testBit_mul_two_pow,
    Nat.testBit_mul_two_pow, Nat.testBit_two_pow_sub_one, Nat.testBit_div_two_pow]
  by_cases h1 : 26 ≤ i
  · by_cases h2 : i < 32
    · simp [h1, show i - 26 < 6 by omega, show i - 26 + 26 = i by omega]
    · have : n.testBit i = false := Nat.testBit_lt_two_pow (Nat.lt_of_lt_of_le h (Nat.pow_le_pow_right (by omega) (by omega)))
      simp [show i - 26 + 26 = i by omega, this]
  · simp [h1]

/-- The mask of form D keeps the primary opcode. -/
theorem mask_formD_toNat (w : Word) : (w &&& 0xFC000000).toNat = w.toNat / 2 ^ 26 * 2 ^ 26 := by
  rw [BitVec.toNat_and]
  exact nat_and_high w.toNat w.isLt

/-- The mask of form X keeps the primary opcode, the extended opcode and Rc. -/
theorem mask_formX_toNat (w : Word) :
    (w &&& 0xFC0007FF).toNat = w.toNat / 2 ^ 26 * 2 ^ 26 + w.toNat % 2 ^ 11 := by
  rw [BitVec.toNat_and, show (0xFC0007FF : Word).toNat = 0xFC000000 ||| (2 ^ 11 - 1) from rfl, Nat.and_or_distrib_left,
    nat_and_high w.toNat w.isLt, Nat.and_two_pow_sub_one_eq_mod]
  have : w.toNat / 2 ^ 26 * 2 ^ 26 = (w.toNat / 2 ^ 26 * 2 ^ 15) * 2 ^ 11 := by omega
  rw [this, ← Nat.shiftLeft_eq, Nat.shiftLeft_add_eq_or_of_lt (Nat.mod_lt _ (by omega))]

end Sys2Proof.Laws
end

