-- ==== Sys2Proof/Laws/Convert.lean ====
section
/-! SUPPORT. The conversion: what `SFD_ieee` returns for a finite value, said once, and the values of the patterns. -/

namespace Sys2Proof.Laws
open Sys2Proof.Machine

/-! ### Magnitudes -/

/-- The value of the magnitude `k * 2^23 + n`, whether normal, denormal or at the carry into the next binade. -/
theorem units32_grid (k n : Nat) (hn : n ≤ 2 ^ 24) (hk : k = 0 ∨ 2 ^ 23 ≤ n) :
    units32 (k * 2 ^ 23 + n) = n * 2 ^ (k + 925) := by
  unfold units32
  rcases Nat.lt_or_ge n (2 ^ 23) with h | h
  · obtain rfl : k = 0 := by omega
    simp only [Nat.zero_mul, Nat.zero_add, if_pos h]
  · rw [if_neg (by omega)]
    rcases Nat.lt_or_ge n (2 ^ 24) with h' | h'
    · have e1 : (k * 2 ^ 23 + n) % 2 ^ 23 = n - 2 ^ 23 := by omega
      have e2 : (k * 2 ^ 23 + n) / 2 ^ 23 = k + 1 := by omega
      rw [e1, e2, show 2 ^ 23 + (n - 2 ^ 23) = n by omega, show k + 1 + 924 = k + 925 by omega]
    · obtain rfl : n = 2 ^ 24 := by omega
      have e1 : (k * 2 ^ 23 + 2 ^ 24) % 2 ^ 23 = 0 := by omega
      have e2 : (k * 2 ^ 23 + 2 ^ 24) / 2 ^ 23 = k + 2 := by omega
      rw [e1, e2, show k + 2 + 924 = (k + 925) + 1 by omega, Nat.pow_succ]
      omega

theorem units32_zero : units32 0 = 0 := by
  rw [units32, if_pos (by omega), Nat.zero_mul]

/-- Every magnitude is on such a grid. -/
theorem grid (p : Nat) : ∃ k n, p = k * 2 ^ 23 + n ∧ n < 2 ^ 24 ∧ (k = 0 ∨ 2 ^ 23 ≤ n) := by
  rcases Nat.lt_or_ge p (2 ^ 23) with h | h
  · exact ⟨0, p, by omega, by omega, .inl rfl⟩
  · exact ⟨p / 2 ^ 23 - 1, p % 2 ^ 23 + 2 ^ 23, by omega, by omega, .inr (by omega)⟩

theorem units32_lt_succ (p : Nat) : units32 p < units32 (p + 1) := by
  obtain ⟨k, n, rfl, hn, hk⟩ := grid p
  rw [units32_grid k n (by omega) hk, Nat.add_assoc, units32_grid k (n + 1) (by omega) (by omega)]
  exact Nat.mul_lt_mul_of_pos_right (by omega) (Nat.two_pow_pos _)

theorem units32_strictMono : StrictMono units32 := strictMono_nat_of_lt_succ units32_lt_succ

/-! ### Rounding a finite value -/

/-- Whether a remainder `r` of one unit is rounded up (R72's `up`), the kept part being `n`. -/
def upOf (rn : BitVec 2) (s : Bool) (n r unit : Nat) : Bool :=
  if rn = 0b00 then decide (unit < 2 * r) || (decide (2 * r = unit) && n % 2 == 1)
  else if rn = 0b01 then false
  else if rn = 0b10 then r != 0 && !s
  else r != 0 && s

theorem bne_zero_scaled (r a : Nat) : (r * 2 ^ a != 0) = (r != 0) := by
  rcases r with _ | r
  · rw [Nat.zero_mul]
  · have : 0 < (r + 1) * 2 ^ a := Nat.mul_pos (by omega) (Nat.two_pow_pos a)
    rw [bne_iff_ne.2 (by omega), bne_iff_ne.2 (by omega)]

theorem roundsUp_eq (rn : BitVec 2) (s : Bool) (n r sh a : Nat) (h : 0 < sh) :
    roundsUp rn s n r (2 ^ (sh - 1)) = upOf rn s n (r * 2 ^ a) (2 ^ (sh + a)) := by
  have h2 : 2 ^ (sh + a) = 2 * (2 ^ (sh - 1) * 2 ^ a) := by
    rw [← Nat.pow_add, ← Nat.pow_succ']
    congr 1; omega
  have ha : 0 < 2 ^ a := Nat.two_pow_pos a
  have e1 : (2 ^ (sh + a) < 2 * (r * 2 ^ a)) ↔ r > 2 ^ (sh - 1) := by
    rw [h2, Nat.mul_lt_mul_left (by omega), Nat.mul_lt_mul_right ha]
  have e2 : (2 * (r * 2 ^ a) = 2 ^ (sh + a)) ↔ r = 2 ^ (sh - 1) := by
    rw [h2, Nat.mul_right_inj (by omega), Nat.mul_left_inj (by omega)]
  have e3 := bne_zero_scaled r a
  unfold roundsUp upOf
  rw [e3, decide_eq_decide.2 e1, decide_eq_decide.2 e2]
  rfl

/-- A value judged tiny is below 2^-126, whichever way it is judged. -/
theorem isTiny_lt (t : Tininess) (rn : BitVec 2) (s : Bool) (m : Nat) (q : Int) (h : isTiny t rn s m q = true) :
    topExponent m q < -126 := by
  cases t
  · simpa [isTiny] using h
  · have h' : roundedExponent rn s m q < -126 := by simpa [isTiny] using h
    unfold roundedExponent at h'
    split at h' <;> omega

/-- The pattern of a normal magnitude: its exponent field, then its fraction. -/
theorem normal_pattern (j n : Nat) (hj : j < 255) (hn : n < 2 ^ 24) (hn' : 2 ^ 23 ≤ n) :
    (BitVec.ofInt 8 (j + 1 : Int) ++ BitVec.ofNat 23 n : BitVec 31) = BitVec.ofNat 31 (j * 2 ^ 23 + n) := by
  apply BitVec.eq_of_toNat_eq
  have h1 : (BitVec.ofInt 8 (j + 1 : Int)).toNat = j + 1 := by
    rw [BitVec.toNat_ofInt]; omega
  rw [BitVec.toNat_append, ← Nat.shiftLeft_add_eq_or_of_lt (BitVec.isLt _), h1, BitVec.toNat_ofNat, BitVec.toNat_ofNat,
    Nat.shiftLeft_eq]
  omega

/-- What `narrowFinite` returns for `U = m * 2^(q+1074)` units of 2^-1074, said once: `U` lies between the magnitudes
`k * 2^23 + n` and the next, `r` units above the lower; the result is one of the two, as `upOf` says, or what overflow gives;
and the flags follow. -/
theorem narrowFinite_frame (t : Tininess) (s : Bool) (m : Nat) (q : Int) (rn : BitVec 2) (ni : Bool)
    (hm : 0 < m) (hm' : m < 2 ^ 53) (hq : -1074 ≤ q) (hn : 2 ^ 52 ≤ m ∨ q = -1074) :
    ∃ k n r : Nat, m * 2 ^ (q + 1074).toNat = n * 2 ^ (k + 925) + r ∧ r < 2 ^ (k + 925) ∧ n < 2 ^ 24 ∧ (k = 0 ∨ 2 ^ 23 ≤ n) ∧
      (topExponent m q < -126 ↔ k = 0 ∧ n < 2 ^ 23) ∧
      let p := k * 2 ^ 23 + n + (upOf rn s n r (2 ^ (k + 925))).toNat
      narrowFinite t s m q rn ni =
        if isTiny t rn s m q && ni then { word := pack32 s 0, xx := true, ox := false, ux := true, vxsnan := false }
        else
          { word := pack32 s (if p < 0x7F800000 then BitVec.ofNat 31 p else overflowMagnitude rn s)
            xx := r != 0 || decide (0x7F800000 ≤ p), ox := decide (0x7F800000 ≤ p)
            ux := isTiny t rn s m q && r != 0, vxsnan := false } := by
  have hl1 : 2 ^ m.log2 ≤ m := Nat.log2_self_le (by omega)
  have hl2 : m < 2 ^ (m.log2 + 1) := Nat.lt_log2_self
  have hl3 : m.log2 ≤ 52 := by
    by_contra hc
    have : 2 ^ 53 ≤ 2 ^ m.log2 := Nat.pow_le_pow_right (by omega) (by omega)
    omega
  have hl4 : 2 ^ 52 ≤ m → m.log2 = 52 := by
    intro h
    by_contra hc
    have : 2 ^ (m.log2 + 1) ≤ 2 ^ 52 := Nat.pow_le_pow_right (by omega) (by omega)
    omega
  generalize hL : m.log2 = L at *
  have he : topExponent m q = L + q := by rw [topExponent, hL]
  obtain ⟨sh, hsh⟩ : ∃ sh : Nat, (sh : Int) = max (L + q : Int) (-126) - 23 - q :=
    ⟨(max (L + q : Int) (-126) - 23 - q).toNat, by omega⟩
  have hsh29 : 29 ≤ sh := by omega
  obtain ⟨k, hk⟩ : ∃ k : Nat, (k : Int) = max (L + q : Int) (-126) + 126 := ⟨(max (L + q : Int) (-126) + 126).toNat, by omega⟩
  obtain ⟨a, ha⟩ : ∃ a : Nat, (q + 1074).toNat = a := ⟨_, rfl⟩
  have hka : sh + a = k + 925 := by omega
  have hdm : m / 2 ^ sh * 2 ^ sh + m % 2 ^ sh = m := by rw [Nat.mul_comm]; exact Nat.div_add_mod m (2 ^ sh)
  have hn24 : m / 2 ^ sh < 2 ^ 24 := by
    rw [Nat.div_lt_iff_lt_mul (Nat.two_pow_pos _), ← Nat.pow_add]
    exact Nat.lt_of_lt_of_le hl2 (Nat.pow_le_pow_right (by omega) (by omega))
  have hn23 : -126 ≤ (L + q : Int) → 2 ^ 23 ≤ m / 2 ^ sh := by
    intro h
    rw [Nat.le_div_iff_mul_le (Nat.two_pow_pos _), ← Nat.pow_add]
    exact Nat.le_trans (Nat.pow_le_pow_right (by omega) (by omega)) hl1
  have hnt : (L + q : Int) < -126 → m / 2 ^ sh < 2 ^ 23 := by
    intro h
    rw [Nat.div_lt_iff_lt_mul (Nat.two_pow_pos _), ← Nat.pow_add]
    exact Nat.lt_of_lt_of_le hl2 (Nat.pow_le_pow_right (by omega) (by omega))
  have hr : m % 2 ^ sh < 2 ^ sh := Nat.mod_lt _ (Nat.two_pow_pos _)
  refine ⟨k, m / 2 ^ sh, m % 2 ^ sh * 2 ^ a, ?_, ?_, hn24, ?_, ?_, ?_⟩
  · rw [ha, ← hka, Nat.pow_add, ← Nat.mul_assoc, ← Nat.add_mul, hdm]
  · rw [← hka, Nat.pow_add]
    exact Nat.mul_lt_mul_of_pos_right hr (Nat.two_pow_pos _)
  · by_cases h : -126 ≤ (L + q : Int)
    · exact .inr (hn23 h)
    · exact .inl (by omega)
  · rw [he]
    constructor
    · exact fun h => ⟨by omega, hnt h⟩
    · intro h
      by_contra hc
      have := hn23 (by omega)
      omega
  · have hup : roundsUp rn s (m / 2 ^ sh) (m % 2 ^ sh) (2 ^ (sh - 1)) =
        upOf rn s (m / 2 ^ sh) (m % 2 ^ sh * 2 ^ a) (2 ^ (k + 925)) := by
      rw [← hka]; exact roundsUp_eq rn s _ _ sh a (by omega)
    have hsh' : (max (topExponent m q) (-126) - 23 - q).toNat = sh := by rw [he]; omega
    have hx := (bne_zero_scaled (m % 2 ^ sh) a).symm
    have hs : roundShift rn s m sh = m / 2 ^ sh + (upOf rn s (m / 2 ^ sh) (m % 2 ^ sh * 2 ^ a) (2 ^ (k + 925))).toNat := by
      rw [roundShift, hup]
      cases upOf rn s (m / 2 ^ sh) (m % 2 ^ sh * 2 ^ a) (2 ^ (k + 925)) <;> rfl
    have htl := isTiny_lt t rn s m q
    unfold narrowFinite
    dsimp only
    rw [hsh', hs, hx]
    generalize upOf rn s (m / 2 ^ sh) (m % 2 ^ sh * 2 ^ a) (2 ^ (k + 925)) = up
    generalize isTiny t rn s m q = tiny at *
    generalize (m % 2 ^ sh * 2 ^ a != 0) = inexact
    generalize m / 2 ^ sh = n at *
    have hup1 : up.toNat ≤ 1 := Bool.toNat_le up
    rw [he] at *
    by_cases hf : (tiny && ni) = true
    · rw [if_pos hf, if_pos hf]
    · rw [if_neg hf, if_neg hf]
      by_cases h126 : -126 ≤ (L + q : Int)
      · have ht : tiny = false := by
          cases tiny
          · rfl
          · have := htl rfl
            omega
        have := hn23 h126
        rw [if_pos h126, ht]
        have hkk : (k : Int) = L + q + 126 := by omega
        rcases Nat.lt_or_ge (n + up.toNat) (2 ^ 24) with hc | hc
        · have hne : ¬(n + up.toNat = 2 ^ 24) := by omega
          simp only [if_neg hne]
          by_cases ho : 127 < (L + q : Int)
          · rw [if_pos ho, if_neg (by omega), decide_eq_true (by omega)]
            simp
          · rw [if_neg ho, if_pos (by omega), decide_eq_false (by omega), show (L + q + 127 : Int) = (k : Int) + 1 by omega,
              normal_pattern k _ (by omega) hc (by omega)]
            simp [Nat.add_assoc]
        · have hc' : n + up.toNat = 2 ^ 24 := by omega
          simp only [if_pos hc']
          by_cases ho : 127 < (L + q + 1 : Int)
          · rw [if_pos ho, if_neg (by omega), decide_eq_true (by omega)]
            simp
          · rw [if_neg ho, if_pos (by omega), decide_eq_false (by omega), show (L + q + 1 + 127 : Int) = (k + 1 : Nat) + 1 by omega,
              normal_pattern (k + 1) _ (by omega) (by omega) (by omega), show (k + 1) * 2 ^ 23 + 2 ^ 23 = k * 2 ^ 23 + n + up.toNat by omega]
            simp
      · have := hnt (by omega)
        obtain rfl : k = 0 := by omega
        rw [if_neg h126, if_pos (by omega), decide_eq_false (by omega), Nat.zero_mul, Nat.zero_add]
        simp

/-! ### The parts of a pattern -/

theorem exp64_toNat (x : DWord) : exp64 x = x.toNat / 2 ^ 52 % 2 ^ 11 := by
  simp only [exp64, extract_toNat]

theorem frac64_toNat (x : DWord) : frac64 x = x.toNat % 2 ^ 52 := by
  simp only [frac64, extract_toNat, Nat.pow_zero, Nat.div_one]

theorem exp32_toNat (y : Word) : exp32 y = y.toNat / 2 ^ 23 % 2 ^ 8 := by
  simp only [exp32, extract_toNat]

theorem frac32_toNat (y : Word) : frac32 y = y.toNat % 2 ^ 23 := by
  simp only [frac32, extract_toNat, Nat.pow_zero, Nat.div_one]

@[simp] theorem mag32_pack32 (s : Bool) (p : BitVec 31) : mag32 (pack32 s p) = p := by
  apply BitVec.eq_of_toNat_eq
  have := p.isLt
  simp only [mag32, pack32, extract_toNat, append_toNat]
  omega

theorem sign_pack32 (s : Bool) (p : BitVec 31) : (pack32 s p).getLsbD 31 = s := by
  simp only [pack32, BitVec.getLsbD_append]
  simp

/-- A pattern is its sign and its magnitude. -/
theorem pack32_parts (y : Word) : pack32 (y.getLsbD 31) (mag32 y) = y := by
  apply BitVec.eq_of_toNat_eq
  have := y.isLt
  have h : (BitVec.ofBool (y.getLsbD 31)).toNat = y.toNat / 2 ^ 31 := by
    have hb : y.getLsbD 31 = decide (y.toNat / 2 ^ 31 % 2 = 1) := by
      rw [BitVec.getLsbD, Nat.testBit_eq_decide_div_mod_eq]
    rw [hb]
    by_cases hc : y.toNat / 2 ^ 31 % 2 = 1
    · rw [decide_eq_true hc]; simp only [BitVec.toNat_ofBool, Bool.toNat_true]; omega
    · rw [decide_eq_false hc]; simp only [BitVec.toNat_ofBool, Bool.toNat_false]; omega
  simp only [mag32, pack32, append_toNat, extract_toNat, h]
  omega

/-- A finite value in the form of R72. -/
theorem significand64_bounds (x : DWord) :
    significand64 x < 2 ^ 53 ∧ -1074 ≤ scale64 x ∧ (2 ^ 52 ≤ significand64 x ∨ scale64 x = -1074) := by
  have h1 : frac64 x < 2 ^ 52 := by rw [frac64_toNat]; omega
  unfold significand64 scale64
  split <;> omega

theorem finite_iff (x : DWord) : isNan64 x = false ∧ isInf64 x = false ↔ exp64 x ≠ 2047 := by
  unfold isNan64 isInf64
  cases h : exp64 x == 2047 <;> cases h' : frac64 x == 0 <;> simp_all

theorem significand64_zero_iff (x : DWord) : significand64 x = 0 ↔ units64 x = 0 := by
  rw [units64, Nat.mul_eq_zero]
  exact (or_iff_left (Nat.pos_iff_ne_zero.1 (Nat.two_pow_pos _))).symm

/-- What `SFD_ieee` returns for a finite value other than zero: `narrowFinite_frame` in the terms of the contract. -/
theorem sfdIeee_frame (t : Tininess) (drawn : Option (BitVec 23)) (x : DWord) (rn : BitVec 2) (ni : Bool)
    (hf : exp64 x ≠ 2047) (hz : units64 x ≠ 0) :
    ∃ k n r : Nat, units64 x = n * 2 ^ (k + 925) + r ∧ r < 2 ^ (k + 925) ∧ n < 2 ^ 24 ∧ (k = 0 ∨ 2 ^ 23 ≤ n) ∧
      (topExponent (significand64 x) (scale64 x) < -126 ↔ k = 0 ∧ n < 2 ^ 23) ∧
      let p := k * 2 ^ 23 + n + (upOf rn (sign64 x) n r (2 ^ (k + 925))).toNat
      let tiny := isTiny t rn (sign64 x) (significand64 x) (scale64 x)
      sfdIeee t drawn x rn ni =
        if tiny && ni then { word := pack32 (sign64 x) 0, xx := true, ox := false, ux := true, vxsnan := false }
        else
          { word := pack32 (sign64 x) (if p < 0x7F800000 then BitVec.ofNat 31 p else overflowMagnitude rn (sign64 x))
            xx := r != 0 || decide (0x7F800000 ≤ p), ox := decide (0x7F800000 ≤ p)
            ux := tiny && r != 0, vxsnan := false } := by
  obtain ⟨h1, h2, h3⟩ := significand64_bounds x
  obtain ⟨hn, hi⟩ := (finite_iff x).2 hf
  have hs : significand64 x ≠ 0 := fun h => hz ((significand64_zero_iff x).1 h)
  have := narrowFinite_frame t (sign64 x) (significand64 x) (scale64 x) rn ni (Nat.pos_of_ne_zero hs) h1 h2 h3
  unfold sfdIeee
  simp only [hn, hi, hs, if_false, Bool.false_eq_true]
  exact this

/-! ### Widening -/

/-- The exponent and the fraction of a widened pattern, by its kind (section 2). -/
theorem widen_parts (y : Word) :
    sign64 (widen y) = y.getLsbD 31 ∧
    (exp32 y = 255 → exp64 (widen y) = 2047 ∧ frac64 (widen y) = 0) ∧
    (exp32 y ≠ 255 → exp32 y ≠ 0 → exp64 (widen y) = exp32 y + 896 ∧ frac64 (widen y) = frac32 y * 2 ^ 29) ∧
    (exp32 y = 0 → frac32 y = 0 → exp64 (widen y) = 0 ∧ frac64 (widen y) = 0) ∧
    (exp32 y = 0 → frac32 y ≠ 0 → exp64 (widen y) = (frac32 y).log2 + 874 ∧
      frac64 (widen y) = (frac32 y - 2 ^ (frac32 y).log2) * 2 ^ (52 - (frac32 y).log2)) := by
  have hy := y.isLt
  have he : exp32 y < 256 := by rw [exp32_toNat]; omega
  have hf : frac32 y < 2 ^ 23 := by rw [frac32_toNat]; omega
  have hs : (y.extractLsb' 31 1).toNat < 2 := (y.extractLsb' 31 1).isLt
  have hsg : y.getLsbD 31 = decide ((y.extractLsb' 31 1).toNat = 1) := by
    rw [BitVec.getLsbD, Nat.testBit_eq_decide_div_mod_eq, extract_toNat]
    simp
  have hsx : ∀ x : DWord, sign64 x = decide (x.toNat / 2 ^ 63 = 1) := by
    intro x
    have := x.isLt
    rw [sign64, BitVec.getLsbD, Nat.testBit_eq_decide_div_mod_eq]
    exact decide_eq_decide.2 (by omega)
  rw [hsx, hsg, exp64_toNat, frac64_toNat]
  by_cases h1 : exp32 y = 255
  · have hw : widen y = y.extractLsb' 31 1 ++ 2047#11 ++ 0#52 := by simp only [widen, h1, if_true]
    rw [hw]
    simp only [append_toNat, BitVec.toNat_ofNat]
    refine ⟨decide_eq_decide.2 (by omega), fun _ => by omega, fun h => absurd h1 h, fun h => by omega, fun h => by omega⟩
  by_cases h2 : exp32 y = 0
  · by_cases h3 : frac32 y = 0
    · have hw : widen y = y.extractLsb' 31 1 ++ 0#63 := by simp [widen, h2, h3]
      rw [hw]
      simp only [append_toNat, BitVec.toNat_ofNat]
      exact ⟨decide_eq_decide.2 (by omega), fun h => by omega, fun _ h => by omega, fun _ _ => by omega, fun _ h => by omega⟩
    · have hw : widen y = y.extractLsb' 31 1 ++ BitVec.ofNat 11 ((frac32 y).log2 + 874) ++
          BitVec.ofNat 52 ((frac32 y - 2 ^ (frac32 y).log2) * 2 ^ (52 - (frac32 y).log2)) := by
        simp [widen, h2, h3]
      have hl1 : 2 ^ (frac32 y).log2 ≤ frac32 y := Nat.log2_self_le h3
      have hl2 : frac32 y < 2 ^ ((frac32 y).log2 + 1) := Nat.lt_log2_self
      have hl3 : (frac32 y).log2 < 23 := by
        by_contra hc
        have : 2 ^ 23 ≤ 2 ^ (frac32 y).log2 := Nat.pow_le_pow_right (by omega) (by omega)
        omega
      have hb : (frac32 y - 2 ^ (frac32 y).log2) * 2 ^ (52 - (frac32 y).log2) < 2 ^ 52 := by
        calc _ < 2 ^ (frac32 y).log2 * 2 ^ (52 - (frac32 y).log2) :=
              Nat.mul_lt_mul_of_pos_right (by rw [Nat.pow_succ] at hl2; omega) (Nat.two_pow_pos _)
          _ = 2 ^ 52 := by rw [← Nat.pow_add]; congr 1; omega
      rw [hw]
      simp only [append_toNat, BitVec.toNat_ofNat]
      generalize (frac32 y - 2 ^ (frac32 y).log2) * 2 ^ (52 - (frac32 y).log2) = z at *
      exact ⟨decide_eq_decide.2 (by omega), fun h => by omega, fun _ h => by omega, fun _ h => absurd h h3, fun _ _ => by omega⟩
  · have hw : widen y = y.extractLsb' 31 1 ++ BitVec.ofNat 11 (exp32 y + 896) ++ y.extractLsb' 0 23 ++ 0#29 := by
      simp [widen, h1, h2]
    have hf' : (y.extractLsb' 0 23).toNat = frac32 y := rfl
    rw [hw]
    simp only [append_toNat, BitVec.toNat_ofNat, hf']
    exact ⟨decide_eq_decide.2 (by omega), fun h => absurd h h1, fun _ _ => by omega, fun h => absurd h h2, fun h => absurd h h2⟩

/-- A widened pattern, narrowed, is the pattern again. -/
theorem exactOf_widen (y : Word) (h : isNan32 y = false) : exactOf (widen y) = some y := by
  obtain ⟨hs, h1, h2, h3, h4⟩ := widen_parts y
  have hm : (mag32 y).toNat = exp32 y * 2 ^ 23 + frac32 y := by
    have := y.isLt
    rw [exp32_toNat, frac32_toNat]
    simp only [mag32, extract_toNat]
    omega
  have hel : exp32 y < 256 := by rw [exp32_toNat]; omega
  have hfl : frac32 y < 2 ^ 23 := by rw [frac32_toNat]; omega
  have key : ∀ p : BitVec 31, p.toNat = exp32 y * 2 ^ 23 + frac32 y → pack32 (sign64 (widen y)) p = y := by
    intro p hp
    rw [hs, show p = mag32 y from BitVec.eq_of_toNat_eq (hp.trans hm.symm)]
    exact pack32_parts y
  have fin : ∀ z : Word, z = y → (if widen z = widen y then some z else none) = some y := by
    rintro _ rfl
    simp
  unfold exactOf
  apply fin
  by_cases c1 : exp32 y = 255
  · have : frac32 y = 0 := by
      by_contra hc
      simp [isNan32, c1, hc] at h
    rw [if_pos (h1 c1).1, key _ (by rw [c1, this]; rfl)]
  by_cases c2 : exp32 y = 0
  · by_cases c3 : frac32 y = 0
    · obtain ⟨e1, e2⟩ := h3 c2 c3
      rw [if_neg (by omega), if_neg (by omega), if_neg (by omega), key _ (by rw [c2, c3]; rfl)]
    · obtain ⟨e1, e2⟩ := h4 c2 c3
      have hl1 : 2 ^ (frac32 y).log2 ≤ frac32 y := Nat.log2_self_le c3
      have hl3 : (frac32 y).log2 < 23 := by
        by_contra hc
        have : 2 ^ 23 ≤ 2 ^ (frac32 y).log2 := Nat.pow_le_pow_right (by omega) (by omega)
        omega
      rw [if_neg (by omega), if_neg (by omega), if_pos (by omega), key]
      rw [e1, e2, show (frac32 y).log2 + 874 - 874 = (frac32 y).log2 by omega,
        show 926 - ((frac32 y).log2 + 874) = 52 - (frac32 y).log2 by omega, Nat.mul_div_cancel _ (Nat.two_pow_pos _)]
      simp only [BitVec.toNat_ofNat]
      omega
  · obtain ⟨e1, e2⟩ := h2 c1 c2
    rw [if_neg (by omega), if_pos (by omega), key]
    have : ((widen y).extractLsb' 29 23).toNat = frac32 y := by
      rw [extract_toNat]; rw [frac64_toNat] at e2; omega
    simp only [append_toNat, this, e1, BitVec.toNat_ofNat]
    omega

/-- A pattern with an exact narrowing is its widening. -/
theorem widen_of_exactOf (x : DWord) (y : Word) (h : exactOf x = some y) : widen y = x := by
  unfold exactOf at h
  dsimp only at h
  generalize (if exp64 x = 2047 then _ else _ : Word) = z at h
  split at h
  · cases h; assumption
  · cases h

/-- The units of a widened pattern are those of its magnitude. -/
theorem units64_widen (y : Word) (h : exp32 y ≠ 255) : units64 (widen y) = units32 (mag32 y).toNat := by
  obtain ⟨hs, h1, h2, h3, h4⟩ := widen_parts y
  have hm : (mag32 y).toNat = exp32 y * 2 ^ 23 + frac32 y := by
    have := y.isLt
    rw [exp32_toNat, frac32_toNat]
    simp only [mag32, extract_toNat]
    omega
  have hfl : frac32 y < 2 ^ 23 := by rw [frac32_toNat]; omega
  rw [hm]
  unfold units64 significand64 scale64
  by_cases c2 : exp32 y = 0
  · by_cases c3 : frac32 y = 0
    · obtain ⟨e1, e2⟩ := h3 c2 c3
      rw [e1, e2, c2, c3, if_neg (by omega), Nat.zero_mul, Nat.zero_mul, Nat.zero_add, units32_zero]
    · obtain ⟨e1, e2⟩ := h4 c2 c3
      have hl1 : 2 ^ (frac32 y).log2 ≤ frac32 y := Nat.log2_self_le c3
      have hl3 : (frac32 y).log2 < 23 := by
        by_contra hc
        have : 2 ^ 23 ≤ 2 ^ (frac32 y).log2 := Nat.pow_le_pow_right (by omega) (by omega)
        omega
      have hu := units32_grid 0 (frac32 y) (by omega) (.inl rfl)
      rw [c2, hu, if_pos (by omega), if_pos (by omega), e1, e2]
      have ee : ((((frac32 y).log2 + 874 : Nat) : Int) - 1075 + 1074).toNat = (frac32 y).log2 + 873 := by omega
      have e5 : 2 ^ 52 + (frac32 y - 2 ^ (frac32 y).log2) * 2 ^ (52 - (frac32 y).log2) = frac32 y * 2 ^ (52 - (frac32 y).log2) := by
        have : 2 ^ 52 = 2 ^ (frac32 y).log2 * 2 ^ (52 - (frac32 y).log2) := by
          rw [← Nat.pow_add, show (frac32 y).log2 + (52 - (frac32 y).log2) = 52 by omega]
        rw [this, ← Nat.add_mul, Nat.add_sub_cancel' hl1]
      rw [ee, e5, Nat.mul_assoc, ← Nat.pow_add, show 52 - (frac32 y).log2 + ((frac32 y).log2 + 873) = 0 + 925 by omega]
  · obtain ⟨e1, e2⟩ := h2 h c2
    have hu := units32_grid (exp32 y - 1) (2 ^ 23 + frac32 y) (by omega) (.inr (by omega))
    rw [show exp32 y * 2 ^ 23 + frac32 y = (exp32 y - 1) * 2 ^ 23 + (2 ^ 23 + frac32 y) by omega, hu, if_pos (by omega),
      if_pos (by omega), e1, e2]
    have ee : ((exp32 y + 896 : Nat) - 1075 + 1074 : Int).toNat = exp32 y + 895 := by omega
    rw [ee, show 2 ^ 52 + frac32 y * 2 ^ 29 = (2 ^ 23 + frac32 y) * 2 ^ 29 by omega, Nat.mul_assoc, ← Nat.pow_add,
      show 29 + (exp32 y + 895) = exp32 y - 1 + 925 by omega]

/-- A zero is stored as it is. -/
theorem sfdIeee_zero (t : Tininess) (drawn : Option (BitVec 23)) (x : DWord) (rn : BitVec 2) (ni : Bool)
    (hf : exp64 x ≠ 2047) (hz : units64 x = 0) :
    sfdIeee t drawn x rn ni = { word := pack32 (sign64 x) 0, xx := false, ox := false, ux := false, vxsnan := false } := by
  obtain ⟨hn, hi⟩ := (finite_iff x).2 hf
  simp [sfdIeee, hn, hi, (significand64_zero_iff x).2 hz]

/-! ### What follows for the magnitude -/

/-- Nothing left over is never rounded up. -/
theorem upOf_zero (rn : BitVec 2) (s : Bool) (n unit : Nat) (h : 0 < unit) : upOf rn s n 0 unit = false := by
  unfold upOf
  split
  · rw [decide_eq_false (by omega), decide_eq_false (by omega)]
    rfl
  · split
    · rfl
    · split <;> rfl

/-- An overflow gives infinity or the largest finite magnitude. -/
theorem overflowMagnitude_toNat (rn : BitVec 2) (s : Bool) :
    (overflowMagnitude rn s).toNat = 0x7F800000 ∨ (overflowMagnitude rn s).toNat = 0x7F7FFFFF := by
  unfold overflowMagnitude
  split <;> simp

/-- The frame in values: `x` lies less than a unit above the magnitude `k * 2^23 + n`, and the next is a unit above it. -/
theorem frame_values (x : DWord) (k n r : Nat) (h1 : units64 x = n * 2 ^ (k + 925) + r) (h2 : r < 2 ^ (k + 925))
    (h3 : n < 2 ^ 24) (h4 : k = 0 ∨ 2 ^ 23 ≤ n) :
    ∃ unit : Nat, unit = 2 ^ (k + 925) ∧ r < unit ∧ units64 x = units32 (k * 2 ^ 23 + n) + r ∧
      units32 (k * 2 ^ 23 + n + 1) = units32 (k * 2 ^ 23 + n) + unit := by
  have hb := units32_grid k n (by omega) h4
  have hs : units32 (k * 2 ^ 23 + n + 1) = (n + 1) * 2 ^ (k + 925) := by
    rw [Nat.add_assoc]
    exact units32_grid k (n + 1) (by omega) (by omega)
  exact ⟨_, rfl, h2, by rw [hb, h1], by rw [hs, hb, Nat.add_mul, Nat.one_mul]⟩

/-! ### Tininess in values -/

/-- The units of the smallest normal magnitude, 2^-126. -/
theorem units32_smallestNormal : units32 0x00800000 = 2 ^ 53 * 2 ^ 895 :=
  calc units32 0x00800000 = units32 (0 * 2 ^ 23 + 2 ^ 23) := congrArg units32 (by norm_num)
    _ = 2 ^ 23 * 2 ^ (0 + 925) := units32_grid 0 (2 ^ 23) (by omega) (.inl rfl)
    _ = 2 ^ 53 * 2 ^ 895 := by rw [← Nat.pow_add, ← Nat.pow_add]

/-- A finite value in its parts, `2^895` units at a time: its leading bit, and where it lies. -/
theorem binade (x : DWord) (hz : units64 x ≠ 0) :
    (897 ≤ exp64 x ∧ 2 ^ 53 * 2 ^ 895 ≤ units64 x ∧ -126 ≤ topExponent (significand64 x) (scale64 x)) ∨
    (exp64 x = 896 ∧ 2 ^ 52 ≤ significand64 x ∧ significand64 x < 2 ^ 53 ∧ units64 x = significand64 x * 2 ^ 895 ∧
      (significand64 x).log2 = 52 ∧ topExponent (significand64 x) (scale64 x) = -127) ∨
    (exp64 x < 896 ∧ units64 x < 2 ^ 52 * 2 ^ 895 ∧ topExponent (significand64 x) (scale64 x) < -127) := by
  have h1 : frac64 x < 2 ^ 52 := by rw [frac64_toNat]; omega
  have hm : significand64 x ≠ 0 := fun h => hz ((significand64_zero_iff x).1 h)
  unfold topExponent units64
  by_cases he : 1 ≤ exp64 x
  · have hs : significand64 x = 2 ^ 52 + frac64 x := by simp [significand64, he]
    have hq : scale64 x = (exp64 x : Int) - 1075 := by simp [scale64, he]
    have hl : (2 ^ 52 + frac64 x).log2 = 52 := (Nat.log2_eq_iff (by omega)).2 ⟨by omega, by omega⟩
    rw [hs, hq, hl, show ((exp64 x : Int) - 1075 + 1074).toNat = exp64 x - 1 by omega]
    rcases Nat.lt_trichotomy (exp64 x) 896 with h | h | h
    · refine .inr (.inr ⟨h, ?_, by omega⟩)
      have h2 : 2 * 2 ^ (exp64 x - 1) ≤ 2 ^ 895 := by
        rw [← Nat.pow_succ']
        exact Nat.pow_le_pow_right (by omega) (by omega)
      have := Nat.mul_lt_mul_of_pos_right (show 2 ^ 52 + frac64 x < 2 ^ 52 * 2 by omega) (Nat.two_pow_pos (exp64 x - 1))
      rw [Nat.mul_assoc] at this
      exact Nat.lt_of_lt_of_le this (Nat.mul_le_mul_left _ h2)
    · exact .inr (.inl ⟨h, by omega, by omega, by rw [h], by omega, by omega⟩)
    · refine .inl ⟨h, ?_, by omega⟩
      have h2 : 2 * 2 ^ 895 ≤ 2 ^ (exp64 x - 1) := by
        rw [← Nat.pow_succ']
        exact Nat.pow_le_pow_right (by omega) (by omega)
      rw [show (2 : Nat) ^ 53 = 2 ^ 52 * 2 from rfl, Nat.mul_assoc]
      exact Nat.mul_le_mul (by omega) h2
  · have hs : significand64 x = frac64 x := by simp [significand64, he]
    have hq : scale64 x = -1074 := by simp [scale64, he]
    have hl : (frac64 x).log2 < 52 := (Nat.log2_lt (by rw [← hs]; exact hm)).2 h1
    rw [hs, hq, show ((-1074 : Int) + 1074).toNat = 0 by omega]
    refine .inr (.inr ⟨by omega, Nat.mul_lt_mul_of_lt_of_le h1 (Nat.pow_le_pow_right (by omega) (by omega)) (Nat.two_pow_pos _),
      by omega⟩)

/-- Judged before rounding (R72): below 2^-126. -/
theorem isTiny_before_iff (rn : BitVec 2) (x : DWord) (hz : units64 x ≠ 0) :
    isTiny .before rn (sign64 x) (significand64 x) (scale64 x) = true ↔ units64 x < units32 0x00800000 := by
  simp only [isTiny, decide_eq_true_eq, units32_smallestNormal]
  have hB := Nat.two_pow_pos 895
  have h := binade x hz
  generalize 2 ^ 895 = B at h hB
  rcases h with h | h | h
  · omega
  · have := Nat.mul_lt_mul_of_pos_right h.2.2.1 hB
    omega
  · omega

/-- R72's rounding to 24 bits of a value just below 2^-126 carries into 2^-126: from the half of the last unit on to nearest, above
the last unit away from zero, never otherwise. -/
theorem roundShift_carry_iff (rn : BitVec 2) (s : Bool) (m : Nat) (h1 : 2 ^ 52 ≤ m) (h2 : m < 2 ^ 53) :
    roundShift rn s m 29 = 2 ^ 24 ↔ (rn = 0b00 ∧ 2 ^ 53 ≤ m + 2 ^ 28) ∨
      (((rn = 0b10 ∧ s = false) ∨ (rn = 0b11 ∧ s = true)) ∧ 2 ^ 53 < m + 2 ^ 29) := by
  have hall : rn = 0b00 ∨ rn = 0b01 ∨ rn = 0b10 ∨ rn = 0b11 := by revert rn; decide
  unfold roundShift roundsUp
  rcases hall with rfl | rfl | rfl | rfl
  · simp
    split <;> omega
  · simp
    omega
  all_goals
    cases s <;> simp
    · first | omega | (split <;> omega)
    · first | omega | (split <;> omega)

/-- Judged after rounding (R72): the value rounded to 24 bits stays below 2^-126. -/
theorem isTiny_after_iff (rn : BitVec 2) (x : DWord) (hz : units64 x ≠ 0) :
    isTiny .after rn (sign64 x) (significand64 x) (scale64 x) = true ↔
      ¬((rn = 0b00 ∧ units32 0x00800000 ≤ units64 x + 2 ^ 923) ∨
        (((rn = 0b10 ∧ sign64 x = false) ∨ (rn = 0b11 ∧ sign64 x = true)) ∧ units32 0x00800000 < units64 x + 2 ^ 924) ∨
        units32 0x00800000 ≤ units64 x) := by
  simp only [isTiny, decide_eq_true_eq, units32_smallestNormal, show (2 : Nat) ^ 923 = 2 ^ 28 * 2 ^ 895 by rw [← Nat.pow_add],
    show (2 : Nat) ^ 924 = 2 ^ 29 * 2 ^ 895 by rw [← Nat.pow_add]]
  have hB := Nat.two_pow_pos 895
  have h := binade x hz
  unfold roundedExponent
  generalize 2 ^ 895 = B at h hB
  rcases h with ⟨_, h2, h3⟩ | ⟨_, h2, h3, h4, h5, h6⟩ | ⟨_, h2, h3⟩
  · constructor
    · intro h
      split at h <;> omega
    · intro h
      omega
  · rw [h5, h6, h4, ← Nat.add_mul, ← Nat.add_mul, Nat.mul_le_mul_right_iff hB, Nat.mul_lt_mul_right hB,
      Nat.mul_le_mul_right_iff hB]
    have hc := roundShift_carry_iff rn (sign64 x) (significand64 x) h2 h3
    constructor
    · intro h
      split at h
      · omega
      · rename_i hn
        rw [hc] at hn
        rintro (h | h | h)
        · exact hn (.inl h)
        · exact hn (.inr h)
        · omega
    · intro h
      rw [if_neg fun hr => h ((hc.1 hr).imp_right .inl)]
      omega
  · constructor
    · intro _
      rintro (⟨_, h⟩ | ⟨_, h⟩ | h) <;> omega
    · intro _
      split <;> omega

end Sys2Proof.Laws
end

