-- ==== Sys2Proof/Laws/Launch.lean ====
section
/-! SUPPORT. Launching: the program is placed, and nothing else. -/

namespace Sys2Proof.Laws

open Sys2Proof.Machine

/-- A byte outside the words reads as before. -/
theorem read_placeWords_other (ws : List Word) : ∀ (m : Memory) (addr a : Nat), a < addr ∨ addr + 4 * ws.length ≤ a →
    (m.placeWords addr ws).read a = m.read a := by
  induction ws with
  | nil => exact fun _ _ _ _ => rfl
  | cons w ws ih =>
    intro m addr a h
    simp only [List.length_cons] at h
    rw [Memory.placeWords, ih _ _ _ (by omega), read_writeWord_other _ _ _ _ (by omega)]

/-- Each word is at its address, "from the base upward" (R110 (b)). -/
theorem readWord_placeWords (ws : List Word) : ∀ (m : Memory) (addr k : Nat) (h : k < ws.length),
    (m.placeWords addr ws).readWord (addr + 4 * k) = some ws[k] := by
  induction ws with
  | nil => exact fun _ _ _ h => absurd h (by simp)
  | cons w ws ih =>
    intro m addr k h
    rw [Memory.placeWords]
    cases k with
    | zero =>
      rw [readWord_congr (m.writeWord addr w) _ _ fun j hj => read_placeWords_other ws _ _ _ (by omega)]
      simp
    | succ k =>
      have := ih (m.writeWord addr w) (addr + 4) k (by simpa using h)
      rw [show addr + 4 * (k + 1) = addr + 4 + 4 * k by omega, this]
      simp

theorem wf_placeWords (ws : List Word) : ∀ (m : Memory) (addr : Nat), m.wf → addr + 4 * ws.length ≤ 2 ^ 32 →
    (m.placeWords addr ws).wf := by
  induction ws with
  | nil => exact fun _ _ h _ => h
  | cons w ws ih =>
    intro m addr h ha
    simp only [List.length_cons] at ha
    exact ih _ _ (wf_writeWord m addr w h (by omega)) (by omega)

/-- The byte lies in the program text. -/
theorem code_contains (c : Code) (a : Nat) :
    c.range.contains a = true ↔ c.base.toNat ≤ a ∧ a < c.base.toNat + 4 * c.words.length := by
  simp only [Code.range, Range.contains, Bool.and_eq_true]
  exact and_congr decide_eq_true_iff decide_eq_true_iff

/-- A byte that was admitted still is. -/
theorem admitsByte_programConfig (c : Config) (code : Code) (kind : AccessKind) (a : Nat) (h : c.admitsByte kind a = true) :
    (programConfig c code).admitsByte kind a = true := by
  unfold programConfig Config.admitsByte at *
  dsimp only
  split
  · exact h
  · rw [List.any_cons, h, Bool.or_true]

/-- The program is admitted for fetch. -/
theorem admits_programConfig (c : Config) (code : Code) :
    (programConfig c code).admits code.base.toNat (4 * code.words.length) .fetch = true := by
  by_cases h : c.admits code.base.toNat (4 * code.words.length) .fetch = true
  · exact List.all_eq_true.2 fun k hk => admitsByte_programConfig c code .fetch _ (List.all_eq_true.1 h k hk)
  · refine List.all_eq_true.2 fun k hk => ?_
    have hk := List.mem_range.1 hk
    simp only [programConfig, Config.admitsByte, h, Bool.false_eq_true, if_false, List.any_cons, Region.permits, Bool.and_true,
      (code_contains code (code.base.toNat + k)).2 ⟨by omega, by omega⟩, Bool.true_or]

end Sys2Proof.Laws
end

