-- ==== Sys2Proof/Laws/PerInstr.lean ====
section
/-! SUPPORT. The family EncodesOwnRow: the word of an instruction selects the row of its own mnemonic in the table of R55, and
no other row. -/

namespace Sys2Proof.Laws.EncodesOwnRow

/-- The word of `i` selects a row exactly when the row has `i`'s mnemonic. -/
def Statement (i : Instr) : Prop :=
  ∀ r ∈ opcodeTable, r.selects (encode i) = true ↔ r.mnemonic = i.mnemonic

theorem selects_iff (r : OpcodeRow) (w : Word) : r.selects w = true ↔ (w &&& r.mask).toNat = r.pattern.toNat := by
  simp [OpcodeRow.selects, ← BitVec.toNat_inj]

/-- A form D row selects by the primary opcode. -/
theorem selects_formD (name : String) (p w : Word) (v : Nat) (hp : p.toNat = v * 2 ^ 26) :
    (OpcodeRow.mk name 0xFC000000 p).selects w = true ↔ w.toNat / 2 ^ 26 = v := by
  rw [selects_iff, mask_formD_toNat, hp]
  omega

/-- A form X row selects by the primary opcode, the extended opcode and Rc. -/
theorem selects_formX (name : String) (p w : Word) (x : Nat) (hp : p.toNat = 31 * 2 ^ 26 + x) (hx : x < 2 ^ 11) :
    (OpcodeRow.mk name 0xFC0007FF p).selects w = true ↔ w.toNat / 2 ^ 26 = 31 ∧ w.toNat % 2 ^ 11 = x := by
  rw [selects_iff, mask_formX_toNat, hp]
  have := w.isLt
  omega

/-- The table in numbers: which rows a word selects. -/
theorem statement_of (i : Instr)
    (h : ((encode i).toNat / 2 ^ 26 = 52 ↔ "stfs" = i.mnemonic) ∧ ((encode i).toNat / 2 ^ 26 = 53 ↔ "stfsu" = i.mnemonic) ∧
      ((encode i).toNat / 2 ^ 26 = 31 ∧ (encode i).toNat % 2 ^ 11 = 1326 ↔ "stfsx" = i.mnemonic) ∧
      ((encode i).toNat / 2 ^ 26 = 31 ∧ (encode i).toNat % 2 ^ 11 = 1390 ↔ "stfsux" = i.mnemonic)) : Statement i := by
  intro r hr
  simp only [opcodeTable, List.mem_cons, List.not_mem_nil, or_false] at hr
  rcases hr with rfl | rfl | rfl | rfl
  · exact (selects_formD _ _ _ 52 rfl).trans h.1
  · exact (selects_formD _ _ _ 53 rfl).trans h.2.1
  · exact (selects_formX _ _ _ 1326 rfl (by omega)).trans h.2.2.1
  · exact (selects_formX _ _ _ 1390 rfl (by omega)).trans h.2.2.2

theorem formD_opcd (o : BitVec 6) (fs ra : RegNum) (d : Int) : (formD o fs ra d).toNat / 2 ^ 26 = o.toNat := by
  have := fs.isLt; have := ra.isLt; have := (BitVec.ofInt 16 d).isLt
  rw [formD_toNat]
  omega

theorem formX_low (fs ra rb : RegNum) (xo : BitVec 10) :
    (formX fs ra rb xo).toNat / 2 ^ 26 = 31 ∧ (formX fs ra rb xo).toNat % 2 ^ 11 = xo.toNat * 2 := by
  have := fs.isLt; have := ra.isLt; have := rb.isLt; have := xo.isLt
  rw [formX_toNat]
  omega

theorem stfs (fs ra : RegNum) (d : Int) : Statement (.stfs fs ra d) := by
  have h := formD_opcd 52#6 fs ra d
  apply statement_of
  simp [encode, Instr.mnemonic, h, -Nat.reducePow]
  omega

theorem stfsu (fs ra : RegNum) (d : Int) : Statement (.stfsu fs ra d) := by
  have h := formD_opcd 53#6 fs ra d
  apply statement_of
  simp [encode, Instr.mnemonic, h, -Nat.reducePow]
  omega

theorem stfsx (fs ra rb : RegNum) : Statement (.stfsx fs ra rb) := by
  have h := formX_low fs ra rb 663
  apply statement_of
  simp only [encode, Instr.mnemonic, h.1, h.2]
  decide

theorem stfsux (fs ra rb : RegNum) : Statement (.stfsux fs ra rb) := by
  have h := formX_low fs ra rb 695
  apply statement_of
  simp only [encode, Instr.mnemonic, h.1, h.2]
  decide

end Sys2Proof.Laws.EncodesOwnRow
end

