-- ==== Sys2Proof/Laws/Step.lean ====
section
/-! SUPPORT. What a step and a move of a run can do, said once. -/

namespace Sys2Proof.Laws

open Sys2Proof.Machine

/-- A fetch that answers a word: pc aligned, the bytes admitted and holding that word (R42, R12). -/
theorem fetch_ok_iff (s : State) (w : Word) :
    fetch s = .ok w ↔
      s.cpu.pc.toNat % 4 = 0 ∧ s.cfg.admits s.cpu.pc.toNat 4 .fetch = true ∧ s.mem.readWord s.cpu.pc.toNat = some w := by
  unfold fetch
  split
  · rename_i h
    simp [h]
  · rename_i h
    split
    · rename_i ha
      split <;> rename_i hr <;> simp [hr, ha, show s.cpu.pc.toNat % 4 = 0 by omega]
    · rename_i ha
      simp [ha]

/-- A step that answers a next state: the agent has a step, a word is fetched and decodes, the store is ready, and the state is
its commit, settled, with the turn passed. -/
theorem step_next (s t : State) (h : step s = .next t) :
    s.cpu.stop = none ∧ atEnd s.cfg s.cpu = false ∧ ∃ w i, fetch s = .ok w ∧ decode w = .ok i ∧
      StoreReady (storeOpOf i) s ∧ t = afterExec i s (commitStore (storeOpOf i) s) := by
  unfold step at h
  split at h
  · rename_i st hst
    cases st <;> simp [stopOutcome, raise] at h
  · rename_i hst
    refine ⟨hst, ?_⟩
    split at h
    · simp at h
    · rename_i he
      refine ⟨by simpa using he, ?_⟩
      split at h
      · simp [raise] at h
      · rename_i w hw
        split at h
        · simp at h
        · rename_i i hi
          refine ⟨w, i, hw, hi, ?_⟩
          split at h
          · rename_i u hu
            obtain ⟨hr, rfl⟩ := (exec_next_iff _ _ _).1 hu
            exact ⟨hr, by simpa using h.symm⟩
          · simp at h
          · simp at h

/-- The step of an agent that has one, once its word is fetched and decoded. -/
theorem step_decoded (s : State) (w : Word) (i : Instr) (hst : s.cpu.stop = none) (he : atEnd s.cfg s.cpu = false)
    (hf : fetch s = .ok w) (hd : decode w = .ok i) :
    step s = match exec i s with
      | .next t => .next (afterExec i s t)
      | .fault f => .fault f
      | .refused r => .refused r := by
  simp only [step, hst, he, hf, hd]
  cases exec i s <;> rfl

/-- The converse of `step_next`: a fetched, decoded and ready store is stepped. -/
theorem step_ready (s : State) (w : Word) (i : Instr) (hst : s.cpu.stop = none) (he : atEnd s.cfg s.cpu = false)
    (hf : fetch s = .ok w) (hd : decode w = .ok i) (hr : StoreReady (storeOpOf i) s) :
    step s = .next (afterExec i s (commitStore (storeOpOf i) s)) := by
  rw [step_decoded s w i hst he hf hd, (exec_next_iff _ _ _).2 ⟨hr, rfl⟩]

/-! ### The state after exec's effect has settled and the turn has passed -/

@[simp] theorem afterExec_cfg (i : Instr) (s t : State) : (afterExec i s t).cfg = t.cfg := by simp [afterExec]
@[simp] theorem afterExec_res (i : Instr) (s t : State) : (afterExec i s t).res = t.res := by simp [afterExec]
@[simp] theorem afterExec_draws (i : Instr) (s t : State) : (afterExec i s t).draws = t.draws := by simp [afterExec]

theorem afterExec_mem (i : Instr) (s t : State) :
    (afterExec i s t).mem = (t.settle ((storeOpOf i).ea s.cpu) ((storeOpOf i).result s).word).mem := by simp [afterExec]
theorem afterExec_landings (i : Instr) (s t : State) :
    (afterExec i s t).landings = (t.settle ((storeOpOf i).ea s.cpu) ((storeOpOf i).result s).word).landings := by
  simp [afterExec]

theorem settle_agents (ea word : Word) (t : State) : (t.settle ea word).agents = t.agents := by
  simp [State.agents]

theorem afterExec_agents (i : Instr) (s t : State) : (afterExec i s t).agents.Perm t.agents := by
  unfold afterExec
  exact (nextTurn_agents _).trans (by rw [settle_agents])

/-- The agents after a commit: the one that moved, with its registers after the store, and the others as they were. -/
theorem commitStore_agents (op : StoreOp) (s : State) :
    (commitStore op s).agents = (s.me, (commitStore op s).cpu) :: s.others := rfl

/-! ### A move of a run -/

/-- A move is a step's next state, or the state unchanged but for the record of the stop, with the turn passed. -/
theorem advance_cases (s : State) :
    (∃ t, step s = .next t ∧ advance s = t) ∨
    (∃ f, step s = .fault f ∧ advance s = (s.recordStop (.fault f)).nextTurn) ∨
    (step s = .refused .runCompleted ∧ advance s = s.nextTurn) ∨
    (∃ r, r ≠ .runCompleted ∧ step s = .refused r ∧ advance s = (s.recordStop (.refusal r)).nextTurn) := by
  unfold advance
  split <;> rename_i h
  · exact .inl ⟨_, h, rfl⟩
  · exact .inr (.inl ⟨_, h, rfl⟩)
  · exact .inr (.inr (.inl ⟨h, rfl⟩))
  · rename_i r hr
    exact .inr (.inr (.inr ⟨r, fun e => hr (by rw [e]), h, rfl⟩))

end Sys2Proof.Laws
end

