-- ==== Sys2Proof/Tests/Slice0.lean ====
section
/-! SUPPORT. Tests: the vectors of spec/95_test_vectors.md, and a witness for the hypotheses of each obligation. Expected
results are those of the vectors ("S1", "V5", "2a"), or worked by hand from the rule named. -/

namespace Sys2Proof.Tests

open Sys2Proof.Machine Sys2Proof.Claims

/-! ### WellFormed refuses ill-formed terms -/

theorem test_wellFormed_stfs_above : (Instr.stfs 1 3 32768).wellFormed = false := by decide
theorem test_wellFormed_stfs_below : (Instr.stfs 1 3 (-32769)).wellFormed = false := by decide
theorem test_wellFormed_stfsu_above : (Instr.stfsu 1 3 32768).wellFormed = false := by decide
theorem test_wellFormed_stfsu_below : (Instr.stfsu 1 3 (-32769)).wellFormed = false := by decide
theorem test_wellFormed_bounds :
    (Instr.stfs 31 0 32767).wellFormed = true ∧ (Instr.stfsu 31 31 (-32768)).wellFormed = true := by decide
theorem test_invalidForm :
    (Instr.stfsu 1 0 8).invalidForm = true ∧ (Instr.stfsux 1 0 5).invalidForm = true ∧
    (Instr.stfsux 1 5 5).invalidForm = false ∧ (Instr.stfs 1 0 8).invalidForm = false := by decide

/-! ### Decoding: part 2a, the words written out field by field from R51, R52 and R55 -/

theorem test_decode_stfs : decode (0b110100#6 ++ 0b00001#5 ++ 0b00011#5 ++ 0b0000000000001000#16) = .ok (.stfs 1 3 8) := by
  decide
theorem test_decode_stfs_negative : decode 0xD3E1FFFC = .ok (.stfs 31 1 (-4)) := by decide
theorem test_decode_stfsu :
    decode (0b110101#6 ++ 0b01101#5 ++ 0b11111#5 ++ 0b1000000000000000#16) = .ok (.stfsu 13 31 (-32768)) := by decide
theorem test_decode_stfsu_ones : decode 0xD7FFFFFF = .ok (.stfsu 31 31 (-1)) := by decide
theorem test_decode_stfsx :
    decode (0b011111#6 ++ 0b00010#5 ++ 0b00100#5 ++ 0b00101#5 ++ 0b1010010111#10 ++ 0b0#1) = .ok (.stfsx 2 4 5) := by decide
theorem test_decode_stfsx_ones : decode 0x7FFFFD2E = .ok (.stfsx 31 31 31) := by decide
theorem test_decode_stfsux :
    decode (0b011111#6 ++ 0b00011#5 ++ 0b00100#5 ++ 0b00110#5 ++ 0b1010110111#10 ++ 0b0#1) = .ok (.stfsux 3 4 6) := by decide
theorem test_decode_stfsux_invalid_form : decode 0x7C202D6E = .ok (.stfsux 1 0 5) := by decide

/-- Part 2b: words that must not decode, each by its name. -/
theorem test_decode_rejects :
    decode 0x7C442D2F = .rejected (.recordForm 0x7C442D2F) ∧ decode 0x7C00056F = .rejected (.recordForm 0x7C00056F) ∧
    decode 0x7C00052C = .rejected (.outsideScope 0x7C00052C) ∧ decode 0xD8000000 = .rejected (.outsideScope 0xD8000000) ∧
    decode 0x00000000 = .rejected (.outsideScope 0) ∧ decode 0x60000000 = .rejected (.outsideScope 0x60000000) := by decide

theorem test_decode_truncated : decodeBytes [0xD0, 0x23, 0x00] = .rejected .truncated := by decide

/-- R42: in storage the byte at the lowest address holds the primary opcode. -/
theorem test_bytes : encodeBytes (.stfsx 2 4 5) = [0x7C, 0x44, 0x2D, 0x2E] := by decide

/-- The four opcode words of the source (part 1), and a row one bit too long. -/
theorem test_decodeTableWord :
    decodeTableWord 32 0xD0000000 = some (.stfs 0 0 0) ∧ decodeTableWord 32 0xD4000000 = some (.stfsu 0 0 0) ∧
    decodeTableWord 32 0x7C00052E = some (.stfsx 0 0 0) ∧ decodeTableWord 32 0x7C00056E = some (.stfsux 0 0 0) ∧
    decodeTableWord 32 0x7C00052F = none ∧ decodeTableWord 40 0xD0000000 = none := by decide

/-- No word selects two rows: two rows differ in a bit that both fix (R55). -/
theorem test_rows_do_not_overlap :
    opcodeTable.Pairwise fun r q => r.pattern &&& (r.mask &&& q.mask) ≠ q.pattern &&& (r.mask &&& q.mask) := by decide

/-! ### Small states -/

/-- An agent at 0x00010000 with `MSR.FP = 1`, one general register and `f1` given, all else zero. -/
def agentWith (r : RegNum) (v f1 : DWord) : Agent :=
  { resetAgent with gpr := resetAgent.gpr.set r.toNat v r.isLt, fpr := resetAgent.fpr.set 1 f1 }

/-- The one-word program `w` at 0x00010000. -/
def launch (w : Word) (a : Agent) : State :=
  { State.reset with
    cfg := { resetConfig with code := { base := 0x00010000, words := [w] } }
    cpu := a
    mem := Memory.writeWord [] 0x00010000 w }

/-- The same launch with other parameters. -/
def configured (s : State) (f : Config → Config) : State := { s with cfg := f s.cfg }

/-- The step answers a next state with this property. -/
def goesOn (o : Host.Outcome State Fault Refusal) (p : State → Bool) : Bool :=
  match o with
  | .next t => p t
  | .fault _ => false
  | .refused _ => false

/-- The step answers this fault. -/
def faultsWith (o : Host.Outcome State Fault Refusal) (f : Fault) : Bool :=
  match o with
  | .next _ => false
  | .fault g => g == f
  | .refused _ => false

/-- The step answers this refusal. -/
def refusedWith (o : Host.Outcome State Fault Refusal) (r : Refusal) : Bool :=
  match o with
  | .next _ => false
  | .fault _ => false
  | .refused q => q == r

def one : DWord := 0x3FF0000000000000
def tenth : DWord := 0x3FB999999999999A

/-! ### Step vectors, part 5 -/

def s1 : State := launch 0xD0230008 (agentWith 3 0x20000 one)

theorem test_S1 : goesOn (step s1) (fun t =>
    t.mem.readWord 0x20008 == some 0x3F800000 && t.cpu.pc == 0x00010004 && t.cpu.fpscr == s1.cpu.fpscr) = true := by decide

def s2 : State := launch 0xD0230008 { agentWith 3 0x20000 tenth with fpscr := { resetAgent.fpscr with rn := 0b01 } }

theorem test_S2 : goesOn (step s2) (fun t =>
    t.mem.readWord 0x20008 == some 0x3DCCCCCC && t.cpu.fpscr.xx && !t.cpu.fpscr.ox && t.cpu.fpscr.rn == 0b01) = true := by decide

theorem test_S3 : goesOn (step (configured s2 ({ · with profile := .xeniaRs }))) (fun t =>
    t.mem.readWord 0x20008 == some 0x3DCCCCCD && t.cpu.fpscr == s2.cpu.fpscr) = true := by decide

def s4 : State := launch 0xD0230008 { agentWith 3 0x20000 0x7FF0000000000001 with
  fpscr := { resetAgent.fpscr with xx := true } }

theorem test_S4 : goesOn (step s4) (fun t =>
    t.mem.readWord 0x20008 == some 0x7FC00000 && t.cpu.fpscr.vxsnan && t.cpu.fpscr.xx && !t.cpu.fpscr.ux) = true := by decide

def s5 : State := launch 0xD0230008 { agentWith 3 0x20000 one with msr := { fp := false } }

theorem test_S5 : faultsWith (step s5) (.floatingPointUnavailable 0x00010000) = true ∧
    goesOn (step (configured s5 ({ · with profile := .xeniaRs }))) (fun t => t.mem.readWord 0x20008 == some 0x3F800000) = true := by
  decide

def s6 : State := launch 0xD0230008 { agentWith 3 0x20000 one with unwritten := [.fpr 1, .gpr 3] }

/-- S6, S8: of two marked registers RA is the one reported (R93 (6)). -/
theorem test_S6 : faultsWith (step s6) (.unwrittenRegister 0x00010000 (.gpr 3)) = true := by decide

def s7 : State := launch 0xD0200008 { agentWith 3 0x20000 one with unwritten := [.gpr 0] }

theorem test_S7 : goesOn (step s7) (fun t => t.mem.readWord 8 == some 0x3F800000) = true := by decide

def s9 : State := launch 0xD023FFFD (agentWith 3 0 one)

theorem test_S9 : faultsWith (step s9) (.addressWrap 0x00010000 0xFFFFFFFD) = true := by decide

/-- Part 3: `stfs f1, -4(0)` reaches the last word of the space. -/
def sLast : State := launch 0xD020FFFC (agentWith 0 0xDEADBEEFDEADBEEF one)

theorem test_last_word : goesOn (step sLast) (fun t => t.mem.readWord 0xFFFFFFFC == some 0x3F800000) = true := by decide

/-- The platform of S10: the program for fetch, and 0x20000 to 0x20007 for stores. -/
def narrow (c : Config) : Config :=
  { c with regions := [{ range := { base := 0x10000, size := 4 }, store := true, fetch := true },
                     { range := { base := 0x20000, size := 8 }, store := true, fetch := false }] }

theorem test_S10 : faultsWith (step (configured s1 narrow)) (.dataStorage 0x00010000 0x20008) = true := by decide

def s11 : State := launch 0xD0230001 (agentWith 3 0x20000 one)

theorem test_S11 : goesOn (step s11) (fun t => t.mem.readWord 0x20001 == some 0x3F800000) = true := by decide

theorem test_S12 :
    faultsWith (step (configured s11 ({ · with cacheInhibited := [{ base := 0x20004, size := 1 }] })))
      (.alignment 0x00010000 0x20001) = true := by decide

def s13 : State :=
  configured (launch 0xD0230000 (agentWith 3 0x20004 one)) ({ · with cacheInhibited := [{ base := 0x20004, size := 1 }] })

theorem test_S13 : goesOn (step s13) (fun t => t.mem.readWord 0x20004 == some 0x3F800000) = true := by decide

def s14 : State := launch 0xD0230000 (agentWith 3 0x10002 one)

theorem test_S14 : faultsWith (step s14) (.storeToCode 0x00010000 0x10002) = true := by decide

def s15 : State := { s1 with res := [{ agent := 1, granule := 0x20008 / 128 }, { agent := 0, granule := 0x20080 / 128 }] }

theorem test_S15 : goesOn (step s15) (fun t => t.res == [{ agent := 0, granule := 0x20080 / 128 }]) = true := by decide

def s16 : State := launch 0xD4230004 (agentWith 3 0xFFFFFFFF0001FFFC one)

theorem test_S16 : goesOn (step s16) (fun t =>
    t.mem.readWord 0x20000 == some 0x3F800000 && t.cpu.readGpr 3 == 0x20000 && t.cpu.pc == 0x00010004) = true := by decide

/-- Note to part 3: the same under `full64`. -/
theorem test_S16_full64 : goesOn (step (configured s16 ({ · with writeBack := .full64 }))) (fun t =>
    t.mem.readWord 0x20000 == some 0x3F800000 && t.cpu.readGpr 3 == 0xFFFFFFFF00020000) = true := by decide

def s17 : State := launch 0xD4200008 (agentWith 0 0x20000 one)

theorem test_S17 : faultsWith (step s17) (.invalidForm 0x00010000 0xD4200008) = true ∧
    goesOn (step (configured s17 ({ · with profile := .xeniaRs }))) (fun t =>
      t.mem.readWord 0x20008 == some 0x3F800000 && t.cpu.readGpr 0 == 0x20008) = true := by decide

def s19 : State := launch 0x7C20252E (agentWith 4 0xFFFFFFFF00020000 one)

theorem test_S19 : goesOn (step s19) (fun t =>
    t.mem.readWord 0x20000 == some 0x3F800000 && t.cpu.gpr == s19.cpu.gpr) = true := by decide

def s20 : State := launch 0x7C252D6E (agentWith 5 0x10000 one)

theorem test_S20 : goesOn (step s20) (fun t =>
    t.mem.readWord 0x20000 == some 0x3F800000 && t.cpu.readGpr 5 == 0x20000) = true := by decide

/-- Part 3: `stfsx f1, r5, r5`, the sum of two upper halves lost. -/
theorem test_stfsx_carry : goesOn (step (launch 0x7C252D2E (agentWith 5 0x80010000 one))) (fun t =>
    t.mem.readWord 0x20000 == some 0x3F800000 && t.cpu.readGpr 5 == 0x80010000) = true := by decide

theorem test_S22 : refusedWith (step (launch 0x7C20252F (agentWith 4 0x20000 one))) (.notDecoded 0x00010000 0x7C20252F) = true := by
  decide

def s23 : State :=
  { State.reset with
    cpu := { agentWith 3 0x20000 one with pc := 0xFFFFFFFC }
    mem := Memory.writeWord [] 0xFFFFFFFC 0xD0230008 }

theorem test_S23 : faultsWith (step s23) (.pcWrap 0xFFFFFFFC) = true := by decide

def s24 : State := { s1 with cpu := { s1.cpu with pc := 0x00010002 } }

theorem test_S24 : faultsWith (step s24) (.instructionAlignment 0x00010002) = true := by decide

theorem test_S25 : faultsWith (step (configured s5 narrow)) (.floatingPointUnavailable 0x00010000) = true := by decide

/-- R42: a fetch from bytes that are not admitted, or hold no value. -/
theorem test_fetch_not_admitted :
    faultsWith (step (configured s1 ({ · with regions := [] }))) (.instructionStorage 0x00010000) = true ∧
    faultsWith (step { s1 with mem := [] }) (.instructionStorage 0x00010000) = true := by decide

/-- R115, R94: at END there is no further step; a recorded fault is answered again. -/
theorem test_no_further_step :
    refusedWith (step { s1 with cpu := { s1.cpu with pc := 0x00010004 } }) .runCompleted = true ∧
    faultsWith (step (advance s5)) (.floatingPointUnavailable 0x00010000) = true := by decide

/-- The host's launch of each opcode word at reset. With every operand field zero an update form is the invalid form of R57. -/
theorem test_withFetchWord :
    goesOn (step (State.reset.withFetchWord 32 0xD0000000)) (fun t => t.mem.readWord 0 == some 0) = true ∧
    goesOn (step (State.reset.withFetchWord 32 0x7C00052E)) (fun t => t.mem.readWord 0 == some 0) = true ∧
    faultsWith (step (State.reset.withFetchWord 32 0xD4000000)) (.invalidForm 0x00010000 0xD4000000) = true ∧
    faultsWith (step (State.reset.withFetchWord 32 0x7C00056E)) (.invalidForm 0x00010000 0x7C00056E) = true := by decide

/-! ### Conversion vectors, part 4 -/

/-- The words for RN = 00, 01, 10, 11 with NI = 0. -/
def words (x : DWord) : List Word := [0b00, 0b01, 0b10, 0b11].map fun rn => (sfdIeee .before none x rn false).word

/-- The flags XX, OX, UX, VXSNAN. -/
def flags (r : SfdResult) : List Bool := [r.xx, r.ox, r.ux, r.vxsnan]

theorem test_V5 : words 0x3FB999999999999A = [0x3DCCCCCD, 0x3DCCCCCC, 0x3DCCCCCD, 0x3DCCCCCC] := by decide
theorem test_V6 : words 0xBFB999999999999A = [0xBDCCCCCD, 0xBDCCCCCC, 0xBDCCCCCC, 0xBDCCCCCD] := by decide
theorem test_V8_V9 : words 0x3FF0000010000000 = [0x3F800000, 0x3F800000, 0x3F800001, 0x3F800000] ∧
    words 0x3FF0000030000000 = [0x3F800002, 0x3F800001, 0x3F800002, 0x3F800001] := by decide
theorem test_V12 : words 0x47EFFFFFF0000000 = [0x7F800000, 0x7F7FFFFF, 0x7F800000, 0x7F7FFFFF] ∧
    flags (sfdIeee .before none 0x47EFFFFFF0000000 0b00 false) = [true, true, false, false] ∧
    flags (sfdIeee .before none 0x47EFFFFFF0000000 0b01 false) = [true, false, false, false] := by decide
theorem test_V16 : words 0xC8078287F49C4A1D = [0xFF800000, 0xFF7FFFFF, 0xFF7FFFFF, 0xFF800000] := by decide
theorem test_V19 : words 0x380FFFFFFFFFFFFF = [0x00800000, 0x007FFFFF, 0x00800000, 0x007FFFFF] ∧
    flags (sfdIeee .before none 0x380FFFFFFFFFFFFF 0b00 false) = [true, false, true, false] ∧
    flags (sfdIeee .after none 0x380FFFFFFFFFFFFF 0b00 false) = [true, false, false, false] ∧
    (sfdIeee .before none 0x380FFFFFFFFFFFFF 0b00 true).word = 0 ∧
    (sfdIeee .after none 0x380FFFFFFFFFFFFF 0b00 true).word = 0x00800000 := by decide
theorem test_V20_V21 : words 0x3800000000000000 = [0x00400000, 0x00400000, 0x00400000, 0x00400000] ∧
    sfdIeee .before none 0xB800000000000000 0b00 true =
      { word := 0x80000000, xx := true, ox := false, ux := true, vxsnan := false } := by decide
theorem test_V24_V27 : words 0x3690000000000000 = [0, 0, 1, 0] ∧ words 0x0000000000000001 = [0, 0, 1, 0] ∧
    words 0x8000000000000001 = [0x80000000, 0x80000000, 0x80000000, 0x80000001] := by decide +kernel
theorem test_V30 : words 0xFFF0000000000000 = [0xFF800000, 0xFF800000, 0xFF800000, 0xFF800000] := by decide
theorem test_V32_V35 : (sfdIeee .before none 0xFFF82468A0000000 0b00 false).word = 0xFFC12345 ∧
    sfdIeee .before none 0x7FF4000000000000 0b00 false =
      { word := 0x7FE00000, xx := false, ox := false, ux := false, vxsnan := true } := by decide
/-- Section 2: the largest and the smallest denormal, widened. -/
theorem test_widen : widen 0x00000001 = 0x36A0000000000000 ∧ widen 0x807FFFFF = 0xB80FFFFFC0000000 ∧
    widen 0x7F7FFFFF = 0x47EFFFFFE0000000 := by decide

/-! ### Several agents: program P6 -/

/-- Agent 1 of P6, with its own r3. -/
def agent1 (r3 : DWord) : Agent := agentWith 3 r3 0xC004000000000000

/-- P6 (b) after agent 0 has stored 1.0 at 0x20000: agent 1 moves next, storing -2.5 there. -/
def p6b : State :=
  { launch 0xD0230000 (agent1 0x20000) with
    me := 1
    others := [(0, { agentWith 3 0x20000 one with pc := 0x00010004 })]
    mem := (Memory.writeWord [] 0x00010000 0xD0230000).writeWord 0x20000 0x3F800000
    landings := storeLandings 0 0x20000 0x3F800000 }

/-- What the order leaves of the `n` bytes from `a`. -/
def left (order : List Landing) (a n : Nat) : List (Option Byte) := (List.range n).map fun k => lastByte order (a + k)

/-- P6 (b): -2.5 takes its place before or after 1.0, by the draw, and one of the two words is left. -/
theorem test_P6b :
    left (place 0 { agent := 1, cells := wordCells 0x20000 0xC0200000 } p6b.landings) 0x20000 4 = [some 0xC0, some 0x20, some 0, some 0] ∧
    left (place 1 { agent := 1, cells := wordCells 0x20000 0xC0200000 } p6b.landings) 0x20000 4 = [some 0x3F, some 0x80, some 0, some 0] := by
  decide

/-- The order after agent 1's bytes C0 and 20 at 0x20002 and 0x20003 have taken their places by the given draws, among agent 0's
at 0x20001 to 0x20004. -/
def p6c (k0 k1 : Nat) : List Landing :=
  place k1 { agent := 1, cells := [(0x20003, 0x20)] } (place k0 { agent := 1, cells := [(0x20002, 0xC0)] }
    (storeLandings 0 0x20001 0x3F800000))

/-- P6 (c): the bytes are placed one by one, and all four outcomes are admitted. -/
theorem test_P6c :
    left (p6c 0 0) 0x20001 3 = [some 0x3F, some 0xC0, some 0x20] ∧ left (p6c 0 5) 0x20001 3 = [some 0x3F, some 0xC0, some 0x00] ∧
    left (p6c 4 0) 0x20001 3 = [some 0x3F, some 0x80, some 0x20] ∧ left (p6c 4 5) 0x20001 3 = [some 0x3F, some 0x80, some 0x00] := by
  decide

/-- R37: among two aligned words P, then Q, a byte of a third agent is over the later word or hidden; never over P beside Q. -/
theorem test_three_stores :
    (List.range 3).map (fun k => left (place k { agent := 2, cells := [(0x20002, 0x77)] }
      [{ agent := 1, cells := wordCells 0x20000 0x51525354 }, { agent := 0, cells := wordCells 0x20000 0x41424344 }]) 0x20000 4) =
    [[some 0x51, some 0x52, some 0x77, some 0x54], [some 0x51, some 0x52, some 0x53, some 0x54],
     [some 0x51, some 0x52, some 0x53, some 0x54]] := by decide

/-- R38 (c): a third agent's word may come before both P and the bytes of Q over it, or between them, or last; and R38 (a): an agent's
own word comes after what it stored there. -/
theorem test_word_among_bytes :
    (List.range 3).map (fun k => left (place k { agent := 2, cells := wordCells 0x20000 0x61626364 }
      [{ agent := 1, cells := [(0x20003, 0x51)] }, { agent := 0, cells := wordCells 0x20000 0x41424344 }]) 0x20000 4) =
    [[some 0x61, some 0x62, some 0x63, some 0x64], [some 0x61, some 0x62, some 0x63, some 0x51],
     [some 0x41, some 0x42, some 0x43, some 0x51]] ∧
    left (place 2 { agent := 1, cells := wordCells 0x20000 0x61626364 }
      [{ agent := 1, cells := [(0x20003, 0x51)] }, { agent := 0, cells := wordCells 0x20000 0x41424344 }]) 0x20000 4 =
      [some 0x61, some 0x62, some 0x63, some 0x64] := by decide

/-! ### Witnesses: concrete states and operands that meet the hypotheses of each obligation -/

/-- A ready store, shown condition by condition. -/
theorem ready (op : StoreOp) (s : State) (h : firstFault (storeFaults 0 op s) = none) : StoreReady op s :=
  (Laws.storeFaults_none_iff 0 op s).1 h

/-- A ready store completes. -/
theorem runs (i : Instr) (s : State) (h : StoreReady (storeOpOf i) s) : exec i s = .next (commitStore (storeOpOf i) s) :=
  (Laws.exec_next_iff _ _ _).2 ⟨h, rfl⟩

theorem ready_s1 : StoreReady (opStfs 1 3 8) s1 := ready _ _ (by decide)
theorem ready_s2 : StoreReady (opStfs 1 3 8) s2 := ready _ _ (by decide)
theorem ready_s16 : StoreReady (opStfsu 1 3 4) s16 := ready _ _ (by decide)
theorem ready_s19 : StoreReady (opStfsx 1 0 4) s19 := ready _ _ (by decide)
theorem ready_s20 : StoreReady (opStfsux 1 5 5) s20 := ready _ _ (by decide)

/-- The snapshot, with MSR.FP = 0 and r0 as the base of an update form. -/
def sXenia : State := configured s17 ({ · with profile := .xeniaRs })
theorem ready_sXenia : StoreReady (opStfsu 1 0 8) sXenia := ready _ _ (by decide)

theorem witness_DecodingAnEncodedInstructionGivesItBack :
    (Instr.stfs 31 0 32767).wellFormed = true ∧ (Instr.stfsu 0 31 (-32768)).wellFormed = true ∧
    (Instr.stfsx 31 31 31).wellFormed = true ∧ (Instr.stfsux 0 0 0).wellFormed = true := by decide

theorem witness_EncodingADecodedWordGivesItBack :
    decode 0xD7FFFFFF = .ok (.stfsu 31 31 (-1)) ∧ decode 0x7FFFFD6E = .ok (.stfsux 31 31 31) := by decide

theorem witness_DisplacementIsSignExtended :
    decode 0xD0227FFF = .ok (.stfs 1 2 32767) ∧ decode 0xD5BF8000 = .ok (.stfsu 13 31 (-32768)) := by decide

/-- A launch that has a step: nothing recorded and pc not at END. -/
theorem hasStep (s : State) (h1 : s.cpu.stop = none) (h2 : atEnd s.cfg s.cpu = false) : HasStep s :=
  ⟨h1, by simpa [atEnd, Code.finish] using h2⟩

theorem fetched (s : State) (w : Word) (h : s.cpu.pc.toNat % 4 = 0 ∧ s.cfg.admits s.cpu.pc.toNat 4 .fetch = true ∧
    s.mem.readWord s.cpu.pc.toNat = some w) : fetch s = .ok w :=
  (Laws.fetch_ok_iff s w).2 h

/-- The three clauses: Rc = 1 with either extended opcode, and a word of no row. -/
theorem witness_OtherWordsAreRefused :
    (HasStep (launch 0x7C00052F resetAgent) ∧ fetch (launch 0x7C00052F resetAgent) = .ok 0x7C00052F ∧
      0x7C00052F#32 &&& 0xFC0007FF = 0x7C00052F) ∧
    (HasStep (launch 0x7FFFFD6F resetAgent) ∧ fetch (launch 0x7FFFFD6F resetAgent) = .ok 0x7FFFFD6F ∧
      0x7FFFFD6F#32 &&& 0xFC0007FF = 0x7C00056F) ∧
    (HasStep (launch 0xD8000000 resetAgent) ∧ fetch (launch 0xD8000000 resetAgent) = .ok 0xD8000000 ∧
      0xD8000000#32 &&& 0xFC000000 ≠ 0xD0000000 ∧ 0xD8000000#32 &&& 0xFC000000 ≠ 0xD4000000 ∧
      0xD8000000#32 &&& 0xFC0007FF ≠ 0x7C00052E ∧ 0xD8000000#32 &&& 0xFC0007FF ≠ 0x7C00056E) :=
  ⟨⟨hasStep _ rfl (by decide), fetched _ _ (by decide), by decide⟩,
   ⟨hasStep _ rfl (by decide), fetched _ _ (by decide), by decide⟩,
   ⟨hasStep _ rfl (by decide), fetched _ _ (by decide), by decide⟩⟩

/-- Misaligned; aligned and not admitted; aligned, admitted and held, the last word of the space. -/
theorem witness_FetchIsAlignedAdmittedAndBigEndian :
    (HasStep s24 ∧ s24.cpu.pc.toNat % 4 ≠ 0) ∧
    (HasStep (configured s1 ({ · with regions := [] })) ∧ s1.cpu.pc.toNat % 4 = 0 ∧
      (configured s1 ({ · with regions := [] })).cfg.admits s1.cpu.pc.toNat 4 .fetch = false) ∧
    (HasStep s23 ∧ s23.cpu.pc.toNat % 4 = 0 ∧ s23.cfg.admits s23.cpu.pc.toNat 4 .fetch = true ∧
      s23.mem.read s23.cpu.pc.toNat = some 0xD0 ∧ s23.mem.read (s23.cpu.pc.toNat + 1) = some 0x23 ∧
      s23.mem.read (s23.cpu.pc.toNat + 2) = some 0x00 ∧ s23.mem.read (s23.cpu.pc.toNat + 3) = some 0x08) :=
  ⟨⟨hasStep _ rfl (by decide), by decide⟩, ⟨hasStep _ rfl (by decide), by decide, by decide⟩,
   ⟨hasStep _ rfl (by decide), by decide⟩⟩

theorem fetch_s1 : fetch s1 = .ok 0xD0230008 := fetched _ _ (by decide)
theorem fetch_s20 : fetch s20 = .ok 0x7C252D6E := fetched _ _ (by decide)

theorem witness_StepRunsTheDecodedInstruction :
    HasStep s1 ∧ fetch s1 = .ok 0xD0230008 ∧ decode 0xD0230008 = .ok (.stfs 1 3 8) :=
  ⟨hasStep _ rfl (by decide), fetch_s1, by decide⟩

theorem witness_OneAgentStepsByExecAlone :
    s20.others = [] ∧ HasStep s20 ∧ fetch s20 = .ok 0x7C252D6E ∧ decode 0x7C252D6E = .ok (.stfsux 1 5 5) :=
  ⟨rfl, hasStep _ rfl (by decide), fetch_s20, by decide⟩

theorem witness_LaunchedWordIsTheNextToRun : State.reset.cpu.pc.toNat % 4 = 0 ∧ s23.cpu.pc.toNat % 4 = 0 := by decide

theorem witness_StfsCompletes : StoreReady (opStfs 1 3 8) s1 ∧ StoreReady (opStfs 1 0 (-4)) sLast :=
  ⟨ready_s1, ready _ _ (by decide)⟩

theorem witness_StfsuCompletes : StoreReady (opStfsu 1 3 4) s16 ∧ s16.cfg.writeBack = .zext32 := ⟨ready_s16, rfl⟩

theorem witness_StfsxCompletes : StoreReady (opStfsx 1 0 4) s19 := ready_s19

theorem witness_StfsuxCompletes : StoreReady (opStfsux 1 5 5) s20 ∧ s20.cfg.writeBack = .zext32 := ⟨ready_s20, rfl⟩

/-- Both sides: a store that is ready, and one that is not. -/
theorem witness_StoreCompletesExactlyWhereReady :
    StoreReady (storeOpOf (.stfs 1 3 8)) s1 ∧ ¬StoreReady (storeOpOf (.stfs 1 3 8)) s5 :=
  ⟨ready_s1, fun h => absurd (h.fpEnabled rfl) (by decide)⟩

/-- Update forms with either write-back. -/
theorem witness_AddressIsTheSumOfTheLowHalves :
    (exec (.stfsu 1 3 4) s16 = .next (commitStore (opStfsu 1 3 4) s16) ∧ isUpdate (.stfsu 1 3 4) = true ∧
      s16.cfg.writeBack = .zext32) ∧
    (∃ t, exec (.stfsu 1 3 4) (configured s16 ({ · with writeBack := .full64 })) = .next t) :=
  ⟨⟨runs (.stfsu 1 3 4) s16 ready_s16, rfl, rfl⟩, ⟨_, runs (.stfsu 1 3 4) _ (ready _ _ (by decide))⟩⟩

/-- A store of the last four bytes; one a byte further; and one whose last byte is not admitted. -/
theorem witness_StoreWritesFourBytesMostSignificantFirst :
    exec (.stfs 1 0 (-4)) sLast = .next (commitStore (opStfs 1 0 (-4)) sLast) ∧
    ((s9.cpu.msr.fp = true ∧ isUpdate (.stfs 1 3 (-3)) = false) ∧ (∀ r ∈ readsOf (.stfs 1 3 (-3)), r ∉ s9.cpu.unwritten) ∧
      eaOf s9.cpu (.stfs 1 3 (-3)) = 0xFFFFFFFD) ∧
    (eaOf s1.cpu (.stfs 1 3 5) = 0x20005 ∧ (configured s1 narrow).cfg.admits 0x20005 4 .store = false ∧
      (configured s1 narrow).cfg.admits 0x20004 4 .store = true) :=
  ⟨runs (.stfs 1 0 (-4)) sLast (ready _ _ (by decide)), by decide, by decide⟩

theorem witness_ProgramCounterAdvancesByFour :
    (exec (.stfs 1 3 8) s1 = .next (commitStore (opStfs 1 3 8) s1) ∧ s1.cpu.pc.toNat % 4 = 0) ∧
    (HasStep s24 ∧ s24.cpu.pc.toNat % 4 ≠ 0) ∧
    (s23.cpu.pc = 0xFFFFFFFC ∧ StoreReady (storeOpOf (.stfs 1 3 8)) { s23 with cpu := { s23.cpu with pc := 0 } }) :=
  ⟨⟨runs (.stfs 1 3 8) s1 ready_s1, by decide⟩, ⟨hasStep _ rfl (by decide), by decide⟩, ⟨rfl, ready _ _ (by decide)⟩⟩

/-- The first two steps of P1: the second reads the r3 the first wrote. -/
theorem witness_NextInstructionSeesTheOneBefore :
    (∃ t u, exec (.stfsu 1 3 4) s16 = .next t ∧ exec (.stfsu 2 3 4) t = .next u) ∧
    isUpdate (.stfsu 1 3 4) = true ∧ raOf (.stfsu 2 3 4) = raOf (.stfsu 1 3 4) ∧ raOf (.stfsu 2 3 4) ≠ 0 ∧
    s16.cfg.writeBack = .zext32 ∧
    eaOf s16.cpu (.stfsu 1 3 4) + 4 ≤ eaOf (commitStore (opStfsu 1 3 4) s16).cpu (.stfsu 2 3 4) :=
  ⟨⟨_, _, runs (.stfsu 1 3 4) s16 ready_s16, runs (.stfsu 2 3 4) _ (ready _ _ (by decide))⟩, rfl, rfl, by decide, rfl, by decide⟩

theorem witness_StoreChangesNothingElse :
    exec (.stfsux 1 5 5) s20 = .next (commitStore (opStfsux 1 5 5) s20) := runs (.stfsux 1 5 5) s20 ready_s20

/-- Both forms; r0 marked in one state and not in the other, and read by neither. -/
theorem witness_LiteralZeroBaseDoesNotReadR0 :
    (∀ r, r ≠ .gpr 0 → (r ∈ s7.cpu.unwritten ↔ r ∈ sLast.cpu.unwritten)) ∧
    ((∃ fs d, Instr.stfs 1 0 (-4) = .stfs fs 0 d) ∨ (∃ fs rb, rb ≠ 0 ∧ Instr.stfs 1 0 (-4) = .stfsx fs 0 rb)) ∧
    ((∃ fs d, Instr.stfsx 1 0 4 = .stfs fs 0 d) ∨ (∃ fs rb, rb ≠ 0 ∧ Instr.stfsx 1 0 4 = .stfsx fs 0 rb)) := by
  refine ⟨fun r h => ?_, .inl ⟨1, -4, rfl⟩, .inr ⟨1, 4, by decide, rfl⟩⟩
  have h1 : s7.cpu.unwritten = [.gpr 0] := rfl
  have h2 : sLast.cpu.unwritten = [] := rfl
  simpa [h1, h2] using h

/-- r3 with another upper half. -/
theorem witness_UpperHalvesDoNotReachStorage :
    ∀ j : RegNum, ((agentWith 3 0xFFFFFFFF00020000 one).readGpr j).setWidth 32 = (s1.cpu.readGpr j).setWidth 32 := by decide

theorem witness_SnapshotIgnoresMsrAndFpscr : sXenia.cfg.profile = .xeniaRs := rfl

/-- Reservations on the granule stored to, on the one a straddling store also touches, and on another; all three settings. -/
def sStraddle : State :=
  { launch 0xD0230000 (agentWith 3 0x2007E one) with
    res := [{ agent := 1, granule := 0x400 }, { agent := 0, granule := 0x401 }, { agent := 2, granule := 0x402 }] }

theorem witness_StoreKillsTheReservationsOnItsGranule :
    (∃ t, exec (.stfs 1 3 0) sStraddle = .next t) ∧ eaOf sStraddle.cpu (.stfs 1 3 0) / sStraddle.cfg.granule = 0x400 ∧
    (eaOf sStraddle.cpu (.stfs 1 3 0) + 3) / sStraddle.cfg.granule = 0x401 ∧
    (∃ t, exec (.stfs 1 3 0) (configured sStraddle ({ · with profile := .xeniaRs })) = .next t) ∧
    (∃ t, exec (.stfs 1 3 0) (configured sStraddle ({ · with profile := .xeniaRs, reservationsEnabled := false })) = .next t) :=
  ⟨⟨_, runs (.stfs 1 3 0) _ (ready _ _ (by decide))⟩, by decide, by decide,
   ⟨_, runs (.stfs 1 3 0) _ (ready _ _ (by decide))⟩, ⟨_, runs (.stfs 1 3 0) _ (ready _ _ (by decide))⟩⟩

/-- The outcomes of the states below are the tests of R93's clauses above: test_S24, test_fetch_not_admitted, test_S22,
test_S5, test_S17, test_S6, test_S9, test_S10, test_S14, test_S12, test_S23 and test_S1. -/
theorem witness_OutcomesAreReportedInTheSpecsOrder :
    HasStep s24 ∧ HasStep (configured s1 ({ · with regions := [] })) ∧ HasStep { s1 with mem := [] } ∧
    HasStep (launch 0x7C20252F (agentWith 4 0x20000 one)) ∧ HasStep s5 ∧ HasStep s17 ∧ HasStep s6 ∧ HasStep s9 ∧
    HasStep (configured s1 narrow) ∧ HasStep s14 ∧
    HasStep (configured s11 ({ · with cacheInhibited := [{ base := 0x20004, size := 1 }] })) ∧ HasStep s23 ∧ HasStep s1 := by
  refine ⟨?_, ?_, ?_, ?_, ?_, ?_, ?_, ?_, ?_, ?_, ?_, ?_, ?_⟩ <;> exact hasStep _ rfl (by decide)

theorem witness_DisabledFloatingPointUnitFaults :
    (s5.cfg.profile = .hw ∧ s5.cpu.msr.fp = false) ∧ sXenia.cfg.profile = .xeniaRs := by decide

theorem witness_InvalidFormsFaultOnHardwareAndRunInTheSnapshot :
    (s17.cfg.profile = .hw ∧ s17.cpu.msr.fp = true ∧ isUpdate (.stfsu 1 0 8) = true ∧ raOf (.stfsu 1 0 8) = 0) ∧
    (sXenia.cfg.profile = .xeniaRs ∧ StoreReady (storeOpOf (.stfsu 1 0 8)) sXenia ∧ sXenia.cfg.writeBack = .zext32) ∧
    ((5 : RegNum) ≠ 0 ∧ StoreReady (opStfsux 1 5 5) s20) :=
  ⟨by decide, ⟨rfl, ready_sXenia, rfl⟩, by decide, ready_s20⟩

/-- Misaligned, with only the last of its four bytes cache-inhibited; aligned there; and misaligned just before the range. -/
theorem witness_AlignmentFaultsExactlyOnCacheInhibitedStorage :
    StoreReady (storeOpOf (.stfs 1 3 1)) { s11 with cfg := { s11.cfg with cacheInhibited := [] } } ∧
    (eaOf s11.cpu (.stfs 1 3 1) % 4 ≠ 0 ∧ eaOf s11.cpu (.stfs 1 3 1) + 3 = 0x20004) ∧
    (StoreReady (storeOpOf (.stfs 1 3 0)) { s13 with cfg := { s13.cfg with cacheInhibited := [] } } ∧
      eaOf s13.cpu (.stfs 1 3 0) % 4 = 0) :=
  ⟨ready _ _ (by decide), by decide, ready _ _ (by decide), by decide⟩

/-- One word of program is in place. -/
theorem code_one (s : State) (w : Word) (h : s.cfg.code = { base := 0x00010000, words := [w] })
    (hr : s.mem.readWord 0x00010000 = some w) : s.codeIntact := by
  intro k hk
  simp only [h] at hk ⊢
  obtain rfl : k = 0 := by simpa using hk
  exact hr

/-- A launch: one word of program in place, one agent. -/
theorem launch_s1 : s1.isLaunch where
  admitted := ⟨by decide, by decide⟩
  placed := code_one s1 0xD0230008 rfl (by decide)
  memWf := by decide
  memAdmitted := by decide
  resSet := by decide
  notStopped := by decide
  distinct := by decide
  vectors := by decide
  noLandings := rfl

/-- A state that meets the invariant, with one agent. -/
theorem inv_s1 : s1.inv where
  memWf := by decide
  memAdmitted := by decide
  admitted := ⟨by decide, by decide⟩
  code := code_one s1 0xD0230008 rfl (by decide)
  pcAligned := by decide
  distinct := by decide
  resSet := by decide
  legal := List.forall_mem_nil _
  clear := by decide
  landed := by decide
  alone := by decide

/-- A state that meets the invariant, with two agents, one of which has stored. -/
theorem inv_p6b : p6b.inv where
  memWf := by decide
  memAdmitted := by decide
  admitted := ⟨by decide, by decide⟩
  code := code_one p6b 0xD0230000 rfl (by decide)
  pcAligned := by decide
  distinct := by decide
  resSet := by decide
  legal := by
    intro l hl
    obtain rfl := List.mem_singleton.1 hl
    exact .inl ⟨0x20000, 0x3F800000, by decide, rfl⟩
  clear := by decide
  landed := by decide
  alone := by decide

theorem step_s1 : step s1 = .next (afterExec (.stfs 1 3 8) s1 (commitStore (opStfs 1 3 8) s1)) :=
  Laws.step_ready s1 0xD0230008 (.stfs 1 3 8) rfl (by decide) fetch_s1 (by decide) ready_s1

/-- The first byte of the store is the last of the program text; and a step from a state of the invariant. -/
theorem witness_ProgramTextIsFixed :
    (StoreReady (storeOpOf (.stfs 1 3 0))
      { launch 0xD0230000 (agentWith 3 0x10003 one) with cfg := { resetConfig with code := { base := 0x00010000, words := [] } } } ∧
      eaOf (agentWith 3 0x10003 one) (.stfs 1 3 0) + 0 < 0x00010000 + 4 * 1) ∧
    (s1.inv ∧ ∃ t, step s1 = .next t) :=
  ⟨⟨ready _ _ (by decide), by decide⟩, inv_s1, _, step_s1⟩

/-- A fault and a refusal. -/
theorem witness_FaultChangesNoArchitecturalState :
    ((s5.agents.map (·.1)).Nodup ∧ StopsWith s5 (.fault (.floatingPointUnavailable 0x00010000))) ∧
    StopsWith (launch 0x7C20252F resetAgent) (.refusal (.notDecoded 0x00010000 0x7C20252F)) :=
  ⟨⟨by decide, .inl ⟨_, rfl, rfl⟩⟩, .inr ⟨_, by decide, rfl, rfl⟩⟩

theorem witness_RecordedStopIsNeverCleared :
    ((s5.agents.map (·.1)).Nodup ∧ StopsWith s5 (.fault (.floatingPointUnavailable 0x00010000))) ∧
    ((advance s5).agents.map (·.1)).Nodup ∧ (advance s5).agent? 0 = some (advance s5).cpu ∧ (advance s5).cpu.stop ≠ none :=
  ⟨⟨by decide, .inl ⟨_, rfl, rfl⟩⟩, by decide, rfl, by decide⟩

/-- The launch of S1, its program run to END. -/
def sEnd : State := { s1 with cpu := { s1.cpu with pc := 0x00010004 } }

theorem witness_CompletedRunHasNoFurtherStep :
    sEnd.cpu.stop = none ∧ sEnd.cpu.pc.toNat = sEnd.cfg.code.base.toNat + 4 * sEnd.cfg.code.words.length ∧ sEnd.completed ∧
    ∃ p ∈ (advance s5).agents, p.2.stop ≠ none := by
  decide

theorem witness_FlagsAreOredIntoFpscr :
    s2.cfg.profile = .hw ∧ exec (.stfs 1 3 8) s2 = .next (commitStore (opStfs 1 3 8) s2) := ⟨rfl, runs (.stfs 1 3 8) s2 ready_s2⟩

theorem witness_OtherFpscrBitsChangeOnlyWithAFlag :
    exec (.stfs 1 3 8) s1 = .next (commitStore (opStfs 1 3 8) s1) ∧ flags (sfdOf s1 (.stfs 1 3 8)) = [false, false, false, false] :=
  ⟨runs (.stfs 1 3 8) s1 ready_s1, by decide⟩

/-- A value for each clause of the contract: an infinity, a denormal, a NaN, and the bounds of a finite value at both ends. -/
theorem witness_EveryConversionMeetsTheContract :
    (isNan32 0x7F800000 = false ∧ isDenormal32 0x7F800000 = false) ∧ isDenormal32 0x007FFFFF = true ∧
    isNan64 0x7FF0000000000001 = true ∧ (isNan64 0x47EFFFFFF0000000 = false ∧ isInf64 0x47EFFFFFF0000000 = false) ∧
    (0x7F7FFFFF < 0x7F800000 ∧ units32 0x7F7FFFFF ≤ units64 0x47EFFFFFF0000000 ∧ 0x7F7FFFFF + 1 = 0x7F800000) ∧
    (units32 0 ≤ units64 0x3690000000000000 ∧ units64 0x3690000000000000 ≤ units32 (0 + 1)) ∧
    (sfdIeee .before none 0x47EFFFFFF0000000 0b00 false).ox = true ∧ (sfdIeee .before none 0x3690000000000000 0b00 false).ux = true ∧
    (sfdIeee .before none 0x7FF0000000000001 0b00 false).vxsnan = true := by decide +kernel

theorem witness_SnapshotRoundsToNearestEven : sXenia.cfg.profile = .xeniaRs ∧ sXenia.cfg.sfd = .ofProfile := by decide

/-- A normal number, and a denormal with NI = 0. -/
theorem witness_ExactValuesAreStoredExactly :
    (exec (.stfs 1 3 8) s1 = .next (commitStore (opStfs 1 3 8) s1) ∧ s1.cpu.readFpr (fsOf (.stfs 1 3 8)) = widen 0x3F800000 ∧
      isNan32 0x3F800000 = false) ∧
    ((∃ t, exec (.stfs 1 3 8) (launch 0xD0230008 (agentWith 3 0x20000 0x3800000000000000)) = .next t) ∧
      (0x3800000000000000 : DWord) = widen 0x00400000 ∧ isDenormal32 0x00400000 = true ∧ resetAgent.fpscr.ni = false) :=
  ⟨⟨runs (.stfs 1 3 8) s1 ready_s1, by decide, by decide⟩,
   ⟨⟨_, runs (.stfs 1 3 8) _ (ready _ _ (by decide))⟩, by decide, by decide, rfl⟩⟩

theorem witness_NanIsStoredQuiet :
    exec (.stfs 1 3 8) s4 = .next (commitStore (opStfs 1 3 8) s4) ∧ isNan64 (s4.cpu.readFpr (fsOf (.stfs 1 3 8))) = true ∧
    s4.cfg.profile = .hw ∧ s4.cfg.sfd = .ofProfile ∧ s4.cfg.nanPayload = .preserve :=
  ⟨runs (.stfs 1 3 8) s4 (ready _ _ (by decide)), by decide⟩

/-- The least value that is not tiny, so not flushed when NI = 1, whichever way it is judged (V18). -/
theorem smallestNormal_not_tiny (t : Tininess) (rn : BitVec 2) : ¬Tiny t rn 0x3810000000000000 := by
  have h : units32 0x00800000 ≤ units64 0x3810000000000000 := by decide +kernel
  cases t
  · exact Nat.not_lt.2 h
  · exact not_not.2 (.inr (.inr h))

/-- 2^-126 - 2^-179 (V19): below 2^-126, and its rounding reaches it to nearest and toward +infinity, not toward zero. -/
theorem v19_reaches :
    units64 0x380FFFFFFFFFFFFF < units32 0x00800000 ∧ ReachesSmallestNormal 0b00 0x380FFFFFFFFFFFFF ∧
    ReachesSmallestNormal 0b10 0x380FFFFFFFFFFFFF ∧ Tiny .after 0b01 0x380FFFFFFFFFFFFF := by
  have h : units64 0x380FFFFFFFFFFFFF < units32 0x00800000 ∧
      units32 0x00800000 ≤ units64 0x380FFFFFFFFFFFFF + 2 ^ 923 ∧
      units32 0x00800000 < units64 0x380FFFFFFFFFFFFF + 2 ^ 924 := by decide +kernel
  refine ⟨h.1, .inl ⟨rfl, h.2.1⟩, .inr (.inl ⟨.inl ⟨rfl, by decide⟩, h.2.2⟩), ?_⟩
  rintro (⟨hr, _⟩ | ⟨hr | hr, _⟩ | hr)
  · exact absurd hr (by decide)
  · exact absurd hr.1 (by decide)
  · exact absurd hr.1 (by decide)
  · exact Nat.not_le.2 h.1 hr

/-- V12, V14, V15: OX where the largest finite magnitude is stored too, from 2^128 on (R72). -/
theorem test_overflow_flag :
    [0b00, 0b01, 0b10, 0b11].map (fun rn => flags (sfdIeee .before none 0x47F0000000000000 rn false)) =
      List.replicate 4 [true, true, false, false] ∧
    flags (sfdIeee .before none 0xC8078287F49C4A1D 0b10 false) = [true, true, false, false] := by decide

/-- "NI=1: same" (V10): a value that is not tiny is rounded as with NI = 0. -/
theorem test_V10_ni : [0b00, 0b01, 0b10, 0b11].map (fun rn => (sfdIeee .before none 0x3FF0000010000001 rn true).word) =
    [0x3F800001, 0x3F800000, 0x3F800001, 0x3F800000] := by decide

/-- Ties (V8, V9, V24) and the greatest and the least magnitudes; and one that is not flushed when NI = 1. -/
theorem witness_RoundsToNearestEven :
    (isNan64 0x3FF0000030000000 = false ∧ isInf64 0x3FF0000030000000 = false ∧
      2 * units64 0x3FF0000030000000 = units32 0x3F800001 + units32 0x3F800002) ∧
    (isNan64 0x3690000000000000 = false ∧ isInf64 0x3690000000000000 = false ∧ 2 * units64 0x3690000000000000 = units32 0 + units32 1) ∧
    (isNan64 0x7FEFFFFFFFFFFFFF = false ∧ isInf64 0x7FEFFFFFFFFFFFFF = false) ∧
    (isNan64 0x3810000000000000 = false ∧ isInf64 0x3810000000000000 = false ∧ ∀ t, ¬Tiny t 0b00 0x3810000000000000) :=
  ⟨by decide +kernel, by decide +kernel, by decide, by decide, by decide, fun t => smallestNormal_not_tiny t 0b00⟩

theorem witness_DirectedModesRoundTowardTheirDirection :
    (isNan64 0xC8078287F49C4A1D = false ∧ isInf64 0xC8078287F49C4A1D = false ∧ RoundsAway 0b11 0xC8078287F49C4A1D) ∧
    (isNan64 0x0000000000000001 = false ∧ isInf64 0x0000000000000001 = false ∧ RoundsAway 0b10 0x0000000000000001 ∧
      ¬RoundsAway 0b01 0x0000000000000001) ∧
    (isNan64 0x3810000000000000 = false ∧ isInf64 0x3810000000000000 = false ∧ ∀ t rn, ¬Tiny t rn 0x3810000000000000) := by
  refine ⟨⟨by decide, by decide, .inr ⟨rfl, by decide⟩⟩, ⟨by decide, by decide, .inl ⟨rfl, by decide⟩, ?_⟩, by decide, by decide,
    smallestNormal_not_tiny⟩
  rintro (h | h) <;> exact absurd h.1 (by decide)

/-- A value whose word differs, one whose word is exact, and one that overflows. -/
theorem witness_FlagsTellHowTheWordDiffers :
    (isNan64 tenth = false ∧ isInf64 tenth = false) ∧ (isNan64 one = false ∧ isInf64 one = false) ∧
    (isNan64 0x47F0000000000000 = false ∧ (sfdIeee .before none 0x47F0000000000000 0b00 false).ox = true) := by decide

/-- The least nonzero value, and the greatest below 2^-126, judged either way. -/
theorem witness_NonIeeeModeFlushesTinyValues :
    (isNan64 0x8000000000000001 = false ∧ isInf64 0x8000000000000001 = false ∧ 0 < units64 0x8000000000000001 ∧
      Tiny .before 0b00 0x8000000000000001) ∧
    (isNan64 0x380FFFFFFFFFFFFF = false ∧ isInf64 0x380FFFFFFFFFFFFF = false ∧ 0 < units64 0x380FFFFFFFFFFFFF ∧
      Tiny .before 0b00 0x380FFFFFFFFFFFFF ∧ Tiny .after 0b01 0x380FFFFFFFFFFFFF) := by
  refine ⟨⟨by decide, by decide, by decide, ?_⟩, by decide, by decide, by decide +kernel, v19_reaches.1, v19_reaches.2.2.2⟩
  show units64 0x8000000000000001 < units32 0x00800000
  decide +kernel

/-- A value for each of the first two clauses. -/
theorem witness_TininessAfterDiffersOnlyWhereRoundingReachesTheSmallestNormal :
    (units64 0x380FFFFFFFFFFFFF < units32 0x00800000 ∧ ReachesSmallestNormal 0b00 0x380FFFFFFFFFFFFF) ∧
    ¬(units64 0x380FFFFFFFFFFFFF < units32 0x00800000 ∧ ReachesSmallestNormal 0b01 0x380FFFFFFFFFFFFF) :=
  ⟨⟨v19_reaches.1, v19_reaches.2.1⟩, fun h => v19_reaches.2.2.2 h.2⟩

theorem witness_EveryStepKeepsTheInvariant : s1.inv ∧ ∃ t, step s1 = .next t := ⟨inv_s1, _, step_s1⟩

theorem witness_EveryRunKeepsTheInvariant : s1.inv ∧ p6b.inv := ⟨inv_s1, inv_p6b⟩

theorem witness_LaunchMeetsTheInvariant : s1.isLaunch ∧ ∀ p ∈ s1.agents, p.2.pc.toNat % 4 = 0 := ⟨launch_s1, by decide⟩

theorem fetch_p6b : fetch p6b = .ok 0xD0230000 := fetched _ _ (by decide)

theorem step_p6b : step p6b = .next (afterExec (.stfs 1 3 0) p6b (commitStore (opStfs 1 3 0) p6b)) :=
  Laws.step_ready p6b 0xD0230000 (.stfs 1 3 0) rfl (by decide) fetch_p6b (by decide) (ready _ _ (by decide))

theorem witness_RunLeavesControlStateAlone :
    (p6b.agents.map (·.1)).Nodup ∧ p6b.agent? 1 = some p6b.cpu ∧ (p6b.agent? 0).isSome = true := ⟨by decide, rfl, by decide⟩

theorem witness_StepLeavesOtherAgentsAlone :
    (p6b.agents.map (·.1)).Nodup ∧ (∃ t, step p6b = .next t) ∧ 0 ≠ p6b.me := ⟨by decide, ⟨_, step_p6b⟩, by decide⟩

theorem witness_SharedBytesHoldOneOfTheStores :
    fetch p6b = .ok 0xD0230000 ∧ decode 0xD0230000 = .ok (.stfs 1 3 0) ∧ ∃ t, step p6b = .next t :=
  ⟨fetch_p6b, by decide, _, step_p6b⟩

theorem witness_StoreTakesItsPlaceInTheOrder :
    p6b.others ≠ [] ∧ fetch p6b = .ok 0xD0230000 ∧ decode 0xD0230000 = .ok (.stfs 1 3 0) ∧ ∃ t, step p6b = .next t :=
  ⟨by decide, fetch_p6b, by decide, _, step_p6b⟩

/-- P6 (b) before either agent has moved, agent 1 to move. -/
def p6start : State :=
  { launch 0xD0230000 (agent1 0x20000) with me := 1, others := [(0, agentWith 3 0x20000 one)] }

theorem fetch_p6start : fetch p6start = .ok 0xD0230000 := fetched _ _ (by decide)

theorem ready_p6start : StoreReady (opStfs 1 3 0) p6start := ready _ _ (by decide)

/-- The hypotheses; and that of the clause on the turn, which agent 0 meets after the step. -/
theorem witness_StepAmongAgentsKeepsWhatExecAnswers :
    ((p6start.agents.map (·.1)).Nodup ∧ HasStep p6start ∧ fetch p6start = .ok 0xD0230000 ∧
      decode 0xD0230000 = .ok (.stfs 1 3 0) ∧ ∃ u, exec (.stfs 1 3 0) p6start = .next u) ∧
    ∃ t, step p6start = .next t ∧
      ∃ p ∈ t.agents, p.2.stop = none ∧ p.2.pc.toNat ≠ t.cfg.code.base.toNat + 4 * t.cfg.code.words.length := by
  refine ⟨⟨by decide, hasStep _ rfl (by decide), fetch_p6start, by decide, _, runs (.stfs 1 3 0) p6start ready_p6start⟩, _,
    Laws.step_ready p6start 0xD0230000 (.stfs 1 3 0) rfl (by decide) fetch_p6start (by decide) ready_p6start,
    (0, agentWith 3 0x20000 one), (Laws.afterExec_agents _ _ _).mem_iff.2 ?_, rfl, ?_⟩
  · rw [Laws.commitStore_agents]
    exact List.mem_cons_of_mem _ (List.mem_singleton.2 rfl)
  · rw [Laws.afterExec_cfg, Laws.commitStore_cfg]
    decide

/-- Both clauses: an aligned word that was stored, and an aligned store. -/
theorem witness_AlignedStoresAreAtomic :
    (p6b.inv ∧ { agent := 0, cells := wordCells 0x20000 0x3F800000 } ∈ (advances 0 p6b).landings) ∧
    fetch p6b = .ok 0xD0230000 ∧ decode 0xD0230000 = .ok (.stfs 1 3 0) ∧ (∃ t, step p6b = .next t) ∧
    eaOf p6b.cpu (.stfs 1 3 0) % 4 = 0 :=
  ⟨⟨inv_p6b, by decide⟩, fetch_p6b, by decide, ⟨_, step_p6b⟩, by decide⟩

/-- The last word of the space as a program; and two words. -/
theorem witness_LaunchPlacesTheProgram :
    (State.reset.mem.wf ∧ State.reset.memAdmitted ∧ State.reset.res.Nodup ∧ (State.reset.agents.map (·.1)).Nodup ∧
      ∀ p ∈ State.reset.agents, p.2.vr ≠ []) ∧
    ((0xFFFFFFFC : Word).toNat % 4 = 0 ∧ (0xFFFFFFFC : Word).toNat + 4 * [(0xD0230000 : Word)].length ≤ 2 ^ 32) ∧
    ((0x00010000 : Word).toNat % 4 = 0 ∧ (0x00010000 : Word).toNat + 4 * [(0xD4230004 : Word), 0xD0230000].length ≤ 2 ^ 32) := by
  decide

/-- The last of the four bytes holds no value. -/
theorem witness_FetchOfBytesWithoutValueFaults :
    let s : State := { s1 with mem := s1.mem.take 3 }
    HasStep s ∧ s.cpu.pc.toNat % 4 = 0 ∧ s.cfg.admits s.cpu.pc.toNat 4 .fetch = true ∧ s.mem.read (s.cpu.pc.toNat + 3) = none :=
  ⟨hasStep _ rfl (by decide), by decide⟩

theorem witness_AgentAtEndAnswersRunCompleted :
    sEnd.cpu.stop ≠ some (.refusal .runCompleted) ∧ sEnd.cpu.stop = none ∧
    sEnd.cpu.pc.toNat = sEnd.cfg.code.base.toNat + 4 * sEnd.cfg.code.words.length := by decide

/-- The launch of P1's first two words from reset: both in place, and the first one the next to run. -/
theorem test_launch :
    let s := State.reset.launch { base := 0x00010000, words := [0xD4230004, 0xD0230000] }
    fetch s = .ok 0xD4230004 ∧ s.mem.readWord 0x00010004 = some 0xD0230000 ∧ s.cpu.pc = 0x00010000 := by
  refine ⟨fetched _ _ (by decide), by decide⟩

end Sys2Proof.Tests
end

section
/-! PROOFS. The statements of spec/10_state.md, and the lemmas they share. -/

namespace Sys2Proof.Proofs

open Sys2Proof.Machine Sys2Proof.Claims Sys2Proof.Laws

/-! ### The operands of the family, in the words of the statements -/

/-- The model's effective address is that of R79, as the statements compute it. -/
theorem toNat_ea_storeOpOf (i : Instr) (a : Agent) : ((storeOpOf i).ea a).toNat = eaOf a i := by
  have hbase : (storeOpOf i).base.value a = baseOf a i := by cases i <;> rfl
  have hoffset : (storeOpOf i).offset.value a = offsetOf a i := by cases i <;> rfl
  rw [StoreOp.ea, StoreOp.sum, hbase, hoffset, BitVec.toNat_setWidth, BitVec.toNat_add, eaOf]
  omega

/-- The update forms, and they alone, write a register, which is RA. -/
theorem updates_storeOpOf (i : Instr) : (storeOpOf i).updates = if isUpdate i then some (raOf i) else none := by
  cases i <;> rfl

/-- The write of RA leaves every register but RA of an update form. -/
theorem readGpr_writeBack_other (i : Instr) (c : Config) (a : Agent) (j : RegNum) (h : ¬(isUpdate i = true ∧ j = raOf i)) :
    ((storeOpOf i).writeBack c a).readGpr j = a.readGpr j := by
  by_cases hu : isUpdate i = true
  · have hra : (storeOpOf i).updates = some (raOf i) := by rw [updates_storeOpOf, if_pos hu]
    rw [writeBack_some _ _ _ _ hra, readGpr_writeGpr_other _ _ _ _ fun hj => h ⟨hu, hj⟩]
  · rw [writeBack_none _ _ _ (by rw [updates_storeOpOf, if_neg hu])]

/-- A commit writes no general register but by the write of RA. -/
theorem readGpr_commitStore (op : StoreOp) (s : State) (j : RegNum) :
    (commitStore op s).cpu.readGpr j = (op.writeBack s.cfg s.cpu).readGpr j := rfl

/-! ### A step whose fetch faults -/

theorem atEnd_eq_false_of_hasStep {s : State} (h : HasStep s) : atEnd s.cfg s.cpu = false := by
  simpa [atEnd, Code.finish] using h.notAtEnd

theorem step_of_fetch_error {s : State} {f : Fault} (h : HasStep s) (hf : fetch s = .error f) : step s = .fault f := by
  simp [step, h.notStopped, atEnd_eq_false_of_hasStep h, hf, raise]

theorem fetch_misaligned {s : State} (h : s.cpu.pc.toNat % 4 ≠ 0) : fetch s = .error (.instructionAlignment s.cpu.pc) := by
  rw [fetch, if_pos h]

/-! ### The successor of pc (R12) -/

/-- An aligned pc that has a successor is followed without a wrap. -/
theorem toNat_add_four_of_aligned {pc : Word} (haligned : pc.toNat % 4 = 0) (h : pc ≠ 0xFFFFFFFC) :
    (pc + 4).toNat = pc.toNat + 4 := by
  bv_omega

/-- PcWrap is the last check of R93: a store that would be ready at another pc passes all those before it, none of which
looks at pc. -/
theorem storeSingle_pcWrap (word : Word) (op : StoreOp) (s : State) (hpc : s.cpu.pc = 0xFFFFFFFC)
    (h : StoreReady op { s with cpu := { s.cpu with pc := 0 } }) : storeSingle word op s = .fault (.pcWrap s.cpu.pc) := by
  have checks := (firstFault_none _).1 ((storeFaults_none_iff word op _).2 h)
  simp only [storeFaults, List.forall_mem_append, List.forall_mem_cons, List.forall_mem_map] at checks
  obtain ⟨⟨⟨hfp, hform, -⟩, hwritten⟩, hwrap, hadmitted, hcode, halign, -⟩ := checks
  have hmarked : op.reads.find? (fun r => s.cpu.isUnwritten r) = none :=
    List.find?_eq_none.2 fun r hr => Bool.eq_false_iff.1 (hwritten r hr)
  have hea : op.ea { s.cpu with pc := 0 } = op.ea s.cpu := rfl
  rw [hea] at hwrap hadmitted hcode halign
  rw [storeSingle_outcome]
  simp only [hfp, hform, hmarked, hwrap, hadmitted, hcode, halign, hpc, Bool.false_eq_true, if_false, beq_self_eq_true, if_true]

/-- Settles O22: a store completes only where pc has a successor; a misaligned fetch ends the step; and PcWrap is the last check. -/
theorem programCounterAdvancesByFour : Obligations.ProgramCounterAdvancesByFour := by
  refine ⟨fun i s t h => ?_, fun s hs hpc => step_of_fetch_error hs (fetch_misaligned hpc), fun i s hpc h => ?_⟩
  · obtain ⟨hready, rfl⟩ := (exec_next_iff i s t).1 h
    exact ⟨commitStore_pc _ s, fun haligned => toNat_add_four_of_aligned haligned hready.pcSuccessor⟩
  · rw [exec_eq_storeSingle, storeSingle_pcWrap _ _ s hpc h]

/-- Settles O24: the next state is the commit, whose fields say one by one what it keeps; the marks stay because the register an
update form writes is one it has read. -/
theorem storeChangesNothingElse : Obligations.StoreChangesNothingElse := by
  intro i s t h
  obtain ⟨hready, rfl⟩ := (exec_next_iff i s t).1 h
  refine ⟨commitStore_fpr _ s, fun j hj => ?_, commitStore_msr _ s, ?_, ?_, fun hx => ?_, commitStore_cr _ s,
    commitStore_xer _ s, commitStore_vr _ s, ?_, commitStore_stop _ s, rfl, rfl, rfl, rfl, ?_, fun a ha => ?_⟩
  · rw [readGpr_commitStore, readGpr_writeBack_other i _ _ j hj]
  · rw [commitStore_fpscr, afterStore_rn]
  · rw [commitStore_fpscr, afterStore_ni]
  · rw [commitStore_fpscr, hx, afterStore_xeniaRs]
  · rw [commitStore_unwritten, writeBack_unwritten _ s hready]
  · exact killReservations_sublist _ _ _ _
  · rw [commitStore_mem, toNat_ea_storeOpOf, read_writeWord_other _ _ _ _ ha]

end Sys2Proof.Proofs
end

section
/-! PROOFS. The statements of spec/20_memory.md, and the lemmas they share. -/

namespace Sys2Proof.Proofs

open Sys2Proof.Machine Sys2Proof.Claims Sys2Proof.Laws

/-! ### Fetch (R42) -/

theorem fetch_not_admitted {s : State} (haligned : s.cpu.pc.toNat % 4 = 0)
    (h : s.cfg.admits s.cpu.pc.toNat 4 .fetch = false) : fetch s = .error (.instructionStorage s.cpu.pc) := by
  rw [fetch, if_neg (not_not.2 haligned), if_neg (Bool.eq_false_iff.1 h)]

/-- Big-endian: the first byte is the most significant. -/
theorem toNat_wordOfBytes (b0 b1 b2 b3 : Byte) :
    (wordOfBytes b0 b1 b2 b3).toNat = b0.toNat * 2 ^ 24 + b1.toNat * 2 ^ 16 + b2.toNat * 2 ^ 8 + b3.toNat := by
  simp only [wordOfBytes, BitVec.toNat_append, ← Nat.shiftLeft_add_eq_or_of_lt b1.isLt,
    ← Nat.shiftLeft_add_eq_or_of_lt b2.isLt, ← Nat.shiftLeft_add_eq_or_of_lt b3.isLt]
  simp only [Nat.shiftLeft_eq]
  omega

/-- Settles O8: the two checks of fetch in their order, then the word of the four bytes held. -/
theorem fetchIsAlignedAdmittedAndBigEndian : Obligations.FetchIsAlignedAdmittedAndBigEndian := by
  refine fun s hs => ⟨fun hpc => step_of_fetch_error hs (fetch_misaligned hpc),
    fun hpc hadmits => step_of_fetch_error hs (fetch_not_admitted hpc hadmits), ?_⟩
  intro b0 b1 b2 b3 hpc hadmits h0 h1 h2 h3
  have hword : s.mem.readWord s.cpu.pc.toNat = some (wordOfBytes b0 b1 b2 b3) := by
    simp only [Memory.readWord, h0, h1, h2, h3]
  exact ⟨_, (fetch_ok_iff s _).2 ⟨hpc, hadmits, hword⟩, toNat_wordOfBytes b0 b1 b2 b3⟩

/-! ### A store, in the words of the statements -/

theorem result_storeOpOf (i : Instr) (s : State) : (storeOpOf i).result s = sfdOf s i := by
  cases i <;> rfl

theorem reads_storeOpOf (i : Instr) : (storeOpOf i).reads = readsOf i := by
  cases i <;> simp [storeOpOf, opStfs, opStfsu, opStfsx, opStfsux, StoreOp.reads, BaseOperand.reads,
    OffsetOperand.reads, readsOf]

theorem ofNat_eaOf (i : Instr) (a : Agent) : BitVec.ofNat 32 (eaOf a i) = (storeOpOf i).ea a := by
  rw [← toNat_ea_storeOpOf, BitVec.ofNat_toNat, BitVec.setWidth_eq]

theorem updates_eq_some_zero_iff (i : Instr) : (storeOpOf i).updates = some 0 ↔ isUpdate i = true ∧ raOf i = 0 := by
  rw [updates_storeOpOf]
  cases isUpdate i <;> simp

theorem storedAt_writeWord (m : Memory) (ea : Nat) (v : Word) : StoredAt m (m.writeWord ea v) ea v := by
  obtain ⟨h0, h1, h2, h3⟩ := read_writeWord m ea v
  exact ⟨h0, h1, h2, h3, fun a ha => read_writeWord_other m ea a v ha⟩

theorem eaOf_le_of_ready {i : Instr} {s : State} (h : StoreReady (storeOpOf i) s) : eaOf s.cpu i ≤ 0xFFFFFFFC :=
  toNat_ea_storeOpOf i s.cpu ▸ h.noWrap

theorem admits_of_ready {i : Instr} {s : State} (h : StoreReady (storeOpOf i) s) :
    s.cfg.admits (eaOf s.cpu i) 4 .store = true :=
  toNat_ea_storeOpOf i s.cpu ▸ h.admitted

/-- On the storage `m`, in place of the state's own, a commit stores the instruction's word at its address. -/
theorem storedAt_commitStore (i : Instr) (s : State) (m : Memory) :
    StoredAt m (commitStore (storeOpOf i) { s with mem := m }).mem (eaOf s.cpu i) (sfdOf s i).word := by
  rw [← toNat_ea_storeOpOf, ← result_storeOpOf]
  exact storedAt_writeWord _ _ _

/-! ### The checks of a store on its address (R93 (7) to (11)) -/

/-- With the checks that come before passed, the outcome is that of the checks on the address and pc. -/
theorem exec_past_operand_checks (i : Instr) (s : State)
    (hhw : s.cfg.profile = .hw → s.cpu.msr.fp = true ∧ ¬(isUpdate i = true ∧ raOf i = 0))
    (hwritten : ∀ r ∈ readsOf i, r ∉ s.cpu.unwritten) :
    exec i s =
      if 0xFFFFFFFC < eaOf s.cpu i then .fault (.addressWrap s.cpu.pc (BitVec.ofNat 32 (eaOf s.cpu i)))
      else if s.cfg.admits (eaOf s.cpu i) 4 .store = false then
        .fault (.dataStorage s.cpu.pc (BitVec.ofNat 32 (eaOf s.cpu i)))
      else if s.cfg.code.meets (eaOf s.cpu i) 4 then .fault (.storeToCode s.cpu.pc (BitVec.ofNat 32 (eaOf s.cpu i)))
      else if isHw s.cfg && decide (eaOf s.cpu i % 4 ≠ 0) && s.cfg.inhibitsAny (eaOf s.cpu i) 4 then
        .fault (.alignment s.cpu.pc (BitVec.ofNat 32 (eaOf s.cpu i)))
      else if s.cpu.pc == 0xFFFFFFFC then .fault (.pcWrap s.cpu.pc)
      else .next (commitStore (storeOpOf i) s) := by
  have hfp : (isHw s.cfg && !s.cpu.msr.fp) = false :=
    Bool.and_eq_false_imp.2 fun hp => by rw [(hhw ((isHw_iff _).1 hp)).1, Bool.not_true]
  have hform : (isHw s.cfg && (storeOpOf i).updates == some 0) = false :=
    Bool.and_eq_false_imp.2 fun hp =>
      beq_eq_false_iff_ne.2 (mt (updates_eq_some_zero_iff i).1 (hhw ((isHw_iff _).1 hp)).2)
  have hmarked : (storeOpOf i).reads.find? (fun r => s.cpu.isUnwritten r) = none := by
    simpa [reads_storeOpOf, Agent.isUnwritten] using hwritten
  rw [exec_eq_storeSingle, storeSingle_outcome, hfp, hform, hmarked, ofNat_eaOf, ← toNat_ea_storeOpOf]
  simp only [Bool.false_eq_true, if_false, decide_eq_true_eq, Bool.not_eq_true']

/-- Settles O20: a completed store is the commit of a ready one; otherwise its first fault is that of its address. -/
theorem storeWritesFourBytesMostSignificantFirst : Obligations.StoreWritesFourBytesMostSignificantFirst := by
  refine ⟨fun i s t h => ?_, fun i s hhw hwritten => ⟨fun hwrap => ?_, fun hwrap hadmits => ?_⟩⟩
  · obtain ⟨hready, rfl⟩ := (exec_next_iff i s t).1 h
    exact ⟨storedAt_commitStore i s s.mem, eaOf_le_of_ready hready, admits_of_ready hready⟩
  · rw [exec_past_operand_checks i s hhw hwritten, if_pos hwrap]
  · rw [exec_past_operand_checks i s hhw hwritten, if_neg (by omega), if_pos hadmits]

/-! ### Only the configuration and the agent decide whether a store faults -/

theorem storeFaults_congr (word : Word) (op : StoreOp) {s s' : State} (hcfg : s'.cfg = s.cfg) (hcpu : s'.cpu = s.cpu) :
    storeFaults word op s' = storeFaults word op s := by
  simp only [storeFaults, hcfg, hcpu]

/-- A fault is the same in a state that differs in shared state alone. -/
theorem exec_fault_congr {i : Instr} {s s' : State} {f : Fault} (h : exec i s = .fault f) (hcfg : s'.cfg = s.cfg)
    (hcpu : s'.cpu = s.cpu) : exec i s' = .fault f := by
  rwa [exec_fault_iff, storeFaults_congr _ _ hcfg hcpu, ← exec_fault_iff]

/-- Where an instruction completes, it also does in a state that differs in shared state alone. -/
theorem exec_next_congr {i : Instr} {s s' t : State} (h : exec i s = .next t) (hcfg : s'.cfg = s.cfg)
    (hcpu : s'.cpu = s.cpu) : exec i s' = .next (commitStore (storeOpOf i) s') := by
  obtain ⟨hready, -⟩ := (exec_next_iff i s t).1 h
  refine (exec_next_iff i s' _).2 ⟨?_, rfl⟩
  rwa [← storeFaults_none_iff 0, storeFaults_congr 0 _ hcfg hcpu, storeFaults_none_iff]

/-- Settles O21: the checks do not look at storage, and the commit writes the same four bytes whatever storage it is made on. -/
theorem noDataStorageIsRead : Obligations.NoDataStorageIsRead := by
  intro i s m
  split
  next t h =>
    obtain ⟨-, rfl⟩ := (exec_next_iff i s t).1 h
    exact ⟨_, storedAt_commitStore i s m, exec_next_congr h rfl rfl⟩
  next f h => exact exec_fault_congr h rfl rfl
  next r h => exact absurd h (exec_ne_refused i s r)

/-! ### Reservations (R39) -/

theorem killsReservations_iff (c : Config) :
    killsReservations c = true ↔ c.profile = .hw ∨ c.reservationsEnabled = true := by
  cases h : c.profile <;> simp [killsReservations, h]

theorem mem_killReservations (c : Config) (n ea : Nat) (res : List Reservation) (e : Reservation)
    (h : killsReservations c = true) : e ∈ killReservations c n ea res ↔ e ∈ res ∧ killed c n ea e = false := by
  simp [killReservations, h]

theorem killed_of_granule_eq {c : Config} {n ea : Nat} {e : Reservation} (h : e.granule = ea / c.granule) :
    killed c n ea e = true := by
  simp [killed, granuleOf, h]

theorem not_killed_of_granule_ne {c : Config} {n ea : Nat} {e : Reservation} (h : e.granule ≠ ea / c.granule)
    (h' : e.granule ≠ (ea + 3) / c.granule) : killed c n ea e = false := by
  simp [killed, granuleOf, h, h']

theorem killedAt_commitStore (i : Instr) (s : State) : KilledAt s (commitStore (storeOpOf i) s) (eaOf s.cpu i) where
  onGranule henabled e he := by
    rw [commitStore_res, toNat_ea_storeOpOf,
      mem_killReservations _ _ _ _ _ ((killsReservations_iff _).2 henabled)] at he
    obtain ⟨hmem, hlives⟩ := he
    exact ⟨hmem, fun hg => Bool.eq_false_iff.1 hlives (killed_of_granule_eq hg)⟩
  elsewhere henabled e he hg hg' := by
    rw [commitStore_res, toNat_ea_storeOpOf, mem_killReservations _ _ _ _ _ ((killsReservations_iff _).2 henabled)]
    exact ⟨he, not_killed_of_granule_ne hg hg'⟩
  disabled hprofile hdisabled := by
    have hkeeps : ¬killsReservations s.cfg = true := by simp [killsReservations_iff, hprofile, hdisabled]
    rw [commitStore_res, killReservations, if_neg hkeeps]

/-- Settles O28: the commit filters RES by its granules, and neither the checks nor another field of the commit reads it. -/
theorem storeKillsTheReservationsOnItsGranule : Obligations.StoreKillsTheReservationsOnItsGranule := by
  intro i s t h
  obtain ⟨-, rfl⟩ := (exec_next_iff i s t).1 h
  exact ⟨killedAt_commitStore i s, fun res => ⟨_, exec_next_congr h rfl rfl⟩⟩

/-! ### The program text (R40) -/

theorem code_meets_iff (c : Code) (addr n : Nat) :
    c.meets addr n = true ↔ ∃ k < n, c.base.toNat ≤ addr + k ∧ addr + k < c.base.toNat + 4 * c.words.length := by
  simp [Code.meets, code_contains]

theorem settle_read_other (ea word : Word) (t : State) (a : Nat) (h : a < ea.toNat ∨ ea.toNat + 4 ≤ a) :
    (t.settle ea word).mem.read a = t.mem.read a := by
  by_cases ho : t.others = []
  · rw [settle_alone _ _ _ ho]
  · rw [settle_read _ _ _ ho, if_neg (by omega)]

/-- A step changes no byte of storage but the four from EA, wherever the accesses of the store come in the order. -/
theorem read_afterExec_other (i : Instr) (s : State) (a : Nat) (h : a < eaOf s.cpu i ∨ eaOf s.cpu i + 4 ≤ a) :
    (afterExec i s (commitStore (storeOpOf i) s)).mem.read a = s.mem.read a := by
  rw [← toNat_ea_storeOpOf] at h
  rw [afterExec_mem, settle_read_other _ _ _ _ h, commitStore_mem, read_writeWord_other _ _ _ _ h]

/-- A ready store's step keeps the program text: no byte of it is one of the four. -/
theorem codeIntact_afterExec (i : Instr) (s : State) (hready : StoreReady (storeOpOf i) s) (hcode : s.codeIntact) :
    (afterExec i s (commitStore (storeOpOf i) s)).codeIntact := by
  intro k hk
  rw [afterExec_cfg, commitStore_cfg] at hk
  have hclear := hready.clearOfCode
  rw [toNat_ea_storeOpOf, Bool.eq_false_iff, Ne, code_meets_iff] at hclear
  simp only [afterExec_cfg, commitStore_cfg, Memory.holdsWord]
  refine (readWord_congr s.mem _ _ fun j hj => read_afterExec_other i s _ ?_).trans (hcode k hk)
  by_contra hmeets
  exact hclear ⟨s.cfg.code.base.toNat + 4 * k + j - eaOf s.cpu i, by omega, by omega, by omega⟩

/-- Settles O34: past the other checks the text decides; and the bytes of a completed store are clear of the text. -/
theorem programTextIsFixed : Obligations.ProgramTextIsFixed := by
  refine ⟨fun i s hready hmeets => ?_, fun s t hinv hstep => ?_⟩
  · have hwrap : eaOf s.cpu i ≤ 0xFFFFFFFC := (eaOf_le_of_ready hready :)
    have hadmits : s.cfg.admits (eaOf s.cpu i) 4 .store = true := (admits_of_ready hready :)
    rw [exec_past_operand_checks i s
      (fun hp => ⟨hready.fpEnabled hp, mt (updates_eq_some_zero_iff i).2 (hready.validForm hp)⟩)
      (fun r hr => hready.written r (reads_storeOpOf i ▸ hr)),
      if_neg (by omega), if_neg (by simp [hadmits]), if_pos ((code_meets_iff _ _ _).2 hmeets)]
  · obtain ⟨-, -, w, i, -, -, hready, rfl⟩ := step_next s t hstep
    exact ⟨by rw [afterExec_cfg, commitStore_cfg], codeIntact_afterExec i s hready hinv.code⟩

end Sys2Proof.Proofs
end

section
/-! PROOFS. The statements of spec/30_encoding.md, and the lemmas they share. -/

namespace Sys2Proof.Proofs

open Sys2Proof.Machine Sys2Proof.Claims Sys2Proof.Laws

/-! ### The fields of a word as numbers (R51, R52, R54) -/

theorem fieldOpcd_eq_iff (w : Word) (o : BitVec 6) : fieldOpcd w = o ↔ w.toNat / 2 ^ 26 = o.toNat := by
  rw [← BitVec.toNat_inj, fieldOpcd, extract_toNat]
  omega

theorem fieldXo_eq_iff (w : Word) (x : BitVec 10) : fieldXo w = x ↔ w.toNat / 2 % 2 ^ 10 = x.toNat := by
  rw [← BitVec.toNat_inj, fieldXo, extract_toNat]
  omega

theorem fieldRc_eq_iff (w : Word) (r : BitVec 1) : fieldRc w = r ↔ w.toNat % 2 = r.toNat := by
  rw [← BitVec.toNat_inj, fieldRc, extract_toNat]
  omega

theorem fieldFs_eq_ofNat (w : Word) : fieldFs w = BitVec.ofNat 5 (w.toNat / 2 ^ 21) := by
  rw [← BitVec.toNat_inj, fieldFs, extract_toNat, BitVec.toNat_ofNat]

theorem fieldRa_eq_ofNat (w : Word) : fieldRa w = BitVec.ofNat 5 (w.toNat / 2 ^ 16) := by
  rw [← BitVec.toNat_inj, fieldRa, extract_toNat, BitVec.toNat_ofNat]

theorem fieldRb_eq_ofNat (w : Word) : fieldRb w = BitVec.ofNat 5 (w.toNat / 2 ^ 11) := by
  rw [← BitVec.toNat_inj, fieldRb, extract_toNat, BitVec.toNat_ofNat]

/-- Two's complement: the displacement is the low half, less 2^16 where its top bit is set. -/
theorem fieldD_eq_ite (w : Word) :
    fieldD w = if w.toNat % 2 ^ 16 < 2 ^ 15 then (w.toNat % 2 ^ 16 : Int) else (w.toNat % 2 ^ 16 : Int) - 2 ^ 16 := by
  rw [fieldD, BitVec.toInt_eq_toNat_cond, extract_toNat]
  split <;> split <;> omega

/-- In form X, Rc = 0 and the extended opcode are the low eleven bits. -/
theorem mod_two_pow_eleven_eq_iff (n xo : Nat) : n % 2 ^ 11 = xo * 2 ↔ n / 2 % 2 ^ 10 = xo ∧ n % 2 = 0 := by
  omega

/-! ### What a word decodes to, said once (R55, R60) -/

/-- The word, as a number, is of none of the four rows of R55. -/
def OfNoRow (n : Nat) : Prop :=
  n / 2 ^ 26 ≠ 52 ∧ n / 2 ^ 26 ≠ 53 ∧ ¬(n / 2 ^ 26 = 31 ∧ n % 2 ^ 11 = 663 * 2) ∧ ¬(n / 2 ^ 26 = 31 ∧ n % 2 ^ 11 = 695 * 2)

/-- A word is one of the four instructions, by its primary opcode and in form X its low eleven bits, or is rejected. -/
theorem decode_cases (w : Word) :
    (w.toNat / 2 ^ 26 = 52 ∧ decode w = .ok (.stfs (fieldFs w) (fieldRa w) (fieldD w))) ∨
    (w.toNat / 2 ^ 26 = 53 ∧ decode w = .ok (.stfsu (fieldFs w) (fieldRa w) (fieldD w))) ∨
    ((w.toNat / 2 ^ 26 = 31 ∧ w.toNat % 2 ^ 11 = 663 * 2) ∧
      decode w = .ok (.stfsx (fieldFs w) (fieldRa w) (fieldRb w))) ∨
    ((w.toNat / 2 ^ 26 = 31 ∧ w.toNat % 2 ^ 11 = 695 * 2) ∧
      decode w = .ok (.stfsux (fieldFs w) (fieldRa w) (fieldRb w))) ∨
    (OfNoRow w.toNat ∧ ∃ why, decode w = .rejected why) := by
  simp only [OfNoRow, mod_two_pow_eleven_eq_iff]
  unfold decode
  simp only [fieldOpcd_eq_iff, fieldXo_eq_iff, fieldRc_eq_iff, BitVec.ofNat_eq_ofNat, BitVec.toNat_ofNat]
  split_ifs with hstfs hstfsu hstfsx hrc hstfsux hrc
  · exact .inl ⟨hstfs, rfl⟩
  · exact .inr (.inl ⟨hstfsu, rfl⟩)
  · exact .inr (.inr (.inl ⟨⟨hstfsx.1, hstfsx.2, hrc⟩, rfl⟩))
  · exact .inr (.inr (.inr (.inr ⟨by omega, _, rfl⟩)))
  · exact .inr (.inr (.inr (.inl ⟨⟨hstfsux.1, hstfsux.2, hrc⟩, rfl⟩)))
  · exact .inr (.inr (.inr (.inr ⟨by omega, _, rfl⟩)))
  · exact .inr (.inr (.inr (.inr ⟨by omega, _, rfl⟩)))

theorem decodes_stfs_iff (w : Word) : (∃ fs ra d, decode w = .ok (.stfs fs ra d)) ↔ w.toNat / 2 ^ 26 = 52 := by
  obtain ⟨h, hd⟩ | ⟨h, hd⟩ | ⟨h, hd⟩ | ⟨h, hd⟩ | ⟨⟨h, -⟩, why, hd⟩ := decode_cases w <;> simp [hd, h, -Nat.reducePow]

theorem decodes_stfsu_iff (w : Word) : (∃ fs ra d, decode w = .ok (.stfsu fs ra d)) ↔ w.toNat / 2 ^ 26 = 53 := by
  obtain ⟨h, hd⟩ | ⟨h, hd⟩ | ⟨h, hd⟩ | ⟨h, hd⟩ | ⟨⟨-, h, -⟩, why, hd⟩ := decode_cases w <;> simp [hd, h, -Nat.reducePow]

theorem decodes_stfsx_iff (w : Word) :
    (∃ fs ra rb, decode w = .ok (.stfsx fs ra rb)) ↔ w.toNat / 2 ^ 26 = 31 ∧ w.toNat % 2 ^ 11 = 663 * 2 := by
  obtain ⟨h, hd⟩ | ⟨h, hd⟩ | ⟨h, hd⟩ | ⟨h, hd⟩ | ⟨⟨-, -, h, -⟩, why, hd⟩ := decode_cases w <;>
    simp [hd, h, -not_and, -Nat.reducePow]

theorem decodes_stfsux_iff (w : Word) :
    (∃ fs ra rb, decode w = .ok (.stfsux fs ra rb)) ↔ w.toNat / 2 ^ 26 = 31 ∧ w.toNat % 2 ^ 11 = 695 * 2 := by
  obtain ⟨h, hd⟩ | ⟨h, hd⟩ | ⟨h, hd⟩ | ⟨h, hd⟩ | ⟨⟨-, -, -, h⟩, why, hd⟩ := decode_cases w <;>
    simp [hd, h, -not_and, -Nat.reducePow]

theorem decode_rejected_of_ofNoRow {w : Word} (h : OfNoRow w.toNat) : ∃ why, decode w = .rejected why := by
  obtain ⟨h1, h2, h3, h4⟩ := h
  obtain ⟨h', -⟩ | ⟨h', -⟩ | ⟨h', -⟩ | ⟨h', -⟩ | ⟨-, hd⟩ := decode_cases w
  · exact absurd h' h1
  · exact absurd h' h2
  · exact absurd h' h3
  · exact absurd h' h4
  · exact hd

/-! ### The masks of R55 -/

theorem and_mask_formD_eq_iff (w p : Word) (v : Nat) (hp : p.toNat = v * 2 ^ 26) :
    w &&& 0xFC000000 = p ↔ w.toNat / 2 ^ 26 = v :=
  beq_iff_eq.symm.trans (EncodesOwnRow.selects_formD "" p w v hp)

theorem and_mask_formX_eq_iff (w p : Word) (x : Nat) (hp : p.toNat = 31 * 2 ^ 26 + x) (hx : x < 2 ^ 11) :
    w &&& 0xFC0007FF = p ↔ w.toNat / 2 ^ 26 = 31 ∧ w.toNat % 2 ^ 11 = x :=
  beq_iff_eq.symm.trans (EncodesOwnRow.selects_formX "" p w x hp hx)

/-- R54's field, as R55 writes it: the displacement modulo 2^16. -/
theorem toNat_ofInt_sixteen (d : Int) : (BitVec.ofInt 16 d).toNat = (d % 2 ^ 16).toNat := by
  rw [BitVec.toNat_ofInt]
  rfl

/-- Settles O3: the condition of each branch of the decoder is the row's mask and match; an encoded word is the sum of its
fields. -/
theorem rowsOfTheOpcodeTableSelectTheInstructions : Obligations.RowsOfTheOpcodeTableSelectTheInstructions := by
  refine ⟨fun w => ⟨?_, ?_, ?_, ?_⟩, fun fs ra rb d => ⟨?_, ?_, ?_, ?_⟩⟩
  · rw [decodes_stfs_iff, and_mask_formD_eq_iff w _ 52 rfl]
  · rw [decodes_stfsu_iff, and_mask_formD_eq_iff w _ 53 rfl]
  · rw [decodes_stfsx_iff, and_mask_formX_eq_iff w _ (663 * 2) rfl (by decide)]
  · rw [decodes_stfsux_iff, and_mask_formX_eq_iff w _ (695 * 2) rfl (by decide)]
  · rw [encode, formD_toNat, toNat_ofInt_sixteen]; rfl
  · rw [encode, formD_toNat, toNat_ofInt_sixteen]; rfl
  · exact formX_toNat fs ra rb 663
  · exact formX_toNat fs ra rb 695

/-- Settles O4: each branch of the algorithm is a case of the decoder. -/
theorem decodeFollowsTheAlgorithm : Obligations.DecodeFollowsTheAlgorithm := by
  intro w
  simp only [← fieldFs_eq_ofNat, ← fieldRa_eq_ofNat, ← fieldRb_eq_ofNat, ← fieldD_eq_ite, ← mod_two_pow_eleven_eq_iff]
  obtain ⟨h, hd⟩ | ⟨h, hd⟩ | ⟨h, hd⟩ | ⟨h, hd⟩ | ⟨⟨h1, h2, h3, h4⟩, hd⟩ := decode_cases w
  · rwa [if_pos h]
  · rwa [if_neg (by omega), if_pos h]
  · rwa [if_neg (by omega), if_neg (by omega), if_pos h]
  · rwa [if_neg (by omega), if_neg (by omega), if_neg (by omega), if_pos h]
  · rwa [if_neg h1, if_neg h2, if_neg h3, if_neg h4]

/-! ### The displacement (R54) -/

theorem fieldD_of_decode {w : Word} {fs ra : RegNum} {d : Int}
    (h : decode w = .ok (.stfs fs ra d) ∨ decode w = .ok (.stfsu fs ra d)) : fieldD w = d := by
  obtain ⟨-, hd⟩ | ⟨-, hd⟩ | ⟨-, hd⟩ | ⟨-, hd⟩ | ⟨-, why, hd⟩ := decode_cases w <;> simp [hd] at h
  · exact h.2.2
  · exact h.2.2

/-- Settles O5: a decoded displacement is the field read as a signed number, of which `BitVec.signExtend` is the 64-bit pattern. -/
theorem displacementIsSignExtended : Obligations.DisplacementIsSignExtended := by
  intro w a fs ra d h
  obtain rfl := fieldD_of_decode h
  refine ⟨rfl, ?_, ?_⟩ <;> rw [fieldD_eq_ite] <;> split <;> omega

/-! ### Words that are no instruction of the model (R56, R58) -/

theorem step_of_decode_rejected {s : State} {w : Word} {why : DecodeReject} (h : HasStep s) (hf : fetch s = .ok w)
    (hd : decode w = .rejected why) : step s = .refused (.notDecoded s.cpu.pc w) := by
  simp [step, h.notStopped, atEnd_eq_false_of_hasStep h, hf, hd]

/-- R58: of no row, by the masks. -/
theorem ofNoRow_iff (w : Word) :
    OfNoRow w.toNat ↔ w &&& 0xFC000000 ≠ 0xD0000000 ∧ w &&& 0xFC000000 ≠ 0xD4000000 ∧
      w &&& 0xFC0007FF ≠ 0x7C00052E ∧ w &&& 0xFC0007FF ≠ 0x7C00056E := by
  rw [Ne, Ne, Ne, Ne, and_mask_formD_eq_iff w _ 52 rfl, and_mask_formD_eq_iff w _ 53 rfl,
    and_mask_formX_eq_iff w _ (663 * 2) rfl (by decide), and_mask_formX_eq_iff w _ (695 * 2) rfl (by decide), OfNoRow]

/-- R56: a form X word of the table with Rc = 1 is of no row, its low eleven bits being odd. -/
theorem ofNoRow_of_record {n xo : Nat} (h : n / 2 ^ 26 = 31 ∧ n % 2 ^ 11 = xo * 2 + 1) : OfNoRow n :=
  ⟨by omega, by omega, by omega, by omega⟩

/-- Settles O7: in each of the three cases the word is of no row, so it is rejected. -/
theorem otherWordsAreRefused : Obligations.OtherWordsAreRefused := by
  intro s w hs hf hw
  have hnone : OfNoRow w.toNat := by
    obtain hstfsx | hstfsux | hnone := hw
    · exact ofNoRow_of_record ((and_mask_formX_eq_iff w _ (663 * 2 + 1) rfl (by decide)).1 hstfsx)
    · exact ofNoRow_of_record ((and_mask_formX_eq_iff w _ (695 * 2 + 1) rfl (by decide)).1 hstfsux)
    · exact (ofNoRow_iff w).2 hnone
  obtain ⟨why, hd⟩ := decode_rejected_of_ofNoRow hnone
  exact step_of_decode_rejected hs hf hd

/-! ### The invalid forms (R57) -/

/-- InvalidForm is answered under the hardware profile alone, and by the update forms with RA = 0 alone. -/
theorem exec_invalidForm_only {i : Instr} {s : State} {pc word : Word} (h : exec i s = .fault (.invalidForm pc word)) :
    s.cfg.profile = .hw ∧ isUpdate i = true ∧ raOf i = 0 := by
  obtain ⟨before, after, heq, -⟩ := firstFault_some _ _ ((exec_fault_iff i s _).1 h)
  have hmem : (true, .invalidForm pc word) ∈ storeFaults (encode i) (storeOpOf i) s := by simp [heq]
  simp only [storeFaults, List.mem_append, List.mem_cons, List.mem_map, Prod.mk.injEq, reduceCtorEq, and_false, exists_false,
    List.not_mem_nil, or_false, false_or] at hmem
  obtain ⟨hform, -⟩ := hmem
  rw [eq_comm, Bool.and_eq_true, isHw_iff, beq_iff_eq, updates_eq_some_zero_iff] at hform
  exact hform

/-- With the floating-point unit enabled, the hardware answers an update form with RA = 0 by InvalidForm, whatever its other
operands. -/
theorem exec_invalidForm {i : Instr} {s : State} (hhw : s.cfg.profile = .hw) (hfp : s.cpu.msr.fp = true)
    (hu : isUpdate i = true) (hra : raOf i = 0) : exec i s = .fault (.invalidForm s.cpu.pc (encode i)) := by
  rw [exec_eq_storeSingle, storeSingle_outcome, if_neg (by simp [hfp]),
    if_pos (by simp [isHw, hhw, (updates_eq_some_zero_iff i).2 ⟨hu, hra⟩])]

/-! ### A completed store, in the words of the statements (R75 to R79) -/

theorem baseOf_of_update {i : Instr} (a : Agent) (hu : isUpdate i = true) : baseOf a i = a.readGpr (raOf i) := by
  cases i with
  | stfs | stfsx => simp [isUpdate] at hu
  | stfsu | stfsux => rfl

theorem writeBackValue_zext32 (i : Instr) {c : Config} (a : Agent) (h : c.writeBack = .zext32) :
    (storeOpOf i).writeBackValue c a = BitVec.ofNat 64 (eaOf a i) := by
  rw [StoreOp.writeBackValue, h, ← toNat_ea_storeOpOf, BitVec.ofNat_toNat]

theorem writeBackValue_full64 (i : Instr) {c : Config} (a : Agent) (h : c.writeBack = .full64) :
    (storeOpOf i).writeBackValue c a = baseOf a i + offsetOf a i := by
  rw [StoreOp.writeBackValue, h]
  cases i <;> rfl

/-- RA of an update form receives the value of the write-back, under both settings. -/
theorem gprAfter_ra {i : Instr} (s : State) (hu : isUpdate i = true) :
    gprAfter s i (raOf i) = (storeOpOf i).writeBackValue s.cfg s.cpu := by
  rw [gprAfter, if_pos ⟨hu, rfl⟩]
  cases hwb : s.cfg.writeBack with
  | zext32 => exact (writeBackValue_zext32 i s.cpu hwb).symm
  | full64 => exact (writeBackValue_full64 i s.cpu hwb).symm

theorem readGpr_commitStore_eq_gprAfter (i : Instr) (s : State) (j : RegNum) :
    (commitStore (storeOpOf i) s).cpu.readGpr j = gprAfter s i j := by
  rw [readGpr_commitStore]
  by_cases h : isUpdate i = true ∧ j = raOf i
  · obtain ⟨hu, rfl⟩ := h
    have hra : (storeOpOf i).updates = some (raOf i) := by rw [updates_storeOpOf, if_pos hu]
    rw [writeBack_some _ _ _ _ hra, readGpr_writeGpr_same, gprAfter_ra s hu]
  · rw [readGpr_writeBack_other i _ _ j h, gprAfter, if_neg h]

theorem flagsAfter_commitStore (i : Instr) (s : State) : FlagsAfter s (commitStore (storeOpOf i) s) (sfdOf s i) := by
  constructor <;> intro hp <;> simp [hp, result_storeOpOf]

/-- A ready store completes as R75 to R78 list its effects: each is a field of the commit. -/
theorem completes_of_ready {i : Instr} {s : State} (h : StoreReady (storeOpOf i) s) :
    Completes s i (commitStore (storeOpOf i) s) where
  answers := (exec_next_iff i s _).2 ⟨h, rfl⟩
  reservations := killedAt_commitStore i s
  memory := storedAt_commitStore i s s.mem
  flags := flagsAfter_commitStore i s
  cr := commitStore_cr _ s
  xer := commitStore_xer _ s
  registers := readGpr_commitStore_eq_gprAfter i s
  pc := commitStore_pc _ s

theorem readWord_commitStore (i : Instr) (s : State) :
    (commitStore (storeOpOf i) s).mem.readWord (eaOf s.cpu i) = some (sfdOf s i).word := by
  rw [← toNat_ea_storeOpOf, commitStore_mem, readWord_writeWord_same, result_storeOpOf]

/-- Settles O32: the second check of R93 under hw; in the snapshot, where it does not hold, the completion of a ready store; and
RA = RB is no condition of any check. -/
theorem invalidFormsFaultOnHardwareAndRunInTheSnapshot :
    Obligations.InvalidFormsFaultOnHardwareAndRunInTheSnapshot := by
  refine ⟨fun i s => exec_invalidForm, fun i s _ hu hra hready => ?_,
    fun fs r s hr => ⟨fun pc w h => ?_, fun hready => ⟨_, completes_of_ready hready⟩⟩⟩
  · have hbase : baseOf s.cpu i = s.cpu.readGpr 0 := hra ▸ baseOf_of_update s.cpu hu
    have hdone := completes_of_ready hready
    refine ⟨_, hdone.answers, by rw [eaOf, hbase], readWord_commitStore i s, fun hwb => ?_⟩
    rw [hdone.registers, ← hra, gprAfter_ra s hu, writeBackValue_zext32 i s.cpu hwb]
  · obtain ⟨-, -, hra⟩ := exec_invalidForm_only h
    exact hr hra

end Sys2Proof.Proofs
end

section
/-! PROOFS. The statements of spec/40_fp_store_single.md, and the lemmas they share. -/

namespace Sys2Proof.Proofs

open Sys2Proof.Machine Sys2Proof.Claims Sys2Proof.Laws

/-! ### The exceptions of a store in their order (R75 to R78, R93) -/

/-- The first check of R93 on an instruction (R91). -/
theorem exec_floatingPointUnavailable {i : Instr} {s : State} (hhw : s.cfg.profile = .hw) (hfp : s.cpu.msr.fp = false) :
    exec i s = .fault (.floatingPointUnavailable s.cpu.pc) := by
  rw [exec_eq_storeSingle, storeSingle_outcome, if_pos (by simp [isHw, hhw, hfp])]

/-- The first register of those read, in the order of R93 (6), that carries the mark is the one reported. -/
theorem exec_unwrittenRegister {i : Instr} {s : State} {r : RegName}
    (hhw : s.cfg.profile = .hw → s.cpu.msr.fp = true ∧ ¬(isUpdate i = true ∧ raOf i = 0))
    (h : (readsOf i).find? (fun r => decide (r ∈ s.cpu.unwritten)) = some r) :
    exec i s = .fault (.unwrittenRegister s.cpu.pc r) := by
  have hmarked : (storeOpOf i).reads.find? (fun r => s.cpu.isUnwritten r) = some r := reads_storeOpOf i ▸ h
  rw [exec_eq_storeSingle, storeSingle_outcome, if_neg, if_neg, hmarked]
  · rw [Bool.and_eq_true, isHw_iff, beq_iff_eq, updates_eq_some_zero_iff]
    exact fun hform => (hhw hform.1).2 hform.2
  · rw [Bool.and_eq_true, isHw_iff, Bool.not_eq_true']
    exact fun hfp => Bool.eq_false_iff.1 hfp.2 (hhw hfp.1).1

/-- In every state the outcome is that of the first exception that holds, and the completion where none does. -/
theorem faultsInOrder (s : State) (i : Instr) : FaultsInOrder s i := by
  unfold FaultsInOrder
  dsimp only
  split
  next hfp => exact exec_floatingPointUnavailable hfp.1 hfp.2
  next hfp =>
    have hfp' : s.cfg.profile = .hw → s.cpu.msr.fp = true := by simpa using hfp
    split
    next hform => exact exec_invalidForm hform.1 (hfp' hform.1) hform.2.1 hform.2.2
    next hform =>
      have hhw : s.cfg.profile = .hw → s.cpu.msr.fp = true ∧ ¬(isUpdate i = true ∧ raOf i = 0) :=
        fun hp => ⟨hfp' hp, fun h => hform ⟨hp, h⟩⟩
      split
      next r hr => exact exec_unwrittenRegister hhw hr
      next hnone =>
        have houtcome := exec_past_operand_checks i s hhw (by simpa using hnone)
        simp only [Bool.and_eq_true, isHw_iff, decide_eq_true_eq, and_assoc, beq_iff_eq] at houtcome
        split_ifs with hwrap hadmits hcode halign hpc
        · rw [houtcome, if_pos hwrap]
        · rw [houtcome, if_neg hwrap, if_pos hadmits]
        · rw [houtcome, if_neg hwrap, if_neg hadmits, if_pos hcode]
        · rw [houtcome, if_neg hwrap, if_neg hadmits, if_neg hcode, if_pos halign]
        · rw [houtcome, if_neg hwrap, if_neg hadmits, if_neg hcode, if_neg halign, if_pos hpc]
        · rw [if_neg hwrap, if_neg hadmits, if_neg hcode, if_neg halign, if_neg hpc] at houtcome
          exact ⟨_, completes_of_ready ((exec_next_iff i s _).1 houtcome).1⟩

/-! ### The general registers a store leaves -/

/-- A form without update writes no general register. -/
theorem commitStore_gpr_of_not_update {i : Instr} (s : State) (h : isUpdate i = false) :
    (commitStore (storeOpOf i) s).cpu.gpr = s.cpu.gpr := by
  rw [commitStore_gpr, writeBack_none _ _ _ (by rw [updates_storeOpOf, h]; rfl)]

/-- An update form writes RA and no other register, and to RA under `zext32` the address, zero-extended. -/
theorem completes_update {i : Instr} {s : State} (hu : isUpdate i = true) (h : StoreReady (storeOpOf i) s) :
    ∃ t, Completes s i t ∧ (∀ j, j ≠ raOf i → t.cpu.readGpr j = s.cpu.readGpr j) ∧
      (s.cfg.writeBack = .zext32 → t.cpu.readGpr (raOf i) = BitVec.ofNat 64 (eaOf s.cpu i)) := by
  have hdone := completes_of_ready h
  refine ⟨_, hdone, fun j hj => ?_, fun hwb => ?_⟩
  · rw [hdone.registers, gprAfter, if_neg fun hw => hj hw.2]
  · rw [hdone.registers, gprAfter_ra s hu, writeBackValue_zext32 i s.cpu hwb]

/-! ### The four instructions (R75 to R78) -/

/-- Settles O14: a ready `stfs` completes, with no write-back; in every state the checks of R93 decide. -/
theorem stfsCompletes : Obligations.StfsCompletes := by
  refine fun s fs ra d => ⟨?_, fun h => ⟨_, completes_of_ready (i := .stfs fs ra d) h,
    commitStore_gpr_of_not_update (i := .stfs fs ra d) s rfl⟩, faultsInOrder s _⟩
  rw [encode, formD_toNat, toNat_ofInt_sixteen]; rfl

/-- Settles O15: a ready `stfsu` completes, and its write-back is the one of the update forms. -/
theorem stfsuCompletes : Obligations.StfsuCompletes := by
  refine fun s fs ra d => ⟨?_, completes_update (i := .stfsu fs ra d) rfl, faultsInOrder s _⟩
  rw [encode, formD_toNat, toNat_ofInt_sixteen]; rfl

/-- Settles O16: a ready `stfsx` completes, with no write-back. -/
theorem stfsxCompletes : Obligations.StfsxCompletes := by
  refine fun s fs ra rb => ⟨?_, fun h => ⟨_, completes_of_ready (i := .stfsx fs ra rb) h,
    commitStore_gpr_of_not_update (i := .stfsx fs ra rb) s rfl⟩, faultsInOrder s _⟩
  rw [encode, formX_toNat, show (663 : BitVec 10).toNat = 663 from rfl]
  omega

/-- Settles O17: a ready `stfsux` completes, RA = RB being no condition, and its write-back is the one of the update forms. -/
theorem stfsuxCompletes : Obligations.StfsuxCompletes := by
  refine fun s fs ra rb => ⟨?_, completes_update (i := .stfsux fs ra rb) rfl, faultsInOrder s _⟩
  rw [encode, formX_toNat, show (695 : BitVec 10).toNat = 695 from rfl]
  omega

/-! ### The address (R79) -/

/-- R79: the upper halves of the base and the offset do not reach the address. -/
theorem eaOf_eq_sum_of_low_halves (a : Agent) (i : Instr) :
    eaOf a i = ((baseOf a i).toNat % 2 ^ 32 + (offsetOf a i).toNat % 2 ^ 32) % 2 ^ 32 :=
  Nat.add_mod _ _ _

/-- Settles O19: the addition is no condition of a check, and the commit stores at its low half and writes its value back. -/
theorem addressIsTheSumOfTheLowHalves : Obligations.AddressIsTheSumOfTheLowHalves := by
  refine fun i s t => ⟨fun h => ⟨_, (completes_of_ready h).answers⟩, fun h => ?_⟩
  obtain ⟨hready, rfl⟩ := (exec_next_iff i s t).1 h
  have hdone := completes_of_ready hready
  rw [← eaOf_eq_sum_of_low_halves]
  refine ⟨hdone.flags, hdone.xer, hdone.cr, readWord_commitStore i s, hdone.memory.others, fun hu hwb => ?_, fun hu hwb => ?_⟩
  · have hea := eaOf_le_of_ready hready
    rw [hdone.registers, gprAfter_ra s hu, writeBackValue_zext32 i s.cpu hwb, BitVec.toNat_ofNat]
    omega
  · rw [hdone.registers, gprAfter_ra s hu, writeBackValue_full64 i s.cpu hwb, BitVec.toNat_add]

/-! ### The flags (R73) -/

/-- Settles O39: the flags and the word of a completed store are those of its conversion, and no FPSCR control field changes. -/
theorem flagsAreOredIntoFpscr : Obligations.FlagsAreOredIntoFpscr := by
  intro i s t hhw h
  obtain ⟨-, rfl⟩ := (exec_next_iff i s t).1 h
  have hflags := flagsAfter_commitStore i s
  exact ⟨hflags.hwXx hhw, hflags.hwOx hhw, hflags.hwUx hhw, hflags.hwVxsnan hhw, afterStore_rn _ _ _ _,
    afterStore_ni _ _ _ _, readWord_commitStore i s⟩

/-! ### The contract of R71 on one result, as propositions -/

/-- The result of a conversion that raises no flag. -/
def unflagged (y : Word) : SfdResult := { word := y, xx := false, ox := false, ux := false, vxsnan := false }

theorem eq_unflagged_iff (r : SfdResult) (y : Word) : r = unflagged y ↔ r.word = y ∧ SfdNoFlags r = true := by
  obtain ⟨word, xx, ox, ux, vxsnan⟩ := r
  simp [unflagged, SfdNoFlags, and_assoc]

/-- Clauses (e) and (f) of R71 for a finite value. -/
structure FiniteContract (x : DWord) (ni : Bool) (r : SfdResult) : Prop where
  magnitude : boundsMagnitude x (mag32 r.word).toNat = true ∨
    (ni = true ∧ units64 x < units32 0x00800000 ∧ (mag32 r.word).toNat = 0)
  overflow : r.ox = true → units32 0x7F7FFFFF < units64 x
  underflow : r.ux = true → 0 < units64 x ∧ units64 x < units32 0x00800000
  inexact : r.xx = true → (mag32 r.word).toNat = 0x7F800000 ∨ units32 (mag32 r.word).toNat ≠ units64 x
  signalling : r.vxsnan = false

/-- The clauses of R71 for a value that is no NaN. -/
structure NumberContract (x : DWord) (ni : Bool) (r : SfdResult) : Prop where
  sign : r.word.getLsbD 31 = sign64 x
  exact : ∀ y, exactOf x = some y → (isDenormal32 y = true ∧ ni = true) ∨ r = unflagged y
  finite : isInf64 x = false → FiniteContract x ni r

theorem meetsContract_nan_iff {x : DWord} {ni : Bool} {r : SfdResult} (h : isNan64 x = true) :
    meetsContract x ni r = true ↔ r.word.extractLsb' 22 9 = 0b111111111#9 ∧ r.xx = false ∧ r.ox = false ∧ r.ux = false ∧
      (r.vxsnan = true → isSnan64 x = true) := by
  simp [meetsContract, h, and_assoc, or_iff_not_imp_left]

theorem finiteContract_iff (x : DWord) (ni : Bool) (r : SfdResult) : FiniteContract x ni r ↔
    (boundsMagnitude x (mag32 r.word).toNat = true ∨
      (ni = true ∧ units64 x < units32 0x00800000 ∧ (mag32 r.word).toNat = 0)) ∧
    (r.ox = true → units32 0x7F7FFFFF < units64 x) ∧
    (r.ux = true → 0 < units64 x ∧ units64 x < units32 0x00800000) ∧
    (r.xx = true → (mag32 r.word).toNat = 0x7F800000 ∨ units32 (mag32 r.word).toNat ≠ units64 x) ∧ r.vxsnan = false :=
  ⟨fun ⟨hmag, hox, hux, hxx, hvx⟩ => ⟨hmag, hox, hux, hxx, hvx⟩, fun ⟨hmag, hox, hux, hxx, hvx⟩ => ⟨hmag, hox, hux, hxx, hvx⟩⟩

theorem numberContract_iff (x : DWord) (ni : Bool) (r : SfdResult) : NumberContract x ni r ↔
    r.word.getLsbD 31 = sign64 x ∧
    (∀ y, exactOf x = some y → (isDenormal32 y = true ∧ ni = true) ∨ r = unflagged y) ∧
    (isInf64 x = false → FiniteContract x ni r) :=
  ⟨fun ⟨hsign, hexact, hfinite⟩ => ⟨hsign, hexact, hfinite⟩, fun ⟨hsign, hexact, hfinite⟩ => ⟨hsign, hexact, hfinite⟩⟩

theorem meetsContract_number_iff {x : DWord} {ni : Bool} {r : SfdResult} (h : isNan64 x = false) :
    meetsContract x ni r = true ↔ NumberContract x ni r := by
  simp only [numberContract_iff, finiteContract_iff, eq_unflagged_iff]
  unfold meetsContract
  cases exactOf x <;> simp [h, and_assoc, or_iff_not_imp_left]

theorem boundsMagnitude_iff (x : DWord) (p : Nat) :
    boundsMagnitude x p = true ↔
      p ≤ 0x7F800000 ∧ (0x7F7FFFFF ≤ p ∨ units64 x < units32 (p + 1)) ∧ (p = 0 ∨ units32 (p - 1) < units64 x) := by
  simp [boundsMagnitude, and_assoc]

/-! ### What the contract on every result gives: the clauses of R71 on the function -/

theorem exp32_lt (y : Word) : exp32 y < 2 ^ 8 := by
  rw [exp32_toNat]; omega

theorem frac32_lt (y : Word) : frac32 y < 2 ^ 23 := by
  rw [frac32_toNat]; omega

theorem mag32_toNat (y : Word) : (mag32 y).toNat = exp32 y * 2 ^ 23 + frac32 y := by
  have := y.isLt
  rw [exp32_toNat, frac32_toNat, mag32, extract_toNat]
  omega

theorem isDenormal32_iff (y : Word) : isDenormal32 y = true ↔ 0 < (mag32 y).toNat ∧ (mag32 y).toNat < 0x00800000 := by
  have := frac32_lt y
  rw [mag32_toNat, isDenormal32, Bool.and_eq_true, beq_iff_eq, bne_iff_ne]
  omega

theorem isNan32_of_isDenormal32 {y : Word} (h : isDenormal32 y = true) : isNan32 y = false := by
  obtain ⟨hexp, -⟩ := (Bool.and_eq_true _ _).mp h
  simp [isNan32, beq_iff_eq.1 hexp]

/-- A widened pattern is an infinity where the pattern's exponent is 255, and finite elsewhere. -/
theorem exp64_widen_eq_iff (y : Word) : exp64 (widen y) = 2047 ↔ exp32 y = 255 := by
  obtain ⟨-, hinf, hnormal, hzero, hdenormal⟩ := widen_parts y
  have hexp := exp32_lt y
  refine ⟨fun h => ?_, fun h => (hinf h).1⟩
  by_contra hne
  by_cases h0 : exp32 y = 0
  · by_cases hf : frac32 y = 0
    · have := (hzero h0 hf).1
      omega
    · have := (hdenormal h0 hf).1
      have : (frac32 y).log2 < 23 := (Nat.log2_lt hf).2 (frac32_lt y)
      omega
  · have := (hnormal hne h0).1
    omega

theorem isNan64_widen (y : Word) : isNan64 (widen y) = false := by
  by_cases h : exp32 y = 255
  · obtain ⟨-, hinf, -⟩ := widen_parts y
    simp [isNan64, (hinf h).2]
  · simp [isNan64, mt (exp64_widen_eq_iff y).1 h]

theorem sign64_toNat (x : DWord) : sign64 x = decide (x.toNat / 2 ^ 63 = 1) := by
  have := x.isLt
  rw [sign64, BitVec.getLsbD, Nat.testBit_eq_decide_div_mod_eq]
  exact decide_eq_decide.2 (by omega)

/-- A pattern is its sign, its exponent and its fraction. -/
theorem eq_of_parts64 {x x' : DWord} (hs : sign64 x = sign64 x') (he : exp64 x = exp64 x') (hf : frac64 x = frac64 x') :
    x = x' := by
  have := x.isLt
  have := x'.isLt
  rw [sign64_toNat, sign64_toNat, decide_eq_decide] at hs
  rw [exp64_toNat, exp64_toNat] at he
  rw [frac64_toNat, frac64_toNat] at hf
  exact BitVec.eq_of_toNat_eq (by omega)

/-- An infinity is the widening of the infinity of its sign. -/
theorem exactOf_of_isInf64 {x : DWord} (h : isInf64 x = true) : exactOf x = some (pack32 (sign64 x) 0x7F800000) := by
  simp only [isInf64, Bool.and_eq_true, beq_iff_eq] at h
  obtain ⟨hexp, hfrac⟩ := h
  have hmag := mag32_toNat (pack32 (sign64 x) 0x7F800000)
  rw [mag32_pack32, show (0x7F800000 : BitVec 31).toNat = 0x7F800000 from rfl] at hmag
  have hf := frac32_lt (pack32 (sign64 x) 0x7F800000)
  have hexp' : exp32 (pack32 (sign64 x) 0x7F800000) = 255 := by omega
  obtain ⟨hs, hinf, -⟩ := widen_parts (pack32 (sign64 x) 0x7F800000)
  obtain ⟨he, hfr⟩ := hinf hexp'
  have hwiden : widen (pack32 (sign64 x) 0x7F800000) = x :=
    eq_of_parts64 (by rw [hs, sign_pack32]) (by rw [he, hexp]) (by rw [hfr, hfrac])
  rw [exactOf, if_pos hexp]
  exact if_pos hwiden

/-- The result for an infinity is the infinity of its sign, with no flag. -/
theorem NumberContract.eq_unflagged_of_isInf64 {x : DWord} {ni : Bool} {r : SfdResult} (h : NumberContract x ni r)
    (hinf : isInf64 x = true) : r = unflagged (pack32 (sign64 x) 0x7F800000) := by
  obtain ⟨hden, -⟩ | h := h.exact _ (exactOf_of_isInf64 hinf)
  · rw [isDenormal32_iff, mag32_pack32] at hden
    exact absurd hden (by decide)
  · exact h

/-- XX, OX and UX are raised for finite values alone. -/
theorem finiteContract_of_flag {x : DWord} {ni : Bool} {r : SfdResult} (h : meetsContract x ni r = true)
    (hflag : r.xx = true ∨ r.ox = true ∨ r.ux = true) : isNan64 x = false ∧ isInf64 x = false ∧ FiniteContract x ni r := by
  have hnan : isNan64 x = false := by
    refine Bool.eq_false_iff.2 fun hnan => ?_
    obtain ⟨-, hxx, hox, hux, -⟩ := (meetsContract_nan_iff hnan).1 h
    simp [hxx, hox, hux] at hflag
  have hnumber := (meetsContract_number_iff hnan).1 h
  have hinf : isInf64 x = false := by
    refine Bool.eq_false_iff.2 fun hinf => ?_
    simp [hnumber.eq_unflagged_of_isInf64 hinf, unflagged] at hflag
  exact ⟨hnan, hinf, hnumber.finite hinf⟩

/-- VXSNAN is raised for signalling NaNs alone. -/
theorem isSnan64_of_vxsnan {x : DWord} {ni : Bool} {r : SfdResult} (h : meetsContract x ni r = true)
    (hvx : r.vxsnan = true) : isSnan64 x = true := by
  cases hnan : isNan64 x with
  | true =>
    obtain ⟨-, -, -, -, hsnan⟩ := (meetsContract_nan_iff hnan).1 h
    exact hsnan hvx
  | false =>
    have hnumber := (meetsContract_number_iff hnan).1 h
    cases hinf : isInf64 x with
    | true => simp [hnumber.eq_unflagged_of_isInf64 hinf, unflagged] at hvx
    | false => simp [(hnumber.finite hinf).signalling] at hvx

/-- Nine ones from bit 22: exponent 255, and the quiet bit. -/
theorem quiet_of_extract {y : Word} (h : y.extractLsb' 22 9 = 0b111111111#9) : exp32 y = 255 ∧ y.getLsbD 22 = true := by
  have h' : y.toNat / 2 ^ 22 % 2 ^ 9 = 511 := by rw [← extract_toNat, h]; rfl
  rw [exp32_toNat, BitVec.getLsbD, Nat.testBit_eq_decide_div_mod_eq, decide_eq_true_eq]
  omega

/-- A magnitude that clause (e) allows is one of any two adjacent ones that enclose the value. -/
theorem eq_or_eq_succ_of_boundsMagnitude {x : DWord} {p lo : Nat} (h : boundsMagnitude x p = true) (hlo : lo < 0x7F800000)
    (hlow : units32 lo ≤ units64 x) (hhigh : lo + 1 = 0x7F800000 ∨ units64 x ≤ units32 (lo + 1)) : p = lo ∨ p = lo + 1 := by
  obtain ⟨hp, hup, hdown⟩ := (boundsMagnitude_iff x p).1 h
  have hle : lo ≤ p := by
    obtain hmax | hup := hup
    · omega
    · exact Nat.lt_succ_iff.1 (units32_strictMono.lt_iff_lt.1 (Nat.lt_of_le_of_lt hlow hup))
  have hge : p ≤ lo + 1 := by
    obtain htop | hhigh := hhigh
    · omega
    · obtain hzero | hdown := hdown
      · omega
      · have := units32_strictMono.lt_iff_lt.1 (Nat.lt_of_lt_of_le hdown hhigh)
        omega
  omega

/-- A conversion each of whose results the contract allows meets it. -/
theorem sfdContract_of_meetsContract {f : DWord → BitVec 2 → Bool → SfdResult}
    (h : ∀ x rn ni, meetsContract x ni (f x rn ni) = true) : SfdContract f where
  exact y rn ni hnan hden :=
    (((meetsContract_number_iff (isNan64_widen y)).1 (h _ rn ni)).exact y (exactOf_widen y hnan)).resolve_left (by simp [hden])
  exactDenormal y rn hden :=
    (((meetsContract_number_iff (isNan64_widen y)).1 (h _ rn false)).exact y
      (exactOf_widen y (isNan32_of_isDenormal32 hden))).resolve_left (by simp)
  quiet x rn ni hnan := by
    obtain ⟨hword, hxx, hox, hux, -⟩ := (meetsContract_nan_iff hnan).1 (h x rn ni)
    obtain ⟨hexp, hquiet⟩ := quiet_of_extract hword
    exact ⟨hexp, hquiet, hxx, hox, hux⟩
  sign x rn ni hnan := ((meetsContract_number_iff hnan).1 (h x rn ni)).sign
  magnitude x rn ni hnan hinf lo hlo hlow hhigh := by
    obtain hbounds | hflush := (((meetsContract_number_iff hnan).1 (h x rn ni)).finite hinf).magnitude
    · exact (eq_or_eq_succ_of_boundsMagnitude hbounds hlo hlow hhigh).imp_right .inl
    · exact .inr (.inr hflush)
  overflow x rn ni hox := by
    obtain ⟨hnan, hinf, hfinite⟩ := finiteContract_of_flag (h x rn ni) (.inr (.inl hox))
    exact ⟨hnan, hinf, hfinite.overflow hox⟩
  underflow x rn ni hux := by
    obtain ⟨hnan, hinf, hfinite⟩ := finiteContract_of_flag (h x rn ni) (.inr (.inr hux))
    exact ⟨hnan, hinf, hfinite.underflow hux⟩
  inexact x rn ni hxx := by
    obtain ⟨hnan, hinf, hfinite⟩ := finiteContract_of_flag (h x rn ni) (.inl hxx)
    exact ⟨hnan, hinf, hfinite.inexact hxx⟩
  signalling x rn ni := isSnan64_of_vxsnan (h x rn ni)

/-! ### `SFD_ieee` meets the contract (R72) -/

/-- `b` is the magnitude at or below `|x|`, and `r` what is left over. -/
structure AtOrBelow (x : DWord) (b r : Nat) : Prop where
  value : units64 x = units32 b + r
  next : units64 x < units32 (b + 1)

section
variable {x : DWord} {b r : Nat} (h : AtOrBelow x b r)
include h

theorem AtOrBelow.lt_units32_iff (j : Nat) : units64 x < units32 j ↔ b < j := by
  constructor
  · intro hj
    have := h.value
    exact units32_strictMono.lt_iff_lt.1 (by omega)
  · intro hj
    exact Nat.lt_of_lt_of_le h.next (units32_strictMono.le_iff_le.2 hj)

theorem AtOrBelow.eq_units32_iff (j : Nat) : units64 x = units32 j ↔ j = b ∧ r = 0 := by
  have hv := h.value
  constructor
  · intro hj
    have hlt : j < b + 1 := units32_strictMono.lt_iff_lt.1 (hj ▸ h.next)
    have hle : b ≤ j := units32_strictMono.le_iff_le.1 (by omega)
    obtain rfl : j = b := by omega
    exact ⟨rfl, by omega⟩
  · rintro ⟨rfl, rfl⟩
    exact hv

theorem AtOrBelow.units32_lt_iff (j : Nat) : units32 j < units64 x ↔ j < b ∨ (j = b ∧ r ≠ 0) := by
  have hlt := h.lt_units32_iff j
  have heq := h.eq_units32_iff j
  omega

end

/-- A finite value that is a binary32 value: of which pattern. -/
theorem exactOf_finite {x : DWord} {y : Word} (hf : exp64 x ≠ 2047) (h : exactOf x = some y) :
    y = pack32 (sign64 x) (mag32 y) ∧ (mag32 y).toNat < 0x7F800000 ∧ units64 x = units32 (mag32 y).toNat := by
  obtain rfl := widen_of_exactOf x y h
  obtain ⟨hs, -⟩ := widen_parts y
  have hexp := mt (exp64_widen_eq_iff y).2 hf
  have hexp' := exp32_lt y
  have hfrac := frac32_lt y
  exact ⟨by rw [hs, pack32_parts], by rw [mag32_toNat]; omega, units64_widen y hexp⟩

/-- The result of a flush (D4): allowed under NI = 1 for a value other than zero below 2^-126. -/
theorem meetsContract_flushed {x : DWord} (hf : exp64 x ≠ 2047) (hz : units64 x ≠ 0) (hsmall : units64 x < units32 0x00800000) :
    meetsContract x true { word := pack32 (sign64 x) 0, xx := true, ox := false, ux := true, vxsnan := false } = true := by
  refine (meetsContract_number_iff ((finite_iff x).2 hf).1).2 ⟨sign_pack32 _ _, fun y hy => .inl ⟨?_, rfl⟩, fun _ => ?_⟩
  · obtain ⟨-, -, hval⟩ := exactOf_finite hf hy
    rw [isDenormal32_iff]
    have hlt : (mag32 y).toNat < 0x00800000 := units32_strictMono.lt_iff_lt.1 (hval.symm.trans_lt hsmall)
    refine ⟨Nat.pos_of_ne_zero fun h0 => hz ?_, hlt⟩
    rw [hval, h0, units32_zero]
  · have hmag : (mag32 (pack32 (sign64 x) 0)).toNat = 0 := by rw [mag32_pack32]; rfl
    exact ⟨.inr ⟨rfl, hsmall, hmag⟩, fun h => Bool.noConfusion h, fun _ => ⟨Nat.pos_of_ne_zero hz, hsmall⟩,
      fun _ => .inr (by rw [hmag, units32_zero]; exact hz.symm), rfl⟩

/-- The magnitude of a rounded result: the rounded one, or that of an overflow. -/
def resultMagnitude (rn : BitVec 2) (s : Bool) (p : Nat) : BitVec 31 :=
  if p < 0x7F800000 then BitVec.ofNat 31 p else overflowMagnitude rn s

theorem resultMagnitude_toNat (rn : BitVec 2) (s : Bool) (p : Nat) :
    (p < 0x7F800000 ∧ (resultMagnitude rn s p).toNat = p) ∨
    (0x7F800000 ≤ p ∧ ((resultMagnitude rn s p).toNat = 0x7F800000 ∨ (resultMagnitude rn s p).toNat = 0x7F7FFFFF)) := by
  unfold resultMagnitude
  split
  next h => exact .inl ⟨h, by rw [BitVec.toNat_ofNat]; omega⟩
  next h => exact .inr ⟨by omega, overflowMagnitude_toNat rn s⟩

/-- The result of a rounding: up or down to a magnitude next to the value, down where it is exact. -/
theorem meetsContract_rounded {x : DWord} {b r : Nat} {up tiny ni : Bool} {rn : BitVec 2} (hf : exp64 x ≠ 2047)
    (hb : AtOrBelow x b r) (hup : r = 0 → up = false) (htiny : tiny = true → b < 0x00800000) :
    meetsContract x ni
      { word := pack32 (sign64 x) (resultMagnitude rn (sign64 x) (b + up.toNat))
        xx := r != 0 || decide (0x7F800000 ≤ b + up.toNat), ox := decide (0x7F800000 ≤ b + up.toNat)
        ux := tiny && r != 0, vxsnan := false } = true := by
  have hup' : up.toNat = 0 ∨ (up.toNat = 1 ∧ r ≠ 0) := by
    cases up
    · exact .inl rfl
    · exact .inr ⟨rfl, fun h => Bool.noConfusion (hup h)⟩
  have hP := resultMagnitude_toNat rn (sign64 x) (b + up.toNat)
  refine (meetsContract_number_iff ((finite_iff x).2 hf).1).2 ⟨sign_pack32 _ _, fun y hy => .inr ?_, fun _ => ?_⟩
  · obtain ⟨hword, hlt, hval⟩ := exactOf_finite hf hy
    obtain ⟨hmag, rfl⟩ := (hb.eq_units32_iff _).1 hval
    have hdown : up.toNat = 0 := by omega
    have hM : resultMagnitude rn (sign64 x) (b + up.toNat) = mag32 y := BitVec.eq_of_toNat_eq (by omega)
    rw [eq_unflagged_iff]
    exact ⟨by rw [hM, ← hword], by simp [SfdNoFlags, hdown, ← hmag, hlt]⟩
  · generalize hmag : (resultMagnitude rn (sign64 x) (b + up.toNat)).toNat = M at hP
    have hlow := hb.units32_lt_iff
    have hhigh := hb.lt_units32_iff
    have heq := hb.eq_units32_iff
    constructor
    · rw [mag32_pack32, hmag, boundsMagnitude_iff, hlow, hhigh]
      omega
    · intro hox
      rw [decide_eq_true_eq] at hox
      rw [hlow]
      omega
    · intro hux
      rw [Bool.and_eq_true, bne_iff_ne] at hux
      obtain ⟨ht, hr⟩ := hux
      have hval := hb.value
      exact ⟨by omega, (hhigh _).2 (htiny ht)⟩
    · intro hxx
      rw [Bool.or_eq_true, bne_iff_ne, decide_eq_true_eq] at hxx
      rw [mag32_pack32, hmag, ne_comm, Ne, heq]
      omega
    · rfl

/-- The frame of a finite value: the magnitude at or below it. -/
theorem atOrBelow_of_frame {x : DWord} {k n r : Nat} (h1 : units64 x = n * 2 ^ (k + 925) + r) (h2 : r < 2 ^ (k + 925))
    (h3 : n < 2 ^ 24) (h4 : k = 0 ∨ 2 ^ 23 ≤ n) : AtOrBelow x (k * 2 ^ 23 + n) r := by
  obtain ⟨unit, -, hr, hval, hnext⟩ := frame_values x k n r h1 h2 h3 h4
  exact ⟨hval, by omega⟩

/-- A quiet NaN has nine ones from bit 22, whatever its sign and its low bits. -/
theorem extract_quietNan (sign : BitVec 1) (payload : BitVec 22) :
    (sign ++ 0xFF#8 ++ 1#1 ++ payload).extractLsb' 22 9 = 0b111111111#9 := by
  have := payload.isLt
  apply BitVec.eq_of_toNat_eq
  rw [extract_toNat]
  simp only [append_toNat, BitVec.toNat_ofNat]
  omega

theorem meetsContract_narrowNan {x : DWord} (ni : Bool) (drawn : Option (BitVec 23)) (h : isNan64 x = true) :
    meetsContract x ni (narrowNan drawn x) = true := by
  refine (meetsContract_nan_iff h).2 ⟨?_, rfl, rfl, rfl, id⟩
  cases drawn with
  | none => exact extract_quietNan _ _
  | some b => exact extract_quietNan _ _

theorem meetsContract_infinity {x : DWord} (ni : Bool) (h : isInf64 x = true) :
    meetsContract x ni (unflagged (pack32 (sign64 x) 0x7F800000)) = true := by
  have hnan : isNan64 x = false := by
    obtain ⟨-, hfrac⟩ := (Bool.and_eq_true _ _).mp h
    simp [isNan64, beq_iff_eq.1 hfrac]
  refine (meetsContract_number_iff hnan).2 ⟨sign_pack32 _ _, fun y hy => .inr ?_, fun hf => ?_⟩
  · rw [exactOf_of_isInf64 h, Option.some_inj] at hy
    rw [hy]
  · simp [h] at hf

theorem meetsContract_zero {x : DWord} (ni : Bool) (hf : exp64 x ≠ 2047) (hz : units64 x = 0) :
    meetsContract x ni (unflagged (pack32 (sign64 x) 0)) = true := by
  have hb : AtOrBelow x 0 0 := ⟨by rw [hz, units32_zero], (hz.trans units32_zero.symm).trans_lt (units32_lt_succ 0)⟩
  simpa [unflagged, resultMagnitude] using
    meetsContract_rounded (ni := ni) (rn := 0b00) (tiny := false) (up := false) hf hb (fun _ => rfl) (by simp)

/-- `SFD_ieee` meets the contract, for every value, RN, NI, TININESS and drawn NaN bits. -/
theorem meetsContract_sfdIeee (t : Tininess) (drawn : Option (BitVec 23)) (x : DWord) (rn : BitVec 2) (ni : Bool) :
    meetsContract x ni (sfdIeee t drawn x rn ni) = true := by
  by_cases hf : exp64 x = 2047
  · cases hnan : isNan64 x with
    | true =>
      rw [sfdIeee, if_pos hnan]
      exact meetsContract_narrowNan ni drawn hnan
    | false =>
      have hinf : isInf64 x = true := Bool.of_not_eq_false fun hinf => (finite_iff x).1 ⟨hnan, hinf⟩ hf
      rw [sfdIeee, if_neg (Bool.eq_false_iff.1 hnan), if_pos hinf]
      exact meetsContract_infinity ni hinf
  by_cases hz : units64 x = 0
  · rw [sfdIeee_zero t drawn x rn ni hf hz]
    exact meetsContract_zero ni hf hz
  · obtain ⟨k, n, r, h1, h2, h3, h4, h5, hresult⟩ := sfdIeee_frame t drawn x rn ni hf hz
    have hb := atOrBelow_of_frame h1 h2 h3 h4
    have htiny : isTiny t rn (sign64 x) (significand64 x) (scale64 x) = true → k * 2 ^ 23 + n < 0x00800000 := fun ht => by
      have := h5.1 (isTiny_lt _ _ _ _ _ ht)
      omega
    rw [hresult]
    split
    next hflush =>
      rw [Bool.and_eq_true] at hflush
      obtain ⟨ht, rfl⟩ := hflush
      exact meetsContract_flushed hf hz ((hb.lt_units32_iff _).2 (htiny ht))
    next =>
      refine meetsContract_rounded hf hb (fun hr => ?_) htiny
      rw [hr, upOf_zero _ _ _ _ (Nat.two_pow_pos _)]

/-! ### The other conversions a configuration can name (R71, R74) -/

/-- What the contract allows under NI = 0 it allows under NI = 1. -/
theorem meetsContract_of_ieeeMode {x : DWord} {r : SfdResult} (ni : Bool) (h : meetsContract x false r = true) :
    meetsContract x ni r = true := by
  cases hnan : isNan64 x with
  | true => exact (meetsContract_nan_iff hnan).2 ((meetsContract_nan_iff hnan).1 h)
  | false =>
    obtain ⟨hsign, hexact, hfinite⟩ := (meetsContract_number_iff hnan).1 h
    refine (meetsContract_number_iff hnan).2 ⟨hsign, fun y hy => .inr ((hexact y hy).resolve_left (by simp)), fun hinf => ?_⟩
    obtain ⟨hmag, hox, hux, hxx, hvx⟩ := hfinite hinf
    exact ⟨.inl (hmag.resolve_right (by simp)), hox, hux, hxx, hvx⟩

/-- The contract allows the flags to be 0. -/
theorem meetsContract_unflagged {x : DWord} {ni : Bool} {r : SfdResult} (h : meetsContract x ni r = true) :
    meetsContract x ni (unflagged r.word) = true := by
  cases hnan : isNan64 x with
  | true =>
    obtain ⟨hword, -⟩ := (meetsContract_nan_iff hnan).1 h
    exact (meetsContract_nan_iff hnan).2 ⟨hword, rfl, rfl, rfl, fun h => Bool.noConfusion h⟩
  | false =>
    obtain ⟨hsign, hexact, hfinite⟩ := (meetsContract_number_iff hnan).1 h
    refine (meetsContract_number_iff hnan).2 ⟨hsign, fun y hy => (hexact y hy).imp_right fun hr => ?_, fun hinf => ?_⟩
    · rw [hr]; rfl
    · exact ⟨(hfinite hinf).magnitude, fun h => Bool.noConfusion h, fun h => Bool.noConfusion h, fun h => Bool.noConfusion h, rfl⟩

theorem sfdRne_eq_unflagged (drawn : Option (BitVec 23)) (x : DWord) :
    sfdRne drawn x = unflagged (sfdIeee .before drawn x 0b00 false).word := rfl

theorem meetsContract_sfdAny (x : DWord) (rn : BitVec 2) (ni : Bool) : meetsContract x ni (sfdAny x rn ni) = true := by
  unfold sfdAny
  dsimp only
  split
  next h => exact h
  next => exact meetsContract_sfdIeee _ _ _ _ _

/-- Settles O41: `SFD_ieee` and the uninterpreted function meet the contract; in the snapshot NI is taken as 0 and no flag is
returned, which the contract allows too. -/
theorem everyConversionMeetsTheContract : Obligations.EveryConversionMeetsTheContract := by
  refine fun c draw f => sfdContract_of_meetsContract fun x rn ni => ?_
  unfold convert
  cases c.sfd with
  | ofProfile =>
    cases c.profile with
    | hw => exact meetsContract_sfdIeee _ _ _ _ _
    | xeniaRs =>
      dsimp only
      rw [sfdRne_eq_unflagged]
      exact meetsContract_of_ieeeMode ni (meetsContract_unflagged (meetsContract_sfdIeee _ _ _ _ _))
  | anyOfContract =>
    cases c.profile with
    | hw => exact meetsContract_sfdAny x rn ni
    | xeniaRs => exact meetsContract_of_ieeeMode ni (meetsContract_sfdAny x _ _)

/-- With NI = 0 nothing is flushed, so the judgement of tininess reaches the UX flag alone. -/
theorem sfdIeee_word_tininess (t t' : Tininess) (drawn : Option (BitVec 23)) (x : DWord) (rn : BitVec 2) :
    (sfdIeee t drawn x rn false).word = (sfdIeee t' drawn x rn false).word := by
  simp only [sfdIeee, narrowFinite, Bool.and_false, Bool.false_eq_true, if_false, apply_ite SfdResult.word]

/-- Settles O42: the snapshot's conversion is the word of `SFD_ieee` under NI = 0, where TININESS plays no part. -/
theorem snapshotRoundsToNearestEven : Obligations.SnapshotRoundsToNearestEven := by
  intro c draw x f t hprofile hsfd
  rw [convert, hprofile, hsfd, sfdIeee_word_tininess t .before]
  exact sfdRne_eq_unflagged _ _

end Sys2Proof.Proofs
end

section
/-! PROOFS. The statements of spec/60_exceptions.md, and the lemmas they share. -/

namespace Sys2Proof.Proofs

open Sys2Proof.Machine Sys2Proof.Claims Sys2Proof.Laws

/-! ### Floating-point unit disabled (R91) -/

/-- A fault an instruction answers is one of the conditions of R93 that hold. -/
theorem mem_storeFaults_of_exec_fault {i : Instr} {s : State} {f : Fault} (h : exec i s = .fault f) :
    (true, f) ∈ storeFaults (encode i) (storeOpOf i) s := by
  obtain ⟨before, after, heq, -⟩ := firstFault_some _ _ ((exec_fault_iff i s f).1 h)
  simp [heq]

theorem profile_of_exec_floatingPointUnavailable {i : Instr} {s : State} {pc : Word}
    (h : exec i s = .fault (.floatingPointUnavailable pc)) : s.cfg.profile = .hw := by
  have hmem := mem_storeFaults_of_exec_fault h
  simp only [storeFaults, List.mem_append, List.mem_cons, List.mem_map, Prod.mk.injEq, reduceCtorEq, and_false, exists_false,
    List.not_mem_nil, or_false] at hmem
  obtain ⟨hholds, -⟩ := hmem
  rw [eq_comm, Bool.and_eq_true, isHw_iff] at hholds
  exact hholds.1

/-- Settles O31: the first check of R93 on an instruction, whose condition asks for the hw profile. -/
theorem disabledFloatingPointUnitFaults : Obligations.DisabledFloatingPointUnitFaults := by
  refine fun i s => ⟨exec_floatingPointUnavailable, fun hx pc h => ?_⟩
  exact absurd (hx.symm.trans (profile_of_exec_floatingPointUnavailable h)) (by decide)

/-! ### Alignment (R92, R33) -/

theorem inhibitsAny_iff (c : Config) (addr n : Nat) :
    c.inhibitsAny addr n = true ↔ ∃ k < n, ∃ r ∈ c.cacheInhibited, r.base ≤ addr + k ∧ addr + k < r.base + r.size := by
  simp [Config.inhibitsAny, Config.inhibitsByte, Range.contains]

/-- Of the checks, only that of Alignment reads the cache-inhibited ranges. -/
theorem ready_of_ready_without_cacheInhibited {op : StoreOp} {s : State}
    (h : StoreReady op { s with cfg := { s.cfg with cacheInhibited := [] } })
    (halign : ¬(s.cfg.profile = .hw ∧ (op.ea s.cpu).toNat % 4 ≠ 0 ∧ s.cfg.inhibitsAny (op.ea s.cpu).toNat 4 = true)) :
    StoreReady op s where
  fpEnabled := h.fpEnabled
  validForm := h.validForm
  written := h.written
  noWrap := h.noWrap
  admitted := h.admitted
  clearOfCode := h.clearOfCode
  alignedOrOrdinary hhw := by
    by_contra! hneither
    exact halign ⟨hhw, hneither.1, by simpa using hneither.2⟩
  pcSuccessor := h.pcSuccessor

/-- Settles O33: past the other checks, that of Alignment decides; where it does not hold either, the store is ready. -/
theorem alignmentFaultsExactlyOnCacheInhibitedStorage : Obligations.AlignmentFaultsExactlyOnCacheInhibitedStorage := by
  intro i s hready
  dsimp only
  rw [← inhibitsAny_iff]
  refine ⟨fun halign => ?_, fun halign => ?_⟩
  · have hwrap : eaOf s.cpu i ≤ 0xFFFFFFFC := (eaOf_le_of_ready hready :)
    have hadmits : s.cfg.admits (eaOf s.cpu i) 4 .store = true := (admits_of_ready hready :)
    have hcode : s.cfg.code.meets (eaOf s.cpu i) 4 = false := toNat_ea_storeOpOf i s.cpu ▸ hready.clearOfCode
    obtain ⟨hhw, hmisaligned, htouches⟩ := halign
    rw [exec_past_operand_checks i s
      (fun hp => ⟨hready.fpEnabled hp, mt (updates_eq_some_zero_iff i).2 (hready.validForm hp)⟩)
      (fun r hr => hready.written r (reads_storeOpOf i ▸ hr)),
      if_neg (by omega), if_neg (by simp [hadmits]), if_neg (by simp [hcode]),
      if_pos (by simp [(isHw_iff _).2 hhw, hmisaligned, htouches])]
  · rw [← toNat_ea_storeOpOf] at halign
    exact ⟨_, completes_of_ready (ready_of_ready_without_cacheInhibited hready halign)⟩

/-! ### The order of the outcomes of a step (R93) -/

/-- A word that decodes is the word of its instruction, which is the one InvalidForm carries. -/
theorem encode_of_decode {w : Word} {i : Instr} (h : decode w = .ok i) : encode i = w := by
  apply BitVec.eq_of_toNat_eq
  have hfields : (fieldFs w).toNat = w.toNat / 2 ^ 21 % 2 ^ 5 ∧ (fieldRa w).toNat = w.toNat / 2 ^ 16 % 2 ^ 5 ∧
      (fieldRb w).toNat = w.toNat / 2 ^ 11 % 2 ^ 5 :=
    ⟨extract_toNat w 21 5, extract_toNat w 16 5, extract_toNat w 11 5⟩
  have hdisp : (BitVec.ofInt 16 (fieldD w)).toNat = w.toNat % 2 ^ 16 := by
    rw [fieldD, BitVec.ofInt_toInt, extract_toNat, pow_zero, Nat.div_one]
  obtain ⟨hw, hd⟩ | ⟨hw, hd⟩ | ⟨hw, hd⟩ | ⟨hw, hd⟩ | ⟨-, why, hd⟩ := decode_cases w <;> rw [hd] at h <;> cases h
  · rw [encode, formD_toNat, show (52 : BitVec 6).toNat = 52 from rfl]
    omega
  · rw [encode, formD_toNat, show (53 : BitVec 6).toNat = 53 from rfl]
    omega
  · rw [encode, formX_toNat, show (663 : BitVec 10).toNat = 663 from rfl]
    omega
  · rw [encode, formX_toNat, show (695 : BitVec 10).toNat = 695 from rfl]
    omega

theorem step_of_exec_fault {s : State} {w : Word} {i : Instr} {f : Fault} (hs : HasStep s) (hf : fetch s = .ok w)
    (hd : decode w = .ok i) (h : exec i s = .fault f) : step s = .fault f := by
  rw [step_decoded s w i hs.notStopped (atEnd_eq_false_of_hasStep hs) hf hd, h]

theorem step_of_exec_next {s t : State} {w : Word} {i : Instr} (hs : HasStep s) (hf : fetch s = .ok w)
    (hd : decode w = .ok i) (h : exec i s = .next t) : step s = .next (afterExec i s t) := by
  rw [step_decoded s w i hs.notStopped (atEnd_eq_false_of_hasStep hs) hf hd, h]

/-- Settles O29: the checks of fetch, then the decoder's, then those of the instruction in their order, a fault of which is the
step's and whose completion is a step's. -/
theorem outcomesAreReportedInTheSpecsOrder : Obligations.OutcomesAreReportedInTheSpecsOrder := by
  intro s hs
  dsimp only
  split
  next hpc => exact step_of_fetch_error hs (fetch_misaligned hpc)
  next hpc =>
    split
    next hadmits => exact step_of_fetch_error hs (fetch_not_admitted (not_not.1 hpc) hadmits)
    next hadmits =>
      intro w hw
      have hf : fetch s = .ok w := (fetch_ok_iff s w).2 ⟨not_not.1 hpc, by simpa using hadmits, hw⟩
      split
      next why hd => exact step_of_decode_rejected hs hf hd
      next i hd =>
        have hfault (f : Fault) : exec i s = .fault f → step s = .fault f := step_of_exec_fault hs hf hd
        have horder := faultsInOrder s i
        rw [FaultsInOrder, encode_of_decode hd] at horder
        cases hmarked : (readsOf i).find? fun r => decide (r ∈ s.cpu.unwritten) with
        | some r =>
          simp only [hmarked] at horder ⊢
          split_ifs at horder ⊢ <;> exact hfault _ horder
        | none =>
          simp only [hmarked] at horder ⊢
          split_ifs at horder ⊢
          any_goals exact hfault _ horder
          obtain ⟨t, hdone⟩ := horder
          exact ⟨_, step_of_exec_next hs hf hd hdone.answers⟩

/-! ### A move of the run, agent by agent (R94, R95, R97) -/

/-- With distinct numbers, agents that are those of `s` but for the one that moved are found as in `s` but for it. -/
theorem agent?_of_agents_perm {s t : State} {a : Agent} (hd : (s.agents.map (·.1)).Nodup)
    (hp : t.agents.Perm ((s.me, a) :: s.others)) (n : Nat) : t.agent? n = if n = s.me then some a else s.agent? n := by
  rw [agent_find_perm { s with cpu := a } t hd hp]
  split
  next hn => simp [State.agent?, State.agents, hn]
  next hn => simp [State.agent?, State.agents, Ne.symm hn]

/-- A step changes the agent that makes it and no other. -/
theorem step_agents {s t : State} (h : step s = .next t) : ∃ a, t.agents.Perm ((s.me, a) :: s.others) := by
  obtain ⟨-, -, w, i, -, -, -, rfl⟩ := step_next s t h
  exact ⟨_, afterExec_agents i s _⟩

/-- The record of a stop changes the agent that met it in that alone, and no other. -/
theorem recordStop_nextTurn_agents (s : State) (st : Stop) :
    (s.recordStop st).nextTurn.agents.Perm ((s.me, { s.cpu with stop := some st }) :: s.others) :=
  nextTurn_agents _

/-- A move changes the agent whose turn it is and no other. -/
theorem advance_agents (s : State) : ∃ a, (advance s).agents.Perm ((s.me, a) :: s.others) := by
  obtain ⟨t, hstep, h⟩ | ⟨f, -, h⟩ | ⟨-, h⟩ | ⟨r, -, -, h⟩ := advance_cases s <;> rw [h]
  · exact step_agents hstep
  · exact ⟨_, recordStop_nextTurn_agents s _⟩
  · exact ⟨s.cpu, nextTurn_agents s⟩
  · exact ⟨_, recordStop_nextTurn_agents s _⟩

/-- Settles O55: a step, and any other move, leaves every agent but its own. -/
theorem stepLeavesOtherAgentsAlone : Obligations.StepLeavesOtherAgentsAlone := by
  refine fun s hd n hn => ⟨fun t h => ?_, ?_⟩
  · obtain ⟨a, hp⟩ := step_agents h
    rw [agent?_of_agents_perm hd hp, if_neg hn]
  · obtain ⟨a, hp⟩ := advance_agents s
    rw [agent?_of_agents_perm hd hp, if_neg hn]

theorem advance_of_stopsWith {s : State} {st : Stop} (h : StopsWith s st) : advance s = (s.recordStop st).nextTurn := by
  obtain ⟨f, hstep, rfl⟩ | ⟨r, hr, hstep, rfl⟩ := h
  · rw [advance, hstep]
  · rw [advance, hstep]
    cases r with
    | runCompleted => exact absurd rfl hr
    | notModelled | notDecoded => rfl

theorem agent?_advance_of_stopsWith {s : State} {st : Stop} (hd : (s.agents.map (·.1)).Nodup) (h : StopsWith s st) (n : Nat) :
    (advance s).agent? n = if n = s.me then some { s.cpu with stop := some st } else s.agent? n := by
  rw [advance_of_stopsWith h, agent?_of_agents_perm hd (recordStop_nextTurn_agents s st)]

/-- Settles O35: the move is the record of the stop and the passing of the turn. -/
theorem faultChangesNoArchitecturalState : Obligations.FaultChangesNoArchitecturalState := by
  intro s st hd h
  refine ⟨?_, ?_, ?_, ?_, fun n hn => by rw [agent?_advance_of_stopsWith hd h, if_neg hn],
    by rw [agent?_advance_of_stopsWith hd h, if_pos rfl]⟩ <;> simp [advance_of_stopsWith h]

theorem step_of_stopped {s : State} {st : Stop} (h : s.cpu.stop = some st) : step s = stopOutcome st := by
  rw [step, h]

/-- An agent with a record answers it again, so that a move records what is already there. -/
theorem advance_agents_of_stopped {s : State} {st : Stop} (h : s.cpu.stop = some st) : (advance s).agents.Perm s.agents := by
  have hstep := step_of_stopped h
  have hsame : (s.me, { s.cpu with stop := some st }) :: s.others = s.agents := by rw [← h]; rfl
  by_cases hdone : st = .refusal .runCompleted
  · subst hdone
    rw [advance, hstep]
    exact nextTurn_agents s
  · have hst : StopsWith s st := by
      cases st with
      | fault f => exact .inl ⟨f, hstep, rfl⟩
      | refusal r => exact .inr ⟨r, fun hr => hdone (by rw [hr]), hstep, rfl⟩
    rw [advance_of_stopsWith hst, ← hsame]
    exact recordStop_nextTurn_agents s st

theorem nodup_advance {s : State} (hd : (s.agents.map (·.1)).Nodup) : ((advance s).agents.map (·.1)).Nodup := by
  obtain ⟨a, hp⟩ := advance_agents s
  exact (hp.map _).nodup_iff.2 hd

/-- A move leaves every agent with a record as it is, also the one whose turn it is. -/
theorem agent?_advance_of_stopped {s : State} {n : Nat} {a : Agent} (hd : (s.agents.map (·.1)).Nodup)
    (ha : s.agent? n = some a) (hstop : a.stop ≠ none) : (advance s).agent? n = some a := by
  by_cases hn : n = s.me
  · have hcpu : s.cpu = a := by simpa [State.agent?, State.agents, hn] using ha
    obtain ⟨st, hst⟩ := Option.ne_none_iff_exists'.1 hstop
    rw [agent_find_perm s _ hd (advance_agents_of_stopped (hcpu ▸ hst)), ha]
  · rw [(stepLeavesOtherAgentsAlone s hd n hn).2, ha]

theorem agent?_advances_of_stopped (k : Nat) : ∀ {s : State} {n : Nat} {a : Agent}, (s.agents.map (·.1)).Nodup →
    s.agent? n = some a → a.stop ≠ none → (advances k s).agent? n = some a := by
  induction k with
  | zero => exact fun _ ha _ => ha
  | succ k ih => exact fun hd ha hstop => ih (nodup_advance hd) (agent?_advance_of_stopped hd ha hstop) hstop

theorem not_completed_of_stopped {s : State} {n : Nat} {a : Agent} (ha : s.agent? n = some a) (hstop : a.stop ≠ none) :
    ¬s.completed := by
  obtain ⟨p, hp, rfl⟩ := Option.map_eq_some_iff.1 ha
  exact fun h => hstop (h p (List.mem_of_find?_eq_some hp)).2

/-- Settles O36: the move records the stop; no move changes an agent with a record, its own turn included; and such an agent is
found in every later state, so that none of them is completed. -/
theorem recordedStopIsNeverCleared : Obligations.RecordedStopIsNeverCleared := by
  refine ⟨fun s st hd h => by rw [agent?_advance_of_stopsWith hd h, if_pos rfl], fun k s n a hd ha hstop => ?_⟩
  have hkept := agent?_advances_of_stopped k hd ha hstop
  exact ⟨hkept, not_completed_of_stopped hkept hstop⟩

end Sys2Proof.Proofs
end

section
/-! PROOFS. The statements of spec/70_reset_and_hazards.md, and the lemmas they share. -/

namespace Sys2Proof.Proofs

open Sys2Proof.Machine Sys2Proof.Claims Sys2Proof.Laws

/-! ### The launch of a program (R110) -/

/-- Every agent of a launch is as given but for its pc and its record. -/
theorem launch_agents (s : State) (code : Code) :
    (s.launch code).agents = s.agents.map fun p => (p.1, { p.2 with pc := code.base, stop := none }) := by
  simp [State.agents, launch_others]

/-- An agent of a launch, with what it is launched from. -/
theorem mem_launch_agents {s : State} {code : Code} {p : Nat × Agent} (hp : p ∈ (s.launch code).agents) :
    ∃ q ∈ s.agents, p = (q.1, { q.2 with pc := code.base, stop := none }) := by
  rw [launch_agents] at hp
  obtain ⟨q, hq, rfl⟩ := List.mem_map.1 hp
  exact ⟨q, hq, rfl⟩

/-- What is admitted is so from its first byte up to any shorter length. -/
theorem admits_prefix {c : Config} {addr m n : Nat} {kind : AccessKind} (h : c.admits addr n kind = true) (hmn : m ≤ n) :
    c.admits addr m kind = true := by
  simp only [Config.admits, List.all_eq_true, List.mem_range] at h ⊢
  exact fun k hk => h k (by omega)

/-- The admission of the text (R110 (b)), byte by byte. -/
theorem admitsByte_fetch_of_contains (c : Config) {code : Code} {a : Nat} (h : code.range.contains a = true) :
    (programConfig c code).admitsByte .fetch a = true := by
  obtain ⟨hlo, hhi⟩ := (code_contains code a).1 h
  have hall := admits_programConfig c code
  simp only [Config.admits, List.all_eq_true, List.mem_range] at hall
  simpa [Nat.add_sub_cancel' hlo] using hall (a - code.base.toNat) (by omega)

/-- A byte of a launch's storage is one of the program, which is admitted for fetch, or a byte of the data. -/
theorem memAdmitted_launch {s : State} {code : Code} (hwf : s.mem.wf) (hadm : s.memAdmitted)
    (hfits : code.base.toNat + 4 * code.words.length ≤ 2 ^ 32) : (s.launch code).memAdmitted := by
  intro c hc
  rw [launch_mem] at hc
  rw [launch_cfg]
  by_cases htext : code.range.contains c.1 = true
  · exact .inr (admitsByte_fetch_of_contains s.cfg htext)
  · have hread := read_of_mem (wf_placeWords _ _ _ hwf hfits) hc
    rw [code_contains] at htext
    rw [read_placeWords_other _ _ _ _ (by omega)] at hread
    exact (hadm _ (mem_of_read hread)).imp (admitsByte_programConfig _ _ _ _) (admitsByte_programConfig _ _ _ _)

/-- R110 (a) to (f): a program at an aligned base that fits in the space is launched. -/
theorem isLaunch_launch {s : State} {code : Code} (hwf : s.mem.wf) (hadm : s.memAdmitted) (hres : s.res.Nodup)
    (hd : (s.agents.map (·.1)).Nodup) (hvr : ∀ p ∈ s.agents, p.2.vr ≠ []) (haligned : code.base.toNat % 4 = 0)
    (hfits : code.base.toNat + 4 * code.words.length ≤ 2 ^ 32) : (s.launch code).isLaunch where
  admitted := ⟨haligned, admits_programConfig s.cfg code⟩
  placed := readWord_placeWords code.words s.mem code.base.toNat
  memWf := wf_placeWords _ _ _ hwf hfits
  memAdmitted := memAdmitted_launch hwf hadm hfits
  resSet := hres
  notStopped p hp := by obtain ⟨q, -, rfl⟩ := mem_launch_agents hp; rfl
  distinct := by simpa [launch_agents, Function.comp_def] using hd
  vectors p hp := by obtain ⟨q, hq, rfl⟩ := mem_launch_agents hp; exact hvr q hq
  noLandings := rfl

/-- A launch of a program that has a word is not at END. -/
theorem hasStep_launch {s : State} {code : Code} (hne : 0 < code.words.length) : HasStep (s.launch code) where
  notStopped := rfl
  notAtEnd := by simp only [launch_cpu, launch_cfg, programConfig_code]; omega

/-- The first word of the program is the first one fetched. -/
theorem fetch_launch {s : State} {code : Code} (haligned : code.base.toNat % 4 = 0) (hne : 0 < code.words.length) :
    fetch (s.launch code) = .ok code.words[0] :=
  (fetch_ok_iff _ _).2 ⟨haligned, admits_prefix (admits_programConfig s.cfg code) (by omega),
    readWord_placeWords code.words s.mem code.base.toNat 0 hne⟩

/-- Settles O13: the words are placed and no other byte, so that the launch is one, and its first word stands at every pc. -/
theorem launchPlacesTheProgram : Obligations.LaunchPlacesTheProgram := by
  intro s code hwf hadm hres hd hvr haligned hfits
  refine ⟨isLaunch_launch hwf hadm hres hd hvr haligned hfits, rfl, rfl, launch_agents s code,
    readWord_placeWords code.words s.mem code.base.toNat, read_placeWords_other code.words s.mem code.base.toNat,
    fun w ws hw => ?_⟩
  have hne : 0 < code.words.length := by simp [hw]
  exact ⟨hasStep_launch hne, by simpa [hw] using fetch_launch (s := s) haligned hne⟩

/-! ### The end of a run (R115) -/

theorem atEnd_iff (c : Config) (a : Agent) :
    atEnd c a = true ↔ a.pc.toNat = c.code.base.toNat + 4 * c.code.words.length := by
  simp [atEnd, Code.finish]

/-- An agent at END answers neither a next state nor a fault. -/
theorem step_of_atEnd {s : State} (hstop : s.cpu.stop = none) (hend : atEnd s.cfg s.cpu = true) :
    step s = .refused .runCompleted := by
  simp [step, hstop, hend]

/-- A move of an agent at END is the passing of the turn alone. -/
theorem advance_of_atEnd {s : State} (hstop : s.cpu.stop = none) (hend : atEnd s.cfg s.cpu = true) :
    advance s = s.nextTurn := by
  rw [advance, step_of_atEnd hstop hend]

/-- Where every agent is at END, none has a further step for the turn to pass to. -/
theorem nextTurn_of_completed {s : State} (h : s.completed) : s.nextTurn = s := by
  have hnone : liveOthers s = [] := by
    refine List.filter_eq_nil_iff.2 fun k hk => ?_
    have hlt := List.mem_range.1 hk
    have hend := (h _ (List.mem_cons_of_mem _ (List.getElem_mem hlt))).1
    simp [List.getElem?_eq_getElem hlt, isLive, hend]
  rw [State.nextTurn, hnone]

theorem advance_of_completed {s : State} (h : s.completed) : advance s = s := by
  obtain ⟨hend, hstop⟩ := h (s.me, s.cpu) List.mem_cons_self
  rw [advance_of_atEnd hstop hend, nextTurn_of_completed h]

theorem advances_of_completed (k : Nat) {s : State} (h : s.completed) : advances k s = s := by
  induction k with
  | zero => rfl
  | succ k ih => rw [advances, advance_of_completed h, ih]

/-- Settles O37: the definition in R115's words; at END the move is the passing of the turn, which exchanges agents and nothing
else; and in a completed run it passes to none. -/
theorem completedRunHasNoFurtherStep : Obligations.CompletedRunHasNoFurtherStep := by
  refine ⟨fun s => by simp only [State.completed, atEnd_iff], fun s hstop hpc => ?_,
    fun k s h => advances_of_completed k h, fun s ⟨p, hp, hstopped⟩ h => hstopped (h p hp).2⟩
  have hend := (atEnd_iff s.cfg s.cpu).2 hpc
  rw [step_of_atEnd hstop hend, advance_of_atEnd hstop hend]
  exact ⟨fun _ => nofun, fun _ => nofun, nextTurn_agents s, nextTurn_mem s, nextTurn_res s⟩

end Sys2Proof.Proofs
end

section
/-! PROOFS. The statements of the family 'other' on the encoding (spec/30_encoding.md), and the lemmas they share. -/

namespace Sys2Proof.Proofs

open Sys2Proof.Machine Sys2Proof.Claims Sys2Proof.Laws

/-! ### The round trip of the word and its instruction (R51 to R55) -/

/-- A form D word of one of the two rows decodes to its operands, a displacement in range among them. -/
theorem decode_formD {fs ra : RegNum} {d : Int} (hd : dispInRange d = true) :
    decode (formD 52 fs ra d) = .ok (.stfs fs ra d) ∧ decode (formD 53 fs ra d) = .ok (.stfsu fs ra d) := by
  simp [decode, fieldD_formD _ _ _ _ hd]

/-- A form X word of one of the two rows decodes to its operands. -/
theorem decode_formX (fs ra rb : RegNum) :
    decode (formX fs ra rb 663) = .ok (.stfsx fs ra rb) ∧ decode (formX fs ra rb 695) = .ok (.stfsux fs ra rb) := by
  simp [decode]

theorem decode_encode {i : Instr} (h : i.wellFormed = true) : decode (encode i) = .ok i := by
  cases i with
  | stfs fs ra d => exact (decode_formD h).1
  | stfsu fs ra d => exact (decode_formD h).2
  | stfsx fs ra rb => exact (decode_formX fs ra rb).1
  | stfsux fs ra rb => exact (decode_formX fs ra rb).2

/-- The bytes of a word, at the front of any others, decode as the word does. -/
theorem decodeBytes_wordBytes {w : Word} {i : Instr} (rest : List Byte) (h : decode w = .ok i) :
    decodeBytes (wordBytes w ++ rest) = .ok (i, rest) := by
  simp [wordBytes, decodeBytes, h]

/-- Settles O1: the fields read back from a form D or form X word are those it was put together from. -/
theorem decodingAnEncodedInstructionGivesItBack : Obligations.DecodingAnEncodedInstructionGivesItBack :=
  fun _ rest h => ⟨decode_encode h, decodeBytes_wordBytes rest (decode_encode h)⟩

/-- A decoded displacement fits its field, so that a decoded instruction has an encoding. -/
theorem wellFormed_of_decode {w : Word} {i : Instr} (h : decode w = .ok i) : i.wellFormed = true := by
  cases i with
  | stfs fs ra d =>
    obtain ⟨-, hlo, hhi⟩ := displacementIsSignExtended w resetAgent fs ra d (.inl h)
    simp [Instr.wellFormed, dispInRange, hlo, hhi]
  | stfsu fs ra d =>
    obtain ⟨-, hlo, hhi⟩ := displacementIsSignExtended w resetAgent fs ra d (.inr h)
    simp [Instr.wellFormed, dispInRange, hlo, hhi]
  | stfsx | stfsux => rfl

/-- Settles O2: a decoded displacement is in range, and the word is the sum of the fields it was decoded from. -/
theorem encodingADecodedWordGivesItBack : Obligations.EncodingADecodedWordGivesItBack :=
  fun _ _ h => ⟨wellFormed_of_decode h, encode_of_decode h⟩

/-- Settles O6: the six words, decoded. -/
theorem wordsTheSpecWritesOutDecode : Obligations.WordsTheSpecWritesOutDecode := by
  unfold Obligations.WordsTheSpecWritesOutDecode
  decide

end Sys2Proof.Proofs
end

section
/-! PROOFS. The statements of the family 'other' on the invariant and on runs (spec/10_state.md, spec/20_memory.md,
spec/60_exceptions.md, spec/70_reset_and_hazards.md), and the lemmas they share. -/

namespace Sys2Proof.Proofs

open Sys2Proof.Machine Sys2Proof.Claims Sys2Proof.Laws

/-! ### What a step of a ready store leaves -/

/-- The state a step of `i` leaves, where its store is ready (`step_next`, `step_ready`). -/
abbrev stepped (i : Instr) (s : State) : State := afterExec i s (commitStore (storeOpOf i) s)

theorem stepped_alone {i : Instr} {s : State} (ho : s.others = []) : stepped i s = commitStore (storeOpOf i) s :=
  afterExec_alone i s _ ho

/-! ### The agents and the turn -/

/-- Among the agents, none but the one that moves: they are as many as before, whichever of them moves. -/
theorem others_eq_nil_of_agents_perm {s t : State} {a : Agent} (hp : t.agents.Perm ((s.me, a) :: s.others))
    (h : t.others = []) : s.others = [] := by
  have hlen := hp.length_eq
  simp only [State.agents, List.length_cons, h, List.length_nil] at hlen
  exact List.length_eq_zero_iff.1 (by omega)

/-- Agents that are those of `s` but for the registers of the one that moved have its numbers. -/
theorem agent_numbers_perm {s t : State} {a : Agent} (hp : t.agents.Perm ((s.me, a) :: s.others)) :
    (t.agents.map (·.1)).Perm (s.agents.map (·.1)) :=
  hp.map _

/-- The invariant speaks of the agents by their numbers and pcs alone, and of shared state: it passes to a state with the same
shared state, and the agents as before but for the one that moved, whose pc is aligned. -/
theorem inv_of_agents_perm {s t : State} {a : Agent} (h : s.inv) (hcfg : t.cfg = s.cfg) (hmem : t.mem = s.mem)
    (hres : t.res = s.res) (hlandings : t.landings = s.landings) (hp : t.agents.Perm ((s.me, a) :: s.others))
    (ha : a.pc.toNat % 4 = 0) : t.inv where
  memWf := hmem ▸ h.memWf
  memAdmitted := by rw [State.memAdmitted, hmem, hcfg]; exact h.memAdmitted
  admitted := hcfg ▸ h.admitted
  code := by rw [State.codeIntact, hcfg, hmem]; exact h.code
  pcAligned p hmemp := by
    obtain rfl | hother := List.mem_cons.1 (hp.mem_iff.1 hmemp)
    · exact ha
    · exact h.pcAligned p (List.mem_cons_of_mem _ hother)
  distinct := (agent_numbers_perm hp).nodup_iff.2 h.distinct
  resSet := hres ▸ h.resSet
  legal := hlandings ▸ h.legal
  clear := by rw [hlandings, hcfg]; exact h.clear
  landed := by rw [hlandings, hmem]; exact h.landed
  alone ho := hlandings.trans (h.alone (others_eq_nil_of_agents_perm hp ho))

/-- The passing of the turn keeps the invariant. -/
theorem inv_nextTurn {s : State} (h : s.inv) : s.nextTurn.inv :=
  inv_of_agents_perm h (nextTurn_cfg s) (nextTurn_mem s) (nextTurn_res s) (nextTurn_landings s) (nextTurn_agents s)
    (h.pcAligned _ List.mem_cons_self)

/-- The record of a stop keeps the invariant: pc stays. -/
theorem inv_recordStop {s : State} (h : s.inv) (st : Stop) : (s.recordStop st).inv :=
  inv_of_agents_perm h rfl rfl rfl rfl (.refl _) (h.pcAligned (s.me, s.cpu) List.mem_cons_self)

/-! ### Storage a store leaves (R17, R19) -/

/-- A byte that storage holds after a store held a value before it or is one of the four. -/
theorem mem_writeCells {cs : List Host.Cell} : ∀ {m : Memory} {c : Host.Cell}, c ∈ m.writeCells cs → c ∈ m ∨ c ∈ cs := by
  induction cs with
  | nil => exact fun h => .inl h
  | cons d ds ih =>
    intro m c h
    obtain h | h := ih (m := m.write d.1 d.2) h
    · obtain rfl | h := mem_write m d.1 d.2 c h
      · exact .inr List.mem_cons_self
      · exact .inl h
    · exact .inr (List.mem_cons_of_mem _ h)

/-- The cells settled for a store lie in its four bytes. -/
theorem settledCells_addr {ea : Word} {order : List Landing} {c : Host.Cell} (h : c ∈ settledCells ea order) :
    ea.toNat ≤ c.1 ∧ c.1 < ea.toNat + 4 := by
  obtain ⟨k, hk, hc⟩ := List.mem_filterMap.1 h
  obtain ⟨b, -, rfl⟩ := Option.map_eq_some_iff.1 hc
  have := List.mem_range.1 hk
  dsimp only
  omega

/-- The storage a step of a ready store leaves has no byte that was not there before but the four of the store. -/
theorem mem_of_mem_stepped {i : Instr} {s : State} {c : Host.Cell} (h : c ∈ (stepped i s).mem) :
    c ∈ s.mem ∨ eaOf s.cpu i ≤ c.1 ∧ c.1 < eaOf s.cpu i + 4 := by
  have hcommit : ∀ {c : Host.Cell}, c ∈ (commitStore (storeOpOf i) s).mem →
      c ∈ s.mem ∨ eaOf s.cpu i ≤ c.1 ∧ c.1 < eaOf s.cpu i + 4 := fun hc =>
    (mem_writeCells hc).imp_right fun hw => toNat_ea_storeOpOf i s.cpu ▸ wordCells_addr _ _ _ hw
  rw [afterExec_mem, State.settle] at h
  split at h
  · exact hcommit h
  · obtain h | h := mem_writeCells h
    · exact hcommit h
    · exact .inr (toNat_ea_storeOpOf i s.cpu ▸ settledCells_addr h)

theorem admitsByte_of_admits {c : Config} {addr n a : Nat} {kind : AccessKind} (h : c.admits addr n kind = true)
    (hlo : addr ≤ a) (hhi : a < addr + n) : c.admitsByte kind a = true := by
  simp only [Config.admits, List.all_eq_true, List.mem_range] at h
  simpa [Nat.add_sub_cancel' hlo] using h (a - addr) (by omega)

theorem contains_eq_false_of_meets_eq_false {c : Code} {addr n a : Nat} (h : c.meets addr n = false) (hlo : addr ≤ a)
    (hhi : a < addr + n) : c.range.contains a = false := by
  simp only [Code.meets, List.any_eq_false, List.mem_range, Bool.not_eq_true] at h
  simpa [Nat.add_sub_cancel' hlo] using h (a - addr) (by omega)

theorem memWf_stepped {i : Instr} {s : State} (hready : StoreReady (storeOpOf i) s) (h : s.mem.wf) :
    (stepped i s).mem.wf := by
  rw [afterExec_mem]
  exact settle_wf _ _ _ (wf_writeWord _ _ _ h hready.noWrap) hready.noWrap

theorem memAdmitted_stepped {i : Instr} {s : State} (hready : StoreReady (storeOpOf i) s) (h : s.memAdmitted) :
    (stepped i s).memAdmitted := by
  intro c hc
  rw [afterExec_cfg, commitStore_cfg]
  obtain hc | ⟨hlo, hhi⟩ := mem_of_mem_stepped hc
  · exact h c hc
  · exact .inl (admitsByte_of_admits (admits_of_ready hready) hlo hhi)

/-! ### The order of the accesses a store leaves (R37, R38) -/

/-- The accesses the instruction makes in `s` (R37). -/
abbrev newAccesses (s : State) (i : Instr) : List Landing := accessesOf s.me (eaOf s.cpu i) (sfdOf s i).word

theorem storeLandings_eq_newAccesses (i : Instr) (s : State) :
    storeLandings s.me ((storeOpOf i).ea s.cpu) ((storeOpOf i).result s).word = newAccesses s i := by
  rw [storeLandings, toNat_ea_storeOpOf, result_storeOpOf]
  rfl

theorem agent_of_mem_newAccesses {i : Instr} {s : State} : ∀ l ∈ newAccesses s i, l.agent = s.me := by
  rw [← storeLandings_eq_newAccesses]
  exact storeLandings_agent _ _ _

theorem mem_wordCells_of_newAccesses {i : Instr} {s : State} {l : Landing} {c : Host.Cell} (hl : l ∈ newAccesses s i)
    (hc : c ∈ l.cells) : c ∈ wordCells (eaOf s.cpu i) (sfdOf s i).word := by
  rw [← storeLandings_eq_newAccesses] at hl
  rw [← toNat_ea_storeOpOf, ← result_storeOpOf]
  exact storeLandings_cells _ _ _ l hl c hc

theorem newAccesses_byteAt (i : Instr) (s : State) (a : Nat) :
    (eaOf s.cpu i ≤ a ∧ a < eaOf s.cpu i + 4 → ∃ l ∈ newAccesses s i, (l.byteAt a).isSome) ∧
      (a < eaOf s.cpu i ∨ eaOf s.cpu i + 4 ≤ a → ∀ l ∈ newAccesses s i, l.byteAt a = none) := by
  rw [← storeLandings_eq_newAccesses, ← toNat_ea_storeOpOf]
  exact storeLandings_byteAt _ _ _ a

/-- The accesses of a store are legal: a whole aligned word, or one byte each. -/
theorem legal_of_mem_newAccesses {i : Instr} {s : State} {l : Landing} (h : l ∈ newAccesses s i) : l.legal := by
  rw [← storeLandings_eq_newAccesses, storeLandings] at h
  split at h
  next haligned =>
    obtain rfl := List.mem_singleton.1 h
    exact .inl ⟨_, _, haligned, rfl⟩
  next =>
    obtain ⟨c, -, rfl⟩ := List.mem_map.1 h
    exact .inr ⟨c, rfl⟩

/-- The accesses of a ready store lie in the space, clear of the program. -/
theorem clear_of_mem_newAccesses {i : Instr} {s : State} {l : Landing} {c : Host.Cell} (hready : StoreReady (storeOpOf i) s)
    (hl : l ∈ newAccesses s i) (hc : c ∈ l.cells) : c.1 < 2 ^ 32 ∧ s.cfg.code.range.contains c.1 = false := by
  obtain ⟨hlo, hhi⟩ := wordCells_addr _ _ _ (mem_wordCells_of_newAccesses hl hc)
  have := eaOf_le_of_ready hready
  have hclear := hready.clearOfCode
  rw [toNat_ea_storeOpOf] at hclear
  exact ⟨by omega, contains_eq_false_of_meets_eq_false hclear hlo hhi⟩

/-- With other agents, the order after a step is the one before with the store's accesses placed into it. -/
theorem landings_stepped {i : Instr} {s : State} (ho : s.others ≠ []) :
    (stepped i s).landings = placeAll (s.draws + 1) (newAccesses s i) s.landings := by
  rw [afterExec_landings, settle_landings _ _ (commitStore (storeOpOf i) s) ho, commitStore_me,
    storeLandings_eq_newAccesses]
  rfl

/-- An access in the order after a step was there before, or is one of the store's. -/
theorem mem_landings_stepped {i : Instr} {s : State} {l : Landing} (h : l ∈ (stepped i s).landings) :
    l ∈ s.landings ∨ l ∈ newAccesses s i := by
  by_cases ho : s.others = []
  · rw [stepped_alone ho] at h
    exact .inl h
  · rw [landings_stepped ho, (placeAll_perm _ _ _).mem_iff, List.mem_append] at h
    exact h.symm

theorem mem_landings_of_newAccesses {i : Instr} {s : State} {l : Landing} (ho : s.others ≠ []) (h : l ∈ newAccesses s i) :
    l ∈ (stepped i s).landings := by
  rw [landings_stepped ho, (placeAll_perm _ _ _).mem_iff]
  exact List.mem_append_left _ h

/-- With other agents, each of the four bytes is left as the order has it. -/
theorem read_stepped_settled {i : Instr} {s : State} {a : Nat} (ho : s.others ≠ []) (hlo : eaOf s.cpu i ≤ a)
    (hhi : a < eaOf s.cpu i + 4) : (stepped i s).mem.read a = lastByte (stepped i s).landings a := by
  rw [← toNat_ea_storeOpOf] at hlo hhi
  rw [afterExec_mem, afterExec_landings, settle_read _ _ (commitStore (storeOpOf i) s) ho, if_pos ⟨hlo, hhi⟩]

/-- The order leaves every byte but the four as it did before the step. -/
theorem lastByte_stepped_other {i : Instr} {s : State} {a : Nat} (h : a < eaOf s.cpu i ∨ eaOf s.cpu i + 4 ≤ a) :
    lastByte (stepped i s).landings a = lastByte s.landings a := by
  by_cases ho : s.others = []
  · rw [stepped_alone ho, commitStore_landings]
  · rw [landings_stepped ho, lastByte_placeAll _ _ _ ((newAccesses_byteAt i s a).2 h)]

/-- Storage is as the order of the accesses leaves it, where one has landed: on the four bytes by the settling, elsewhere as
before. -/
theorem landed_stepped {i : Instr} {s : State} (hinv : s.inv) {l : Landing} {c : Host.Cell}
    (hl : l ∈ (stepped i s).landings) (hc : c ∈ l.cells) :
    (stepped i s).mem.read c.1 = lastByte (stepped i s).landings c.1 := by
  by_cases ho : s.others = []
  · rw [stepped_alone ho, commitStore_landings, hinv.alone ho] at hl
    exact absurd hl List.not_mem_nil
  · by_cases hin : eaOf s.cpu i ≤ c.1 ∧ c.1 < eaOf s.cpu i + 4
    · exact read_stepped_settled ho hin.1 hin.2
    · obtain hold | hnew := mem_landings_stepped hl
      · rw [read_afterExec_other i s c.1 (by omega), lastByte_stepped_other (by omega)]
        exact hinv.landed l hold c hc
      · exact absurd (wordCells_addr _ _ _ (mem_wordCells_of_newAccesses hnew hc)) hin

/-! ### The invariant -/

/-- A ready store's step keeps the invariant. -/
theorem inv_stepped {i : Instr} {s : State} (hinv : s.inv) (hready : StoreReady (storeOpOf i) s) :
    (stepped i s).inv where
  memWf := memWf_stepped hready hinv.memWf
  memAdmitted := memAdmitted_stepped hready hinv.memAdmitted
  admitted := by rw [afterExec_cfg]; exact hinv.admitted
  code := codeIntact_afterExec i s hready hinv.code
  pcAligned p hp := by
    obtain rfl | hother := List.mem_cons.1 ((afterExec_agents i s _).mem_iff.1 hp)
    · have haligned : s.cpu.pc.toNat % 4 = 0 := hinv.pcAligned (s.me, s.cpu) List.mem_cons_self
      rw [commitStore_pc, toNat_add_four_of_aligned haligned hready.pcSuccessor]
      omega
    · exact hinv.pcAligned p (List.mem_cons_of_mem _ hother)
  distinct := (agent_numbers_perm (afterExec_agents i s _)).nodup_iff.2 hinv.distinct
  resSet := by rw [afterExec_res]; exact (killReservations_sublist _ _ _ _).nodup hinv.resSet
  legal l hl := (mem_landings_stepped hl).elim (hinv.legal l) legal_of_mem_newAccesses
  clear l hl c hc := by
    rw [afterExec_cfg, commitStore_cfg]
    exact (mem_landings_stepped hl).elim (fun h => hinv.clear l h c hc) (fun h => clear_of_mem_newAccesses hready h hc)
  landed _ hl _ hc := landed_stepped hinv hl hc
  alone ho := by
    have hs : s.others = [] := others_eq_nil_of_agents_perm (s := s) (afterExec_agents i s (commitStore (storeOpOf i) s)) ho
    rw [stepped_alone hs, commitStore_landings, hinv.alone hs]

/-- Settles O50: a step that answers a next state is the commit of a ready store, settled, with the turn passed. -/
theorem everyStepKeepsTheInvariant : Obligations.EveryStepKeepsTheInvariant := by
  intro s t hinv hstep
  obtain ⟨-, -, w, i, -, -, hready, rfl⟩ := step_next s t hstep
  exact inv_stepped hinv hready

theorem inv_advance {s : State} (h : s.inv) : (advance s).inv := by
  obtain ⟨t, hstep, ht⟩ | ⟨f, -, ht⟩ | ⟨-, ht⟩ | ⟨r, -, -, ht⟩ := advance_cases s <;> rw [ht]
  · exact everyStepKeepsTheInvariant s t h hstep
  · exact inv_nextTurn (inv_recordStop h _)
  · exact inv_nextTurn h
  · exact inv_nextTurn (inv_recordStop h _)

/-- Settles O51: each move is a step, the record of a stop or the passing of the turn, all of which keep it. -/
theorem everyRunKeepsTheInvariant : Obligations.EveryRunKeepsTheInvariant := by
  intro k
  induction k with
  | zero => exact fun _ h => h
  | succ k ih => exact fun s h => ih _ (inv_advance h)

/-! ### Launches and reset (R110) -/

/-- Settles O52: what the invariant asks of the accesses holds of none of them. -/
theorem launchMeetsTheInvariant : Obligations.LaunchMeetsTheInvariant := fun s h haligned =>
  have hnone : ∀ l, l ∉ s.landings := fun l hl => by simp [h.noLandings] at hl
  { memWf := h.memWf
    memAdmitted := h.memAdmitted
    admitted := h.admitted
    code := h.placed
    pcAligned := haligned
    distinct := h.distinct
    resSet := h.resSet
    legal := fun l hl => absurd hl (hnone l)
    clear := fun l hl => absurd hl (hnone l)
    landed := fun l hl => absurd hl (hnone l)
    alone := fun _ => h.noLandings }

/-- Reset is a launch, of an empty program by one agent on empty storage. -/
theorem isLaunch_reset : State.reset.isLaunch where
  admitted := ⟨by decide, by decide⟩
  placed k hk := absurd hk (Nat.not_lt_zero k)
  memWf := wf_reset
  memAdmitted c hc := absurd hc List.not_mem_nil
  resSet := List.nodup_nil
  notStopped p hp := by obtain rfl := List.mem_singleton.1 hp; rfl
  distinct := List.nodup_singleton _
  vectors p hp := by obtain rfl := List.mem_singleton.1 hp; decide
  noLandings := rfl

/-- Settles O59: a launch whose fields are the defaults, read off one by one. -/
theorem resetIsALaunchWithTheDefaults : Obligations.ResetIsALaunchWithTheDefaults :=
  ⟨isLaunch_reset, rfl, rfl, rfl, rfl, rfl, rfl, rfl, rfl, rfl, rfl, rfl⟩

/-- Settles O53: reset is a launch whose one agent starts at a multiple of 4. -/
theorem resetMeetsTheInvariant : Obligations.ResetMeetsTheInvariant :=
  launchMeetsTheInvariant State.reset isLaunch_reset fun p hp => by obtain rfl := List.mem_singleton.1 hp; decide

end Sys2Proof.Proofs
end

section
/-! PROOFS. The statements of the family 'other' on a step and on runs (spec/40_fp_store_single.md section 4,
spec/60_exceptions.md, spec/70_reset_and_hazards.md), and the lemmas they share. -/

namespace Sys2Proof.Proofs

open Sys2Proof.Machine Sys2Proof.Claims Sys2Proof.Laws

/-! ### A step and the instruction it runs -/

/-- Settles O9: the step of an agent that has one, once its word is fetched and decoded. -/
theorem stepRunsTheDecodedInstruction : Obligations.StepRunsTheDecodedInstruction :=
  fun s w i hs hf hd => step_decoded s w i hs.notStopped (atEnd_eq_false_of_hasStep hs) hf hd

/-- Settles O10: of one agent alone neither the settling nor the turn changes anything. -/
theorem oneAgentStepsByExecAlone : Obligations.OneAgentStepsByExecAlone := by
  intro s w i halone hs hf hd
  rw [stepRunsTheDecodedInstruction s w i hs hf hd]
  cases h : exec i s with
  | next t =>
    obtain ⟨-, rfl⟩ := (exec_next_iff i s t).1 h
    exact congrArg _ (stepped_alone halone)
  | fault f => rfl
  | refused r => rfl

/-- An agent has a further step, in the words of the statements (R94, R115). -/
theorem isLive_iff (c : Config) (a : Agent) :
    isLive c a = true ↔ a.stop = none ∧ a.pc.toNat ≠ c.code.base.toNat + 4 * c.code.words.length := by
  simp [isLive, ← atEnd_iff]

/-- After a step the turn is with an agent that has a further step, where some agent has one. -/
theorem hasStep_stepped {i : Instr} {s : State}
    (h : ∃ p ∈ (stepped i s).agents, isLive (stepped i s).cfg p.2 = true) : HasStep (stepped i s) := by
  have hlive : isLive (stepped i s).cfg (stepped i s).cpu = true := by
    obtain ⟨p, hp, hp'⟩ := h
    refine nextTurn_live _ ⟨p, (nextTurn_agents _).mem_iff.1 hp, ?_⟩
    rwa [stepped, afterExec, nextTurn_cfg] at hp'
  obtain ⟨hstop, hend⟩ := (isLive_iff _ _).1 hlive
  exact ⟨hstop, hend⟩

/-- Settles O11: the settling changes the four bytes and the order of the accesses alone, and the turn exchanges agents. -/
theorem stepAmongAgentsKeepsWhatExecAnswers : Obligations.StepAmongAgentsKeepsWhatExecAnswers := by
  intro s u w i hd hs hf hdec hexec
  have hstep := step_of_exec_next hs hf hdec hexec
  obtain ⟨-, rfl⟩ := (exec_next_iff i s u).1 hexec
  have hagents := afterExec_agents i s (commitStore (storeOpOf i) s)
  refine ⟨_, hstep, afterExec_cfg _ _ _, afterExec_res _ _ _, ?_, fun n hn => ?_, agent_numbers_perm hagents,
    fun a ha => ?_, fun hlive => hasStep_stepped (by simpa only [isLive_iff] using hlive)⟩
  · rw [agent?_of_agents_perm hd hagents, if_pos rfl]
  · rw [agent?_of_agents_perm hd hagents, if_neg hn]
  · rw [read_afterExec_other i s a ha, commitStore_mem, toNat_ea_storeOpOf, read_writeWord_other _ _ _ _ ha]

/-! ### The launch of one word (log 2) -/

/-- Settles O12: a program of one word, whose first word is at the pc and whose END is past it. -/
theorem launchedWordIsTheNextToRun : Obligations.LaunchedWordIsTheNextToRun := by
  intro s w haligned
  have hw : BitVec.ofNat 32 (w.toNat % 2 ^ 32) = w := BitVec.eq_of_toNat_eq (by rw [BitVec.toNat_ofNat]; omega)
  rw [withFetchWord_eq, hw]
  refine ⟨⟨rfl, ?_⟩, (fetch_ok_iff _ _).2 ⟨haligned, admits_programConfig s.cfg { base := s.cpu.pc, words := [w] },
    readWord_placeWords [w] s.mem s.cpu.pc.toNat 0 Nat.one_pos⟩⟩
  simp only [load_cpu, unstopped_pc, load_cfg, programConfig_code, List.length_singleton]
  omega

/-! ### Fetch of bytes without a value (log 4) -/

theorem readWord_eq_none {m : Memory} {addr k : Nat} (hk : k < 4) (h : m.read (addr + k) = none) : m.readWord addr = none := by
  unfold Memory.readWord
  split
  next h0 h1 h2 h3 =>
    obtain rfl | rfl | rfl | rfl : k = 0 ∨ k = 1 ∨ k = 2 ∨ k = 3 := by omega
    all_goals simp [h0, h1, h2, h3] at h
  next => rfl

/-- Settles O30: the word of an admitted pc is none where one of its bytes is. -/
theorem fetchOfBytesWithoutValueFaults : Obligations.FetchOfBytesWithoutValueFaults := by
  intro s k hs haligned hadmits hk hnone
  refine step_of_fetch_error hs ?_
  rw [fetch, if_neg (not_not.2 haligned), if_pos hadmits, readWord_eq_none hk hnone]

/-! ### What the interface answers at END (log 23) -/

/-- An agent that has a step is not answered that the run is over. -/
theorem step_ne_runCompleted {s : State} (hs : HasStep s) : step s ≠ .refused .runCompleted := by
  cases hf : fetch s with
  | error f => simp [step_of_fetch_error hs hf]
  | ok w =>
    cases hd : decode w with
    | rejected why => simp [step_of_decode_rejected hs hf hd]
    | ok i =>
      cases h : exec i s with
      | next t => simp [step_of_exec_next hs hf hd h]
      | fault f => simp [step_of_exec_fault hs hf hd h]
      | refused r => exact absurd h (exec_ne_refused i s r)

/-- Settles O38: a recorded stop answers itself, an agent that has a step answers by it, and one at END answers runCompleted. -/
theorem agentAtEndAnswersRunCompleted : Obligations.AgentAtEndAnswersRunCompleted := by
  refine fun s hrecorded => ⟨fun h => ?_, fun ⟨hstop, hpc⟩ => step_of_atEnd hstop ((atEnd_iff _ _).2 hpc)⟩
  cases hstop : s.cpu.stop with
  | some st =>
    rw [step_of_stopped hstop] at h
    cases st with
    | fault f => simp [stopOutcome, raise] at h
    | refusal r =>
      obtain rfl : r = .runCompleted := by simpa [stopOutcome] using h
      exact absurd hstop hrecorded
  | none => exact ⟨rfl, by_contra fun hend => step_ne_runCompleted ⟨hstop, hend⟩ h⟩

/-! ### What a run leaves alone (R98, R18) -/

/-- `b` has the control state of `a`, and every FPSCR exception bit that `a` has. -/
structure KeepsControl (a b : Agent) : Prop where
  msr : b.msr = a.msr
  fpr : b.fpr = a.fpr
  cr : b.cr = a.cr
  xer : b.xer = a.xer
  vr : b.vr = a.vr
  rn : b.fpscr.rn = a.fpscr.rn
  ni : b.fpscr.ni = a.fpscr.ni
  xx : a.fpscr.xx = true → b.fpscr.xx = true
  ox : a.fpscr.ox = true → b.fpscr.ox = true
  ux : a.fpscr.ux = true → b.fpscr.ux = true
  vxsnan : a.fpscr.vxsnan = true → b.fpscr.vxsnan = true

theorem KeepsControl.refl (a : Agent) : KeepsControl a a :=
  ⟨rfl, rfl, rfl, rfl, rfl, rfl, rfl, id, id, id, id⟩

theorem KeepsControl.trans {a b c : Agent} (h : KeepsControl a b) (h' : KeepsControl b c) : KeepsControl a c where
  msr := h'.msr.trans h.msr
  fpr := h'.fpr.trans h.fpr
  cr := h'.cr.trans h.cr
  xer := h'.xer.trans h.xer
  vr := h'.vr.trans h.vr
  rn := h'.rn.trans h.rn
  ni := h'.ni.trans h.ni
  xx := h'.xx ∘ h.xx
  ox := h'.ox ∘ h.ox
  ux := h'.ux ∘ h.ux
  vxsnan := h'.vxsnan ∘ h.vxsnan

/-- No store clears an exception bit (R73, R74). -/
theorem afterStore_sticky (p : Profile) (f : Fpscr) (n : Nat) (r : SfdResult) :
    (f.xx = true → (f.afterStore p n r).xx = true) ∧ (f.ox = true → (f.afterStore p n r).ox = true) ∧
      (f.ux = true → (f.afterStore p n r).ux = true) ∧ (f.vxsnan = true → (f.afterStore p n r).vxsnan = true) := by
  cases p with
  | hw => simp +contextual
  | xeniaRs => exact ⟨id, id, id, id⟩

theorem keepsControl_commitStore (op : StoreOp) (s : State) : KeepsControl s.cpu (commitStore op s).cpu :=
  have ⟨hxx, hox, hux, hvxsnan⟩ := afterStore_sticky s.cfg.profile s.cpu.fpscr s.draws (op.result s)
  ⟨commitStore_msr op s, commitStore_fpr op s, commitStore_cr op s, commitStore_xer op s, commitStore_vr op s,
    afterStore_rn _ _ _ _, afterStore_ni _ _ _ _, hxx, hox, hux, hvxsnan⟩

/-- The record of a stop changes the record alone. -/
theorem keepsControl_recordStop (s : State) (st : Stop) : KeepsControl s.cpu { s.cpu with stop := some st } :=
  ⟨rfl, rfl, rfl, rfl, rfl, rfl, rfl, id, id, id, id⟩

/-- A move changes no configuration, and of the agents the one whose turn it is, which keeps its control state. -/
theorem advance_keepsControl (s : State) : (advance s).cfg = s.cfg ∧
    ∃ a, KeepsControl s.cpu a ∧ (advance s).agents.Perm ((s.me, a) :: s.others) := by
  obtain ⟨t, hstep, ht⟩ | ⟨f, -, ht⟩ | ⟨-, ht⟩ | ⟨r, -, -, ht⟩ := advance_cases s <;> rw [ht]
  · obtain ⟨-, -, w, i, -, -, -, rfl⟩ := step_next s t hstep
    exact ⟨afterExec_cfg _ _ _, _, keepsControl_commitStore _ s, afterExec_agents i s _⟩
  · exact ⟨nextTurn_cfg _, _, keepsControl_recordStop s _, recordStop_nextTurn_agents s _⟩
  · exact ⟨nextTurn_cfg _, _, .refl _, nextTurn_agents s⟩
  · exact ⟨nextTurn_cfg _, _, keepsControl_recordStop s _, recordStop_nextTurn_agents s _⟩

/-- A move keeps the control state of every agent. -/
theorem agent?_advance_keepsControl {s : State} {n : Nat} {a : Agent} (hd : (s.agents.map (·.1)).Nodup)
    (ha : s.agent? n = some a) : ∃ b, (advance s).agent? n = some b ∧ KeepsControl a b := by
  obtain ⟨-, b, hb, hp⟩ := advance_keepsControl s
  rw [agent?_of_agents_perm hd hp]
  split
  next hn =>
    obtain rfl : s.cpu = a := by simpa [State.agent?, State.agents, hn] using ha
    exact ⟨b, rfl, hb⟩
  next => exact ⟨a, ha, .refl a⟩

theorem advances_keepsControl (k : Nat) : ∀ {s : State} {n : Nat} {a : Agent}, (s.agents.map (·.1)).Nodup →
    s.agent? n = some a → (advances k s).cfg = s.cfg ∧ ((advances k s).agents.map (·.1)).Perm (s.agents.map (·.1)) ∧
      ∃ b, (advances k s).agent? n = some b ∧ KeepsControl a b := by
  induction k with
  | zero => exact fun {s n a} _ ha => ⟨rfl, .refl _, a, ha, .refl a⟩
  | succ k ih =>
    intro s n a hd ha
    obtain ⟨hcfg, c, -, hp⟩ := advance_keepsControl s
    obtain ⟨b, hb, hab⟩ := agent?_advance_keepsControl hd ha
    obtain ⟨hcfg', hp', b', hb', hbb'⟩ := ih (nodup_advance hd) hb
    exact ⟨hcfg'.trans hcfg, hp'.trans (agent_numbers_perm hp), b', hb', hab.trans hbb'⟩

/-- Settles O54: every move keeps the control state of every agent, and so does every number of them. -/
theorem runLeavesControlStateAlone : Obligations.RunLeavesControlStateAlone := by
  intro k s n a hd ha
  obtain ⟨hcfg, hp, b, hb, hkept⟩ := advances_keepsControl k hd ha
  exact ⟨hcfg, hp, b, hb, hkept.msr, hkept.fpr, hkept.cr, hkept.xer, hkept.vr, hkept.rn, hkept.ni, hkept.xx, hkept.ox,
    hkept.ux, hkept.vxsnan⟩

end Sys2Proof.Proofs
end

section
/-! PROOFS. The statements of the family 'other' on what an instruction depends on and on the word it stores
(spec/10_state.md, spec/20_memory.md, spec/30_encoding.md, spec/40_fp_store_single.md, spec/70_reset_and_hazards.md), and the
lemmas they share. -/

namespace Sys2Proof.Proofs

open Sys2Proof.Machine Sys2Proof.Claims Sys2Proof.Laws

/-! ### Completion (R111) -/

/-- Settles O18: the first fault of the list is none exactly where the store is ready, and no store is refused. -/
theorem storeCompletesExactlyWhereReady : Obligations.StoreCompletesExactlyWhereReady := by
  refine fun i s => ⟨⟨fun ⟨t, h⟩ => ((exec_next_iff i s t).1 h).1, fun h => ?_⟩, exec_ne_refused i s⟩
  exact ⟨_, (exec_next_iff i s _).2 ⟨h, rfl⟩⟩

/-! ### One instruction after another (70_reset_and_hazards.md section 3) -/

/-- Where R53's literal zero does not apply, the base is what RA holds. -/
theorem baseOf_eq_readGpr {i : Instr} (a : Agent) (h : isUpdate i = true ∨ raOf i ≠ 0) :
    baseOf a i = a.readGpr (raOf i) := by
  cases i with
  | stfs | stfsx => simpa [isUpdate, raOf, baseOf] using fun h0 => absurd h0 (by simpa [isUpdate, raOf] using h)
  | stfsu | stfsux => rfl

theorem eaOf_lt (a : Agent) (i : Instr) : eaOf a i < 2 ^ 32 := Nat.mod_lt _ (by omega)

/-- Settles O23: the second commit is made on the state the first one leaves, its RA and its bytes. -/
theorem nextInstructionSeesTheOneBefore : Obligations.NextInstructionSeesTheOneBefore := by
  intro i j s t u hi hj
  obtain ⟨-, rfl⟩ := (exec_next_iff i s t).1 hi
  obtain ⟨-, rfl⟩ := (exec_next_iff j _ u).1 hj
  have hother := (storedAt_commitStore j (commitStore (storeOpOf i) s) (commitStore (storeOpOf i) s).mem).others
  refine ⟨fun hu hra hbase hwb => ?_, readWord_commitStore j _, hother, fun hapart => ?_⟩
  · have := eaOf_lt s.cpu i
    rw [baseOf_eq_readGpr _ hbase, hra, readGpr_commitStore_eq_gprAfter, gprAfter_ra s hu,
      writeBackValue_zext32 i s.cpu hwb, BitVec.toNat_ofNat]
    omega
  · exact (readWord_congr _ _ _ fun k hk => hother _ (by omega)).trans (readWord_commitStore i s)

/-! ### What an instruction does not depend on -/

/-- Where the checks are the same, so is the fault answered, or the completion. -/
theorem exec_of_storeFaults_eq {i : Instr} {s s' : State}
    (h : storeFaults (encode i) (storeOpOf i) s' = storeFaults (encode i) (storeOpOf i) s) :
    (∀ f, exec i s = .fault f → exec i s' = .fault f) ∧
      (∀ t, exec i s = .next t → exec i s' = .next (commitStore (storeOpOf i) s')) := by
  refine ⟨fun f hf => ?_, fun t ht => ?_⟩
  · rwa [exec_fault_iff, h, ← exec_fault_iff]
  · obtain ⟨hready, -⟩ := (exec_next_iff i s t).1 ht
    refine (exec_next_iff i s' _).2 ⟨?_, rfl⟩
    rwa [← storeFaults_none_iff (encode i), h, storeFaults_none_iff]

/-- The state with the general registers `g` and the marks `marks` in place of the agent's own. -/
def withRegisters (s : State) (g : Vector DWord 32) (marks : List RegName) : State :=
  { s with cpu := { s.cpu with gpr := g, unwritten := marks } }

/-- The general registers and the marks reach the checks through the address and the marks of the registers read. -/
theorem storeFaults_withRegisters {word : Word} {op : StoreOp} {s : State} {g : Vector DWord 32} {marks : List RegName}
    (hea : op.ea (withRegisters s g marks).cpu = op.ea s.cpu) (hmarks : ∀ r ∈ op.reads, r ∈ marks ↔ r ∈ s.cpu.unwritten) :
    storeFaults word op (withRegisters s g marks) = storeFaults word op s := by
  have hreads : (op.reads.map fun r => ((withRegisters s g marks).cpu.isUnwritten r, Fault.unwrittenRegister s.cpu.pc r)) =
      op.reads.map fun r => (s.cpu.isUnwritten r, Fault.unwrittenRegister s.cpu.pc r) :=
    List.map_congr_left fun r hr => congrArg (·, _) (decide_eq_decide.2 (hmarks r hr))
  unfold storeFaults
  dsimp only
  rw [hea]
  exact congrArg (fun l => _ ++ l ++ _) hreads

/-- The general registers reach storage, FPSCR and RES through the address. -/
theorem commitStore_withRegisters {op : StoreOp} {s : State} {g : Vector DWord 32} {marks : List RegName}
    (hea : op.ea (withRegisters s g marks).cpu = op.ea s.cpu) :
    (commitStore op (withRegisters s g marks)).mem = (commitStore op s).mem ∧
      (commitStore op (withRegisters s g marks)).cpu.fpscr = (commitStore op s).cpu.fpscr ∧
      (commitStore op (withRegisters s g marks)).res = (commitStore op s).res := by
  rw [commitStore_mem, commitStore_res, hea]
  exact ⟨rfl, rfl, rfl⟩

/-- `exec i` answers in `s'` the fault it answers in `s`, or a next state with the same storage, FPSCR and RES. -/
structure AnswersAlike (i : Instr) (s s' : State) : Prop where
  fault : ∀ f, exec i s = .fault f → exec i s' = .fault f
  next : ∀ t, exec i s = .next t →
    ∃ t', exec i s' = .next t' ∧ t'.mem = t.mem ∧ t'.cpu.fpscr = t.cpu.fpscr ∧ t'.res = t.res

theorem answersAlike_withRegisters {i : Instr} {s : State} {g : Vector DWord 32} {marks : List RegName}
    (hea : (storeOpOf i).ea (withRegisters s g marks).cpu = (storeOpOf i).ea s.cpu)
    (hmarks : ∀ r ∈ readsOf i, r ∈ marks ↔ r ∈ s.cpu.unwritten) : AnswersAlike i s (withRegisters s g marks) := by
  rw [← reads_storeOpOf] at hmarks
  obtain ⟨hfault, hnext⟩ := exec_of_storeFaults_eq (storeFaults_withRegisters hea hmarks)
  refine ⟨hfault, fun t ht => ⟨_, hnext t ht, ?_⟩⟩
  obtain ⟨-, rfl⟩ := (exec_next_iff i s t).1 ht
  exact commitStore_withRegisters hea

theorem readGpr_withRegisters_set (s : State) (v : DWord) (marks : List RegName) {r : RegNum} (hr : r ≠ 0) :
    (withRegisters s (s.cpu.gpr.set 0 v) marks).cpu.readGpr r = s.cpu.readGpr r := by
  have : 0 ≠ r.toNat := fun h => hr (BitVec.eq_of_toNat_eq h.symm)
  simp [withRegisters, Agent.readGpr, Vector.getElem_set_ne, this]

/-- Settles O25: neither the address nor the registers read are those of r0. -/
theorem literalZeroBaseDoesNotReadR0 : Obligations.LiteralZeroBaseDoesNotReadR0 := by
  intro i s v marks hmarks hi
  have halike : AnswersAlike i s (withRegisters s (s.cpu.gpr.set 0 v) marks) := by
    obtain ⟨fs, d, rfl⟩ | ⟨fs, rb, hrb, rfl⟩ := hi
    · exact answersAlike_withRegisters rfl fun r hr => hmarks r (by rintro rfl; simp [readsOf] at hr)
    · refine answersAlike_withRegisters ?_ fun r hr => hmarks r (by rintro rfl; simp [readsOf] at hr; exact hrb hr.symm)
      have hsum : (storeOpOf (.stfsx fs 0 rb)).sum (withRegisters s (s.cpu.gpr.set 0 v) marks).cpu =
          (storeOpOf (.stfsx fs 0 rb)).sum s.cpu :=
        congrArg (0 + ·) (readGpr_withRegisters_set s v marks hrb)
      rw [StoreOp.ea, hsum, StoreOp.ea]
  dsimp only
  split
  next t h => exact halike.next t h
  next f h => exact halike.fault f h
  next r h => exact absurd h (exec_ne_refused i s r)

/-- R30, R79: two register files equal in their low halves give the same address. -/
theorem ea_congr_of_low_halves (i : Instr) {a a' : Agent}
    (h : ∀ j : RegNum, (a'.readGpr j).setWidth 32 = (a.readGpr j).setWidth 32) :
    (storeOpOf i).ea a' = (storeOpOf i).ea a := by
  have hbase : ((storeOpOf i).base.value a').setWidth 32 = ((storeOpOf i).base.value a).setWidth 32 := by
    cases (storeOpOf i).base with
    | ra0 r =>
      simp only [BaseOperand.value]
      split
      · rfl
      · exact h r
    | plain r => exact h r
  have hoffset : ((storeOpOf i).offset.value a').setWidth 32 = ((storeOpOf i).offset.value a).setWidth 32 := by
    cases (storeOpOf i).offset with
    | disp d => rfl
    | index r => exact h r
  rw [StoreOp.ea, StoreOp.ea, StoreOp.sum, StoreOp.sum, BitVec.setWidth_add _ _ (by omega), BitVec.setWidth_add _ _ (by omega),
    hbase, hoffset]

/-- Settles O26: the registers reach the answer through the address, which is a sum of low halves. -/
theorem upperHalvesDoNotReachStorage : Obligations.UpperHalvesDoNotReachStorage := by
  rintro i s _ g rfl hlow
  have halike : AnswersAlike i s (withRegisters s g s.cpu.unwritten) :=
    answersAlike_withRegisters (ea_congr_of_low_halves i hlow) fun _ _ => .rfl
  split
  next t h => exact halike.next t h
  next f h => exact halike.fault f h
  next r h => exact absurd h (exec_ne_refused i s r)

/-! ### The snapshot reads neither MSR nor FPSCR (R13, R14) -/

theorem convert_xeniaRs {c : Config} (draw : Nat) (x : DWord) (f f' : Fpscr) (h : c.profile = .xeniaRs) :
    convert c draw x f = convert c draw x f' := by
  unfold convert
  rw [h]
  cases c.sfd <;> rfl

/-- The state with the MSR `m` and the FPSCR `f` in place of the agent's own. -/
def withControl (s : State) (m : Msr) (f : Fpscr) : State := { s with cpu := { s.cpu with msr := m, fpscr := f } }

/-- Of the checks, only that of the floating-point unit reads MSR, and none reads FPSCR. -/
theorem storeFaults_withControl {word : Word} {op : StoreOp} {s : State} (m : Msr) (f : Fpscr)
    (h : s.cfg.profile = .xeniaRs) : storeFaults word op (withControl s m f) = storeFaults word op s := by
  have hhw : isHw s.cfg = false := by simp [isHw, h]
  have hhw' : isHw (withControl s m f).cfg = false := hhw
  unfold storeFaults
  rw [hhw, hhw']
  rfl

theorem writeBack_withControl (op : StoreOp) (s : State) (m : Msr) (f : Fpscr) :
    op.writeBack (withControl s m f).cfg (withControl s m f).cpu = { op.writeBack s.cfg s.cpu with msr := m, fpscr := f } := by
  unfold StoreOp.writeBack
  split <;> rfl

/-- The commit leaves MSR and FPSCR as they are, and nothing else in it depends on them. -/
theorem commitStore_withControl {op : StoreOp} {s : State} (m : Msr) (f : Fpscr) (h : s.cfg.profile = .xeniaRs) :
    commitStore op (withControl s m f) = withControl (commitStore op s) m f := by
  have hresult : op.result (withControl s m f) = op.result s := convert_xeniaRs _ _ _ _ h
  have hkeeps : (withControl s m f).cpu.fpscr.afterStore (withControl s m f).cfg.profile (withControl s m f).draws
      (op.result s) = f := by
    change f.afterStore s.cfg.profile _ _ = f
    rw [h, afterStore_xeniaRs]
  unfold commitStore
  rw [hresult, hkeeps, writeBack_withControl]
  rfl

/-- Settles O27: the checks and the commit do not depend on MSR and FPSCR, which the commit keeps. -/
theorem snapshotIgnoresMsrAndFpscr : Obligations.SnapshotIgnoresMsrAndFpscr := by
  intro i s m f hprofile
  obtain ⟨hfault, hnext⟩ :=
    exec_of_storeFaults_eq (storeFaults_withControl (word := encode i) (op := storeOpOf i) m f hprofile)
  dsimp only
  split
  next t h =>
    have hdone := hnext t h
    obtain ⟨-, rfl⟩ := (exec_next_iff i s t).1 h
    rwa [commitStore_withControl m f hprofile] at hdone
  next e h => exact hfault e h
  next r h => exact absurd h (exec_ne_refused i s r)

/-! ### The flags a store raises (R73, R14) -/

theorem afterStore_of_no_flag {r : SfdResult} (p : Profile) (f : Fpscr) (n : Nat) (hxx : r.xx = false) (hox : r.ox = false)
    (hux : r.ux = false) (hvxsnan : r.vxsnan = false) : f.afterStore p n r = f := by
  cases p with
  | hw => simp [Fpscr.raiseFlags, raisesFlag, hxx, hox, hux, hvxsnan]
  | xeniaRs => rfl

/-- Settles O40: OR-ing in no flag leaves each bit, and the draw is made for a flag alone. -/
theorem otherFpscrBitsChangeOnlyWithAFlag : Obligations.OtherFpscrBitsChangeOnlyWithAFlag := by
  intro i s t h hxx hox hux hvxsnan
  obtain ⟨-, rfl⟩ := (exec_next_iff i s t).1 h
  rw [commitStore_fpscr, result_storeOpOf]
  exact afterStore_of_no_flag _ _ _ hxx hox hux hvxsnan

/-! ### Exact values (R71 (a), (b)) -/

/-- Every configuration converts an exact value to itself, with no flag. -/
theorem convert_widen {c : Config} {draw : Nat} {y : Word} {f : Fpscr} (hnan : isNan32 y = false)
    (hden : isDenormal32 y = true → f.ni = false ∨ c.profile = .xeniaRs) :
    convert c draw (widen y) f = unflagged y := by
  have hcontract := everyConversionMeetsTheContract c draw f
  cases hy : isDenormal32 y with
  | false => exact hcontract.exact y f.rn f.ni hnan hy
  | true =>
    have hieee : convert c draw (widen y) { f with ni := false } = unflagged y := hcontract.exactDenormal y f.rn hy
    obtain hni | hprofile := hden hy
    · rwa [← hni] at hieee
    · rwa [convert_xeniaRs draw _ f { f with ni := false } hprofile]

/-- Settles O43: the conversion of the completed store is exact. -/
theorem exactValuesAreStoredExactly : Obligations.ExactValuesAreStoredExactly := by
  intro i s t y h hx hnan hden
  have hresult : sfdOf s i = unflagged y := by rw [sfdOf, hx]; exact convert_widen hnan hden
  refine ⟨?_, ?_⟩
  · obtain ⟨-, rfl⟩ := (exec_next_iff i s t).1 h
    rw [readWord_commitStore, hresult]
    rfl
  · apply otherFpscrBitsChangeOnlyWithAFlag i s t h <;> rw [hresult] <;> rfl

/-! ### NaNs (R71 (c), R72) -/

theorem isSnan64_of_isNan64 {x : DWord} (h : isNan64 x = true) : isSnan64 x = !x.getLsbD 51 := by
  rw [isSnan64, h, Bool.true_and]

/-- The quieted NaN has exponent 255 and quiet bit 1, whichever bits are drawn. -/
theorem quiet_narrowNan (drawn : Option (BitVec 23)) (x : DWord) :
    exp32 (narrowNan drawn x).word = 255 ∧ (narrowNan drawn x).word.getLsbD 22 = true := by
  cases drawn with
  | none => exact quiet_of_extract (extract_quietNan _ _)
  | some b => exact quiet_of_extract (extract_quietNan _ _)

/-- A quiet NaN has the sign and the low fraction bits it was put together from. -/
theorem parts_quietNan (s : Bool) (payload : BitVec 22) :
    (BitVec.ofBool s ++ 0xFF#8 ++ 1#1 ++ payload).getLsbD 31 = s ∧
      (BitVec.ofBool s ++ 0xFF#8 ++ 1#1 ++ payload).extractLsb' 0 22 = payload := by
  constructor
  · simp only [BitVec.getLsbD_append]
    simp
  · have := payload.isLt
    apply BitVec.eq_of_toNat_eq
    rw [extract_toNat]
    simp only [append_toNat, BitVec.toNat_ofNat]
    omega

/-- Under `preserve` the quieted NaN keeps the sign and the high fraction bits (D5). -/
theorem preserved_narrowNan (x : DWord) :
    (narrowNan none x).word.getLsbD 31 = x.getLsbD 63 ∧ (narrowNan none x).word.extractLsb' 0 22 = x.extractLsb' 29 22 :=
  parts_quietNan (sign64 x) _

/-- Settles O44: under hw with `SFD_ieee` the result is the quieted NaN, whose one flag is VXSNAN. -/
theorem nanIsStoredQuiet : Obligations.NanIsStoredQuiet := by
  intro i s t h hnan hprofile hsfd
  have hresult : sfdOf s i = narrowNan (drawnNan s.cfg s.draws) (s.cpu.readFpr (fsOf i)) := by
    rw [sfdOf, convert, hsfd, hprofile]
    exact if_pos hnan
  obtain ⟨hexp, hquiet⟩ := quiet_narrowNan (drawnNan s.cfg s.draws) (s.cpu.readFpr (fsOf i))
  obtain ⟨-, rfl⟩ := (exec_next_iff i s t).1 h
  have hflags := flagsAfter_commitStore i s
  have hword := readWord_commitStore i s
  rw [hresult] at hflags hword
  refine ⟨_, hword, hexp, hquiet, fun hpreserve => ?_, ?_, ?_, ?_, ?_⟩
  · rw [drawnNan, hpreserve]
    exact preserved_narrowNan _
  · rw [hflags.hwVxsnan hprofile, ← isSnan64_of_isNan64 hnan]
    rfl
  · exact (hflags.hwXx hprofile).trans (Bool.or_false _)
  · exact (hflags.hwOx hprofile).trans (Bool.or_false _)
  · exact (hflags.hwUx hprofile).trans (Bool.or_false _)

end Sys2Proof.Proofs
end

section
/-! PROOFS. The statements of the family 'other' on several agents' stores (spec/20_memory.md sections 4 and 6), and the lemmas
they share. -/

namespace Sys2Proof.Proofs

open Sys2Proof.Machine Sys2Proof.Claims Sys2Proof.Laws

/-! ### A step of a decoded instruction -/

/-- A next state of a step is that of the instruction the fetched word decodes to, whose store is ready. -/
theorem ready_and_eq_stepped {s t : State} {w : Word} {i : Instr} (hf : fetch s = .ok w) (hd : decode w = .ok i)
    (h : step s = .next t) : StoreReady (storeOpOf i) s ∧ t = stepped i s := by
  obtain ⟨-, -, w', i', hf', hd', hready, rfl⟩ := step_next s t h
  obtain rfl : w' = w := by simpa [hf'] using hf
  obtain rfl : i' = i := by simpa [hd'] using hd
  exact ⟨hready, rfl⟩

/-! ### The accesses of a store, in the words of the statements -/

theorem accessesOf_aligned {n ea : Nat} (v : Word) (h : ea % 4 = 0) :
    accessesOf n ea v = [{ agent := n, cells := wordCells ea v }] :=
  if_pos h

theorem accessesOf_misaligned {n ea : Nat} (v : Word) (h : ea % 4 ≠ 0) :
    accessesOf n ea v = (wordCells ea v).map fun c => { agent := n, cells := [c] } :=
  if_neg h

/-- Of a store's accesses one at most lands on a byte, so that those that do are the same from last to first. -/
theorem reverse_filter_accessesOf (n ea a : Nat) (v : Word) :
    ((accessesOf n ea v).filter fun l => (l.byteAt a).isSome).reverse = ownOn n a (accessesOf n ea v) := by
  by_cases haligned : ea % 4 = 0
  · rw [accessesOf_aligned v haligned]
    cases h : (Landing.byteAt { agent := n, cells := wordCells ea v } a).isSome <;> simp [ownOn, h]
  · rw [accessesOf_misaligned v haligned]
    by_cases hin : ea ≤ a ∧ a < ea + 4
    · obtain rfl | rfl | rfl | rfl : a = ea ∨ a = ea + 1 ∨ a = ea + 2 ∨ a = ea + 3 := by omega
      all_goals simp [ownOn, wordCells, Landing.byteAt, read_cons]
    · have hnone : ea ≠ a ∧ ea + 1 ≠ a ∧ ea + 2 ≠ a ∧ ea + 3 ≠ a := by omega
      simp [ownOn, wordCells, Landing.byteAt, read_cons, hnone]

theorem read_wordCells_eq_some {x a : Nat} (v : Word) (hlo : x ≤ a) (hhi : a < x + 4) :
    ∃ b, Memory.read (wordCells x v) a = some b := by
  obtain rfl | rfl | rfl | rfl : a = x ∨ a = x + 1 ∨ a = x + 2 ∨ a = x + 3 := by omega
  all_goals simp [wordCells, read_cons]

/-- The cells of a word read as the word's bytes in storage. -/
theorem read_writeWord_eq_read_wordCells {ea a : Nat} (m : Memory) (v : Word) (hlo : ea ≤ a) (hhi : a < ea + 4) :
    (m.writeWord ea v).read a = Memory.read (wordCells ea v) a := by
  obtain ⟨h0, h1, h2, h3⟩ := read_writeWord m ea v
  obtain rfl | rfl | rfl | rfl : a = ea ∨ a = ea + 1 ∨ a = ea + 2 ∨ a = ea + 3 := by omega
  all_goals simp [wordCells, read_cons, h0, h1, h2, h3]

/-! ### The place of a store in the order (R37, R38) -/

theorem ownOn_stepped {i : Instr} {s : State} (ho : s.others ≠ []) (a : Nat) :
    ownOn s.me a (stepped i s).landings = ownOn s.me a (newAccesses s i) ++ ownOn s.me a s.landings := by
  rw [landings_stepped ho, ← reverse_filter_accessesOf]
  exact placeAll_own _ _ _ _ agent_of_mem_newAccesses _

/-- Each of the four bytes has one of the store's accesses on it. -/
theorem ownOn_newAccesses_ne_nil {i : Instr} {s : State} {a : Nat} (hlo : eaOf s.cpu i ≤ a) (hhi : a < eaOf s.cpu i + 4) :
    ownOn s.me a (newAccesses s i) ≠ [] := by
  obtain ⟨l, hl, hb⟩ := (newAccesses_byteAt i s a).1 ⟨hlo, hhi⟩
  exact List.ne_nil_of_mem (List.mem_filter.2 ⟨hl, by simp [agent_of_mem_newAccesses l hl, hb]⟩)

/-- On each of the four bytes some access lands last, and leaves its byte there. -/
theorem last_on_byte {i : Instr} {s : State} {a : Nat} (ho : s.others ≠ []) (hlo : eaOf s.cpu i ≤ a)
    (hhi : a < eaOf s.cpu i + 4) :
    ∃ pre l post, (stepped i s).landings = pre ++ l :: post ∧ (∀ o ∈ pre, o.byteAt a = none) ∧ (l.byteAt a).isSome ∧
      (stepped i s).mem.read a = l.byteAt a := by
  have hsome : (lastByte (stepped i s).landings a).isSome := by
    obtain ⟨l, hnew, hb⟩ := (newAccesses_byteAt i s a).1 ⟨hlo, hhi⟩
    exact lastByte_isSome _ _ l (mem_landings_of_newAccesses ho hnew) hb
  obtain ⟨b, hb⟩ := Option.isSome_iff_exists.1 hsome
  rw [read_stepped_settled ho hlo hhi, hb]
  obtain ⟨pre, l, post, horder, hl, hpre⟩ := List.findSome?_eq_some_iff.1 hb
  exact ⟨pre, l, post, horder, hpre, by rw [hl, Option.isSome_some], hl.symm⟩

/-- Settles O56: the store's accesses are placed one by one, each after those of its own agent that it meets, and the four bytes
are then left as the order has them. -/
theorem storeTakesItsPlaceInTheOrder : Obligations.StoreTakesItsPlaceInTheOrder := by
  intro s t w i ho hf hd hstep
  obtain ⟨-, rfl⟩ := ready_and_eq_stepped hf hd hstep
  refine ⟨?_, ?_, ?_, ownOn_stepped ho, fun a hlo hhi => last_on_byte ho hlo hhi⟩ <;> rw [landings_stepped ho]
  · exact placeAll_perm _ _ _
  · exact placeAll_sublist _ _ _
  · exact placeAll_others _ _ _ agent_of_mem_newAccesses _

/-! ### Whose byte, or word, is left -/

/-- An own access that no new one on its byte comes after in the order is a new one itself (R38 (a)). -/
theorem mem_newAccesses_of_own {i : Instr} {s : State} {a : Nat} {pre post : List Landing} {l : Landing} (ho : s.others ≠ [])
    (hlo : eaOf s.cpu i ≤ a) (hhi : a < eaOf s.cpu i + 4) (horder : (stepped i s).landings = pre ++ l :: post)
    (hown : l.agent = s.me) (hb : (l.byteAt a).isSome) (hpre : ∀ o ∈ pre, o ∉ ownOn s.me a (newAccesses s i)) :
    l ∈ newAccesses s i := by
  have hsplit := ownOn_stepped (i := i) ho a
  obtain ⟨n, ns, hnew⟩ := List.exists_cons_of_ne_nil (ownOn_newAccesses_ne_nil hlo hhi)
  have hmem : n ∈ ownOn s.me a (newAccesses s i) := by rw [hnew]; exact List.mem_cons_self
  have hl : ownOn s.me a (l :: post) = l :: ownOn s.me a post := List.filter_cons_of_pos (by simp [hown, hb])
  rw [horder, hnew, ownOn, List.filter_append] at hsplit
  change ownOn s.me a pre ++ ownOn s.me a (l :: post) = _ at hsplit
  rw [hl] at hsplit
  cases hown_pre : ownOn s.me a pre with
  | nil =>
    rw [hown_pre] at hsplit
    obtain rfl : l = n := (List.cons.inj hsplit).1
    exact (List.mem_filter.1 hmem).1
  | cons o os =>
    rw [hown_pre] at hsplit
    obtain rfl : o = n := (List.cons.inj hsplit).1
    have : o ∈ ownOn s.me a pre := by rw [hown_pre]; exact List.mem_cons_self
    exact absurd hmem (hpre o (List.mem_filter.1 this).1)

/-- The byte a store's own access leaves is the one its word has there. -/
theorem read_writeWord_of_byteAt {i : Instr} {s : State} {l : Landing} {a : Nat} {b : Byte} (hl : l ∈ newAccesses s i)
    (hb : l.byteAt a = some b) : (s.mem.writeWord (eaOf s.cpu i) (sfdOf s i).word).read a = some b := by
  have hcell := mem_wordCells_of_newAccesses hl (byteAt_mem l a b hb)
  obtain ⟨h0, h1, h2, h3⟩ := read_writeWord s.mem (eaOf s.cpu i) (sfdOf s i).word
  simp only [wordCells, List.mem_cons, Prod.mk.injEq, List.not_mem_nil, or_false] at hcell
  obtain ⟨rfl, rfl⟩ | ⟨rfl, rfl⟩ | ⟨rfl, rfl⟩ | ⟨rfl, rfl⟩ := hcell
  · exact h0
  · exact h1
  · exact h2
  · exact h3

/-- Settles O57: the access that lands last on a byte is one of the store's or another agent's, since of the agent's own the
store's come last. -/
theorem sharedBytesHoldOneOfTheStores : Obligations.SharedBytesHoldOneOfTheStores := by
  intro s t w i hf hd hstep a
  obtain ⟨-, rfl⟩ := ready_and_eq_stepped hf hd hstep
  refine ⟨read_afterExec_other i s a, fun hlo hhi => ?_⟩
  by_cases ho : s.others = []
  · rw [stepped_alone ho, commitStore_mem, toNat_ea_storeOpOf, result_storeOpOf]
    exact .inl rfl
  · obtain ⟨pre, l, post, horder, hpre, hsome, hread⟩ := last_on_byte ho hlo hhi
    obtain ⟨b, hb⟩ := Option.isSome_iff_exists.1 hsome
    have hnew (h : l ∈ newAccesses s i) : (stepped i s).mem.read a =
        (s.mem.writeWord (eaOf s.cpu i) (sfdOf s i).word).read a := by
      rw [hread, hb, read_writeWord_of_byteAt h hb]
    obtain hold | h := mem_landings_stepped (horder ▸ List.mem_append_right pre List.mem_cons_self)
    · by_cases hown : l.agent = s.me
      · refine .inl (hnew (mem_newAccesses_of_own ho hlo hhi horder hown hsome fun o hop hon => ?_))
        have := (List.mem_filter.1 hon).2
        simp [hpre o hop] at this
      · exact .inr ⟨l, hold, hown, b, hb, hread.trans hb⟩
    · exact .inl (hnew h)

/-! ### Aligned stores are atomic (R37) -/

/-- The access is of the whole word at `x`. -/
def OfWord (x : Nat) (l : Landing) : Prop := ∃ v, l.cells = wordCells x v

/-- Of the accesses of the word at `x`, one lands last. -/
theorem exists_last_ofWord {x : Nat} {order : List Landing} {l : Landing} (hl : l ∈ order) (hw : OfWord x l) :
    ∃ pre l' post, order = pre ++ l' :: post ∧ OfWord x l' ∧ ∀ o ∈ pre, ¬OfWord x o := by
  induction order with
  | nil => exact absurd hl List.not_mem_nil
  | cons o os ih =>
    by_cases ho : OfWord x o
    · exact ⟨[], o, os, rfl, ho, fun _ h => absurd h List.not_mem_nil⟩
    · obtain rfl | hl := List.mem_cons.1 hl
      · exact absurd hw ho
      · obtain ⟨pre, l', post, rfl, hw', hpre⟩ := ih hl
        exact ⟨o :: pre, l', post, rfl, hw', List.forall_mem_cons.2 ⟨ho, hpre⟩⟩

/-- A legal access that lands on a byte of the aligned word at `x` is of the whole word, or of that byte alone. -/
theorem ofWord_or_single {x a : Nat} {b : Byte} {l : Landing} (hlegal : l.legal) (hx : x % 4 = 0) (hlo : x ≤ a)
    (hhi : a < x + 4) (hb : l.byteAt a = some b) : OfWord x l ∨ l.cells = [(a, b)] := by
  have hcell := byteAt_mem l a b hb
  obtain ⟨addr, v, haligned, hcells⟩ | ⟨c, hcells⟩ := hlegal
  · rw [hcells] at hcell
    have := wordCells_addr _ _ _ hcell
    obtain rfl : addr = x := by dsimp only at this; omega
    exact .inl ⟨v, hcells⟩
  · rw [hcells, List.mem_singleton] at hcell
    exact .inr (hcell ▸ hcells)

/-- Where storage is as the order of legal accesses leaves it, the last access of an aligned word leaves its word there, but for
bytes that accesses of one byte have landed on. -/
theorem wordButForSingleBytes_of_last {s : State} (hinv : s.inv) {x : Nat} {pre post : List Landing} {l : Landing} {v : Word}
    (hx : x % 4 = 0) (horder : s.landings = pre ++ l :: post) (hcells : l.cells = wordCells x v)
    (hpre : ∀ o ∈ pre, ¬OfWord x o) : WordButForSingleBytes s.mem s.landings x v := by
  intro a hlo hhi
  have hl : l ∈ s.landings := by rw [horder]; exact List.mem_append_right _ List.mem_cons_self
  obtain ⟨b, hb⟩ := read_wordCells_eq_some v hlo hhi
  have hlb : l.byteAt a = some b := by rw [Landing.byteAt, hcells, hb]
  have hread : s.mem.read a = lastByte s.landings a := hinv.landed l hl (a, b) (byteAt_mem l a b hlb)
  rw [hread, hb]
  have hlast : lastByte s.landings a = (lastByte pre a).or (some b) := by
    rw [horder, lastByte, List.findSome?_append, List.findSome?_cons, hlb]
    rfl
  cases hpre_last : lastByte pre a with
  | none => exact .inl (by rw [hlast, hpre_last, Option.none_or])
  | some b' =>
    obtain ⟨o, hop, hob⟩ := lastByte_mem pre a b' hpre_last
    have ho : o ∈ s.landings := by rw [horder]; exact List.mem_append_left _ hop
    have hsingle := (ofWord_or_single (hinv.legal o ho) hx hlo hhi hob).resolve_left (hpre o hop)
    exact .inr ⟨o, ho, b', hsingle, by rw [hlast, hpre_last, Option.some_or]⟩

theorem wordCells_inj {x : Nat} {v v' : Word} (h : wordCells x v = wordCells x v') : v = v' := by
  have hread : ∀ u : Word, Memory.readWord (Memory.writeCells [] (wordCells x u)) x = some u :=
    readWord_writeWord_same [] x
  exact Option.some.inj ((hread v).symm.trans (h ▸ hread v'))

/-- A store's access of a whole aligned word has its word. -/
theorem eq_word_of_mem_newAccesses {i : Instr} {s : State} {l : Landing} (haligned : eaOf s.cpu i % 4 = 0)
    (h : l ∈ newAccesses s i) : l.cells = wordCells (eaOf s.cpu i) (sfdOf s i).word := by
  rw [newAccesses, accessesOf_aligned _ haligned, List.mem_singleton] at h
  rw [h]

/-- With one agent the word an aligned store leaves is its own. -/
theorem wordButForSingleBytes_alone {i : Instr} {s : State} (ho : s.others = []) :
    WordButForSingleBytes (stepped i s).mem s.landings (eaOf s.cpu i) (sfdOf s i).word := by
  intro a hlo hhi
  rw [stepped_alone ho, commitStore_mem, toNat_ea_storeOpOf, result_storeOpOf, read_writeWord_eq_read_wordCells _ _ hlo hhi]
  exact .inl rfl

/-- An aligned store brings no access of a single byte into the order. -/
theorem wordButForSingleBytes_before {i : Instr} {s : State} {m : Memory} {x : Nat} {v : Word}
    (haligned : eaOf s.cpu i % 4 = 0) (h : WordButForSingleBytes m (stepped i s).landings x v) :
    WordButForSingleBytes m s.landings x v := by
  intro a hlo hhi
  refine (h a hlo hhi).imp_right fun ⟨l, hl, b, hcells, hread⟩ => ?_
  obtain hold | hnew := mem_landings_stepped hl
  · exact ⟨l, hold, b, hcells, hread⟩
  · rw [eq_word_of_mem_newAccesses haligned hnew] at hcells
    cases hcells

/-- Settles O58: of the accesses of an aligned word the last one leaves its word, but for single bytes; and right after an aligned
store that one is the store's own or another agent's, since the store's comes after its agent's others. -/
theorem alignedStoresAreAtomic : Obligations.AlignedStoresAreAtomic := by
  refine ⟨fun k s hinv => ?_, fun s t w i hinv hf hd hstep haligned => ?_⟩
  · intro t x l v hx hl hcells
    obtain ⟨pre, l', post, horder, ⟨v', hcells'⟩, hpre⟩ := exists_last_ofWord hl ⟨v, hcells⟩
    exact ⟨l', horder ▸ List.mem_append_right _ List.mem_cons_self, v', hcells',
      wordButForSingleBytes_of_last (everyRunKeepsTheInvariant k s hinv) hx horder hcells' hpre⟩
  · obtain ⟨hready, rfl⟩ := ready_and_eq_stepped hf hd hstep
    by_cases ho : s.others = []
    · exact ⟨_, wordButForSingleBytes_alone ho, .inl rfl⟩
    · have hnew : ∀ l ∈ newAccesses s i, OfWord (eaOf s.cpu i) l := fun l hl => ⟨_, eq_word_of_mem_newAccesses haligned hl⟩
      obtain ⟨n, hn, -⟩ := (newAccesses_byteAt i s (eaOf s.cpu i)).1 ⟨le_rfl, by omega⟩
      obtain ⟨pre, l, post, horder, ⟨v, hcells⟩, hpre⟩ :=
        exists_last_ofWord (mem_landings_of_newAccesses ho hn) (hnew n hn)
      refine ⟨v, wordButForSingleBytes_before haligned
        (wordButForSingleBytes_of_last (inv_stepped hinv hready) haligned horder hcells hpre), ?_⟩
      have hown (h : l ∈ newAccesses s i) : v = (sfdOf s i).word :=
        wordCells_inj (hcells.symm.trans (eq_word_of_mem_newAccesses haligned h))
      obtain hold | h := mem_landings_stepped (horder ▸ List.mem_append_right pre List.mem_cons_self)
      · by_cases hme : l.agent = s.me
        · refine .inl (hown (mem_newAccesses_of_own ho le_rfl (by omega) horder hme ?_ fun o hop hon =>
            hpre o hop (hnew o (List.mem_filter.1 hon).1)))
          obtain ⟨b, hb⟩ := read_wordCells_eq_some v (le_refl (eaOf s.cpu i)) (by omega)
          rw [Landing.byteAt, hcells, hb, Option.isSome_some]
        · exact .inr ⟨l, hold, hme, hcells⟩
      · exact .inl (hown h)

end Sys2Proof.Proofs
end

section
/-! PROOFS. The statements of the family 'other' on `SFD_ieee` (R72 of spec/40_fp_store_single.md), and the lemmas they
share. -/

namespace Sys2Proof.Proofs

open Sys2Proof.Machine Sys2Proof.Claims Sys2Proof.Laws

/-! ### Tininess, in values -/

theorem isTiny_iff_tiny (t : Tininess) (rn : BitVec 2) {x : DWord} (hz : units64 x ≠ 0) :
    isTiny t rn (sign64 x) (significand64 x) (scale64 x) = true ↔ Tiny t rn x := by
  cases t with
  | before => exact isTiny_before_iff rn x hz
  | after => exact isTiny_after_iff rn x hz

/-- A tiny value, judged either way, is below 2^-126. -/
theorem units64_lt_of_tiny {t : Tininess} {rn : BitVec 2} {x : DWord} (h : Tiny t rn x) : units64 x < units32 0x00800000 := by
  cases t with
  | before => exact h
  | after => exact not_le.1 fun hle => h (.inr (.inr hle))

/-- Settles O48: the flush of R72, which the frame of a finite value has before its rounding. -/
theorem nonIeeeModeFlushesTinyValues : Obligations.NonIeeeModeFlushesTinyValues := by
  intro t nan x rn hnan hinf hpos htiny
  obtain ⟨k, n, r, -, -, -, -, -, hresult⟩ :=
    sfdIeee_frame t nan x rn true ((finite_iff x).1 ⟨hnan, hinf⟩) (Nat.pos_iff_ne_zero.1 hpos)
  rw [hresult, if_pos]
  · rfl
  · rw [(isTiny_iff_tiny t rn (Nat.pos_iff_ne_zero.1 hpos)).2 htiny, Bool.and_true]

/-! ### When a magnitude is rounded up -/

theorem upOf_congr_parity (rn : BitVec 2) (s : Bool) {n n' : Nat} (r unit : Nat) (h : n % 2 = n' % 2) :
    upOf rn s n r unit = upOf rn s n' r unit := by
  rw [upOf, upOf, h]

/-- To nearest: above half a unit, and at half of one from the odd magnitude. -/
theorem upOf_nearest_iff (s : Bool) (b r unit : Nat) :
    upOf 0b00 s b r unit = true ↔ unit < 2 * r ∨ (2 * r = unit ∧ b % 2 = 1) := by
  simp [upOf]

/-- Away from zero: wherever something is left over. -/
theorem upOf_away_iff {rn : BitVec 2} {x : DWord} (h : RoundsAway rn x) (b r unit : Nat) :
    upOf rn (sign64 x) b r unit = true ↔ r ≠ 0 := by
  obtain ⟨rfl, hs⟩ | ⟨rfl, hs⟩ := h <;> simp [upOf, hs]

theorem roundingMode_cases : ∀ rn : BitVec 2, rn = 0b00 ∨ rn = 0b01 ∨ rn = 0b10 ∨ rn = 0b11 := by decide

/-- Toward zero: never. -/
theorem upOf_toward {rn : BitVec 2} {x : DWord} (hrn : rn ≠ 0b00) (h : ¬RoundsAway rn x) (b r unit : Nat) :
    upOf rn (sign64 x) b r unit = false := by
  obtain rfl | rfl | rfl | rfl := roundingMode_cases rn
  · exact absurd rfl hrn
  · rfl
  · have hs : sign64 x = true := by simpa [RoundsAway] using h
    simp [upOf, hs]
  · have hs : sign64 x = false := by simpa [RoundsAway] using h
    simp [upOf, hs]

/-! ### A value that is not flushed -/

/-- The result of rounding to the magnitude `p`, `r` units being discarded (R72). -/
def roundedResult (rn : BitVec 2) (s tiny : Bool) (p r : Nat) : SfdResult :=
  { word := pack32 s (resultMagnitude rn s p), xx := r != 0 || decide (0x7F800000 ≤ p), ox := decide (0x7F800000 ≤ p),
    ux := tiny && r != 0, vxsnan := false }

/-- The magnitude `b` at or below `|x|`, the `r` left over, and the `unit` from `b` to the next magnitude. -/
structure Between (x : DWord) (b r unit : Nat) : Prop extends AtOrBelow x b r where
  unit_eq : units32 (b + 1) = units32 b + unit

/-- What `SFD_ieee` returns for a finite value that is not flushed, zero among them: the rounding of what lies between two
magnitudes. -/
theorem sfdIeee_eq_roundedResult (t : Tininess) (drawn : Option (BitVec 23)) {x : DWord} (rn : BitVec 2) (ni : Bool)
    (hf : exp64 x ≠ 2047) (hflush : ni = true → ¬Tiny t rn x) :
    ∃ b r unit tiny, Between x b r unit ∧ (r ≠ 0 → (tiny = true ↔ Tiny t rn x)) ∧
      sfdIeee t drawn x rn ni =
        roundedResult rn (sign64 x) tiny (b + (upOf rn (sign64 x) b r unit).toNat) r := by
  by_cases hz : units64 x = 0
  · have hone := units32_lt_succ 0
    rw [units32_zero] at hone
    refine ⟨0, 0, units32 1, false, ⟨⟨by rw [hz, units32_zero], by omega⟩, by rw [units32_zero, Nat.zero_add, Nat.zero_add]⟩,
      fun h => absurd rfl h, ?_⟩
    rw [sfdIeee_zero t drawn x rn ni hf hz, upOf_zero _ _ _ _ hone]
    rfl
  · obtain ⟨k, n, r, h1, h2, h3, h4, -, hresult⟩ := sfdIeee_frame t drawn x rn ni hf hz
    obtain ⟨unit, hunit, -, -, hnext⟩ := frame_values x k n r h1 h2 h3 h4
    have htiny := isTiny_iff_tiny t rn hz
    refine ⟨k * 2 ^ 23 + n, r, unit, _, ⟨atOrBelow_of_frame h1 h2 h3 h4, hnext⟩, fun _ => htiny, ?_⟩
    rw [hresult, if_neg, upOf_congr_parity rn _ r unit (show (k * 2 ^ 23 + n) % 2 = n % 2 by omega), hunit]
    · rfl
    · rw [Bool.and_eq_true, htiny]
      exact fun h => hflush h.2 h.1

theorem Between.lt_unit {x : DWord} {b r unit : Nat} (h : Between x b r unit) : r < unit := by
  have hv := h.value
  have hn := h.next
  have hu := h.unit_eq
  omega

/-- Where an overflow gives infinity, the magnitude is the rounded one, or infinity for a value of at least 2^128. -/
theorem magnitude_to_infinity {rn : BitVec 2} {x : DWord} {tiny up : Bool} {b r p : Nat} (h : rn = 0b00 ∨ RoundsAway rn x)
    (hp : (mag32 (roundedResult rn (sign64 x) tiny (b + up.toNat) r).word).toNat = p) :
    (b < 0x7F800000 ∧ p = b + up.toNat) ∨ (0x7F800000 ≤ b ∧ p = 0x7F800000) := by
  have hup : up.toNat ≤ 1 := Bool.toNat_le up
  have hoverflow : overflowMagnitude rn (sign64 x) = 0x7F800000 := if_pos h
  rw [roundedResult, mag32_pack32, resultMagnitude] at hp
  split at hp
  · rw [BitVec.toNat_ofNat] at hp
    omega
  · rw [hoverflow, show (0x7F800000 : BitVec 31).toNat = 0x7F800000 from rfl] at hp
    omega

/-- Rounded toward zero, the magnitude is the one at or below the value, the largest finite for a value of at least 2^128. -/
theorem magnitude_toward_zero {rn : BitVec 2} {x : DWord} {tiny : Bool} {b r unit p : Nat} (hrn : rn ≠ 0b00) (h : ¬RoundsAway rn x)
    (hp : (mag32 (roundedResult rn (sign64 x) tiny (b + (upOf rn (sign64 x) b r unit).toNat) r).word).toNat = p) :
    (b < 0x7F800000 ∧ p = b) ∨ (0x7F800000 ≤ b ∧ p = 0x7F7FFFFF) := by
  have hoverflow : overflowMagnitude rn (sign64 x) = 0x7F7FFFFF := if_neg fun hc => hc.elim hrn h
  rw [roundedResult, mag32_pack32, resultMagnitude, upOf_toward hrn h, Bool.toNat_false, Nat.add_zero] at hp
  split at hp
  · rw [BitVec.toNat_ofNat] at hp
    omega
  · rw [hoverflow, show (0x7F7FFFFF : BitVec 31).toNat = 0x7F7FFFFF from rfl] at hp
    omega

/-! ### The directions (R72) -/

/-- Settles O45: the remainder is compared with half a unit, and at half of one the even magnitude is taken. -/
theorem roundsToNearestEven : Obligations.RoundsToNearestEven := by
  intro t nan x ni hnan hinf hflush p
  obtain ⟨b, r, unit, tiny, hb, -, hresult⟩ := sfdIeee_eq_roundedResult t nan 0b00 ni ((finite_iff x).1 ⟨hnan, hinf⟩) hflush
  have hp := magnitude_to_infinity (p := p) (.inl rfl) (by rw [← hresult])
  have hup := upOf_nearest_iff (sign64 x) b r unit
  clear_value p
  have hvalue := hb.value
  have hunit := hb.unit_eq
  have hlt := hb.lt_unit
  obtain ⟨hsmall, rfl⟩ | ⟨hlarge, rfl⟩ := hp
  · cases hcase : upOf 0b00 (sign64 x) b r unit with
    | false =>
      have hdown : ¬(unit < 2 * r ∨ (2 * r = unit ∧ b % 2 = 1)) := mt hup.2 (Bool.eq_false_iff.1 hcase)
      have hbelow : 0 < b → units32 (b - 1) < units32 b := fun hpos => units32_strictMono (Nat.sub_lt hpos Nat.one_pos)
      rw [Bool.toNat_false, Nat.add_zero]
      omega
    | true =>
      have hrise := hup.1 hcase
      have habove := units32_lt_succ (b + 1)
      rw [Bool.toNat_true, Nat.add_sub_cancel]
      omega
  · have hb' : units32 0x7F800000 ≤ units32 b := units32_strictMono.monotone hlarge
    have hbelow : units32 (0x7F800000 - 1) < units32 0x7F800000 := units32_lt_succ 0x7F7FFFFF
    omega

/-- Settles O46: toward zero the magnitude at or below the value is kept, away from zero the next one is taken where anything is
left over. -/
theorem directedModesRoundTowardTheirDirection : Obligations.DirectedModesRoundTowardTheirDirection := by
  intro t nan x rn ni hnan hinf hflush p
  obtain ⟨b, r, unit, tiny, hb, -, hresult⟩ := sfdIeee_eq_roundedResult t nan rn ni ((finite_iff x).1 ⟨hnan, hinf⟩) hflush
  have hlow := hb.toAtOrBelow.units32_lt_iff
  have hhigh := hb.toAtOrBelow.lt_units32_iff
  refine ⟨fun hrn htoward => ?_, fun haway => ?_⟩
  · have hp := magnitude_toward_zero (p := p) hrn htoward (by rw [← hresult])
    have := hhigh p
    have := hhigh (p + 1)
    omega
  · have hp := magnitude_to_infinity (p := p) (.inr haway) (by rw [← hresult])
    have hup := upOf_away_iff haway b r unit
    have := hlow p
    have := hlow (p - 1)
    cases hcase : upOf rn (sign64 x) b r unit with
    | false =>
      have hexact : ¬r ≠ 0 := mt hup.2 (Bool.eq_false_iff.1 hcase)
      rw [hcase, Bool.toNat_false] at hp
      omega
    | true =>
      have hrest := hup.1 hcase
      rw [hcase, Bool.toNat_true] at hp
      omega

/-! ### The flags (R72) -/

/-- The flags of a rounding, whichever magnitude next to the value it takes: up where something is left over, or down. -/
theorem flags_roundedResult {t : Tininess} {rn : BitVec 2} {x : DWord} {b r unit : Nat} {tiny : Bool} (hb : Between x b r unit)
    (htiny : r ≠ 0 → (tiny = true ↔ Tiny t rn x)) :
    let res := roundedResult rn (sign64 x) tiny (b + (upOf rn (sign64 x) b r unit).toNat) r
    let p := (mag32 res.word).toNat
    (res.xx = true ↔ p = 0x7F800000 ∨ units32 p ≠ units64 x) ∧
    (res.ux = true ↔ Tiny t rn x ∧ units32 p ≠ units64 x) ∧
    (res.ox = true ↔ p = 0x7F800000 ∨ units32 0x7F800000 ≤ units64 x) ∧
    (res.ox = true → units32 0x7F7FFFFF < units64 x) := by
  intro res p
  have hlow := hb.toAtOrBelow.units32_lt_iff
  have hhigh := hb.toAtOrBelow.lt_units32_iff
  have heq := hb.toAtOrBelow.eq_units32_iff
  have hexact : r = 0 → upOf rn (sign64 x) b r unit = false := fun h => by
    rw [h, upOf_zero _ _ _ _ (Nat.lt_of_le_of_lt (Nat.zero_le r) hb.lt_unit)]
  have hxx : res.xx = true ↔ r ≠ 0 ∨ 0x7F800000 ≤ b + (upOf rn (sign64 x) b r unit).toNat := by simp [res, roundedResult]
  have hox : res.ox = true ↔ 0x7F800000 ≤ b + (upOf rn (sign64 x) b r unit).toNat := by simp [res, roundedResult]
  have hux : res.ux = true ↔ Tiny t rn x ∧ r ≠ 0 := by
    by_cases hr : r = 0
    · simp [res, roundedResult, hr]
    · simp [res, roundedResult, hr, ← htiny hr]
  have hp : (b < 0x7F800000 ∧ p = b + (upOf rn (sign64 x) b r unit).toNat) ∨
      (0x7F800000 ≤ b ∧ (p = 0x7F800000 ∨ p = 0x7F7FFFFF)) := by
    by_cases hinfinity : rn = 0b00 ∨ RoundsAway rn x
    · exact (magnitude_to_infinity hinfinity rfl).imp_right (And.imp_right .inl)
    · rw [not_or] at hinfinity
      have := magnitude_toward_zero (p := p) hinfinity.1 hinfinity.2 rfl
      rw [upOf_toward hinfinity.1 hinfinity.2]
      exact this.imp_right (And.imp_right .inr)
  have hsmall : Tiny t rn x → b < 0x00800000 := fun h => (hhigh _).1 (units64_lt_of_tiny h)
  have hup : (upOf rn (sign64 x) b r unit).toNat = 0 ∨ ((upOf rn (sign64 x) b r unit).toNat = 1 ∧ r ≠ 0) := by
    cases hcase : upOf rn (sign64 x) b r unit with
    | false => exact .inl rfl
    | true => exact .inr ⟨rfl, fun h => Bool.noConfusion (hcase.symm.trans (hexact h))⟩
  have := heq p
  have := hhigh 0x7F800000
  have := hlow 0x7F7FFFFF
  rw [hxx, hox, hux]
  refine ⟨by omega, and_congr_right fun h => ?_, by omega, by omega⟩
  have := hsmall h
  omega

/-- Settles O47: the flags of a flush are those of a zero stored for another value; otherwise those of the rounding. -/
theorem flagsTellHowTheWordDiffers : Obligations.FlagsTellHowTheWordDiffers := by
  intro t nan x rn ni hnan hinf
  dsimp only
  by_cases hflush : ni = true → ¬Tiny t rn x
  · obtain ⟨b, r, unit, tiny, hb, htiny, hresult⟩ :=
      sfdIeee_eq_roundedResult t nan rn ni ((finite_iff x).1 ⟨hnan, hinf⟩) hflush
    obtain ⟨hxx, hux, hox, hlarge⟩ := flags_roundedResult hb htiny
    rw [hresult]
    exact ⟨hxx, hux, hox, hlarge, rfl⟩
  · obtain ⟨rfl, htiny⟩ : ni = true ∧ Tiny t rn x := by simpa using hflush
    have hlarge : units64 x < units32 0x7F800000 :=
      Nat.lt_trans (units64_lt_of_tiny htiny) (units32_strictMono (by omega))
    by_cases hz : units64 x = 0
    · rw [sfdIeee_zero t nan x rn true ((finite_iff x).1 ⟨hnan, hinf⟩) hz]
      simp [units32_zero, hz, Nat.pos_iff_ne_zero.1 (hz ▸ hlarge)]
    · rw [nonIeeeModeFlushesTinyValues t nan x rn hnan hinf (Nat.pos_of_ne_zero hz) htiny]
      simp [units32_zero, Ne.symm hz, htiny, not_le.2 hlarge]

/-! ### `TININESS = after` (R72, last paragraph) -/

/-- The units of the magnitude just below 2^-126, and of the step to 2^-126. -/
theorem units32_largestDenormal : units32 0x00800000 = units32 0x007FFFFF + 2 ^ 925 := by
  have h : ∀ n ≤ 2 ^ 23, units32 n = n * 2 ^ 925 := fun n hn => by
    have := units32_grid 0 n (by omega) (.inl rfl)
    rwa [Nat.zero_mul, Nat.zero_add, Nat.zero_add] at this
  rw [h _ (by omega), h _ (by omega)]
  generalize 2 ^ 925 = unit
  omega

/-- A value below 2^-126 whose rounding to 24 bits reaches it lies on the step to 2^-126, at least half of it up to nearest and
not at its foot away from zero: it is rounded up. -/
theorem rounds_to_smallestNormal {rn : BitVec 2} {x : DWord} {b r unit : Nat} (hb : Between x b r unit)
    (hlt : units64 x < units32 0x00800000) (h : ReachesSmallestNormal rn x) :
    b + (upOf rn (sign64 x) b r unit).toNat = 0x00800000 ∧ r ≠ 0 := by
  have hstep := units32_largestDenormal
  have h925 : (2 : Nat) ^ 925 = 2 ^ 2 * 2 ^ 923 := by rw [← Nat.pow_add]
  have h924 : (2 : Nat) ^ 924 = 2 ^ 1 * 2 ^ 923 := by rw [← Nat.pow_add]
  rw [h925] at hstep
  rw [ReachesSmallestNormal, h924] at h
  generalize 2 ^ 923 = quarter at hstep h
  have hbelow := (hb.toAtOrBelow.lt_units32_iff _).1 hlt
  have habove := hb.toAtOrBelow.lt_units32_iff 0x007FFFFF
  obtain rfl : b = 0x007FFFFF := by omega
  have hvalue := hb.value
  have hrest := hb.lt_unit
  have hunit : units32 0x00800000 = units32 0x007FFFFF + unit := hb.unit_eq
  obtain ⟨rfl, hnear⟩ | ⟨haway, hnear⟩ | hreached := h
  · rw [(upOf_nearest_iff _ _ _ _).2 (.inl (by omega))]
    exact ⟨rfl, by omega⟩
  · have hr : r ≠ 0 := by omega
    rw [(upOf_away_iff haway _ _ _).2 hr]
    exact ⟨rfl, hr⟩
  · omega

/-- Judged after rounding, only the values that the rounding takes to 2^-126 are judged otherwise. -/
theorem tiny_after_iff_before {rn : BitVec 2} {x : DWord} (h : ¬(units64 x < units32 0x00800000 ∧ ReachesSmallestNormal rn x)) :
    Tiny .after rn x ↔ Tiny .before rn x :=
  ⟨units64_lt_of_tiny, fun hlt hreach => h ⟨hlt, hreach⟩⟩

theorem narrowFinite_congr_tininess {t t' : Tininess} {rn : BitVec 2} {s : Bool} {m : Nat} {q : Int} (ni : Bool)
    (h : isTiny t rn s m q = isTiny t' rn s m q) : narrowFinite t s m q rn ni = narrowFinite t' s m q rn ni := by
  rw [narrowFinite, narrowFinite, h]

/-- Where both judgements of tininess agree, so do the results. -/
theorem sfdIeee_congr_tininess {t t' : Tininess} {rn : BitVec 2} {x : DWord} (drawn : Option (BitVec 23)) (ni : Bool)
    (h : Tiny t rn x ↔ Tiny t' rn x) : sfdIeee t drawn x rn ni = sfdIeee t' drawn x rn ni := by
  unfold sfdIeee
  split_ifs with hnan hinf hzero
  · rfl
  · rfl
  · rfl
  · have hz : units64 x ≠ 0 := mt (significand64_zero_iff x).2 hzero
    exact narrowFinite_congr_tininess ni (Bool.eq_iff_iff.2 (by rw [isTiny_iff_tiny t rn hz, isTiny_iff_tiny t' rn hz, h]))

/-- A pattern below 2^-126, in the terms of R72, is finite. -/
theorem finite_of_units64_lt {x : DWord} (h : units64 x < units32 0x00800000) : exp64 x ≠ 2047 := by
  intro hexp
  by_cases hz : units64 x = 0
  · have := (significand64_zero_iff x).2 hz
    rw [significand64, if_pos (by omega)] at this
    omega
  · rw [units32_smallestNormal] at h
    obtain ⟨-, hge, -⟩ | ⟨he, -⟩ | ⟨he, -⟩ := binade x hz
    · exact absurd h (not_lt.2 hge)
    · omega
    · omega

/-- Settles O49: a value the rounding takes to 2^-126 is not tiny judged after it, so it is rounded, and up; every other is
judged alike; and with NI = 0 the judgement reaches UX alone. -/
theorem tininessAfterDiffersOnlyWhereRoundingReachesTheSmallestNormal :
    Obligations.TininessAfterDiffersOnlyWhereRoundingReachesTheSmallestNormal := by
  refine fun nan x rn ni => ⟨fun hlt hreach => ?_, fun h => sfdIeee_congr_tininess nan ni (tiny_after_iff_before h),
    sfdIeee_word_tininess .after .before nan x rn⟩
  obtain ⟨b, r, unit, tiny, hb, htiny, hresult⟩ :=
    sfdIeee_eq_roundedResult .after nan rn ni (finite_of_units64_lt hlt) fun _ hnot => hnot hreach
  obtain ⟨hmag, hr⟩ := rounds_to_smallestNormal hb hlt hreach
  have hnot : tiny = false := Bool.eq_false_iff.2 fun h => (htiny hr).1 h hreach
  rw [hresult, hmag, hnot]
  simp [roundedResult, resultMagnitude, hr, sign64]

end Sys2Proof.Proofs
end
